-- ==== Sys2Proof/Word.lean ====
section
/-! DEFINITION. The word types of the decode CORE (spec 00_scope.md R9, R11): one abbreviation per width the spec names. -/

namespace Sys2Proof

/-- One duration word, DUR_W = 16 bits (00_scope.md R9, 10_state.md R21). -/
abbrev Dur := BitVec 16

/-- One byte cell of the decoded frame (10_state.md R28). -/
abbrev Byte := BitVec 8

/-- One host register or bus word (20_memory.md R52, R54). -/
abbrev Reg := BitVec 32

/-- The shift register SR and the value FRAME, 40 bits (10_state.md R27, R40). -/
abbrev Frame := BitVec 40

/-- The duplicate signature, 42 bits (10_state.md R29). -/
abbrev Sig := BitVec 42

end Sys2Proof
end

