-- ==== Sys2Proof/Config.lean ====
section
/-! DEFINITION. The implementation parameters of spec 00_scope.md R9: the stated ones as named constants (`Param`), the OPEN ones as fields of `Config`; the well-formedness of a configuration (R10); and the free values of the model, each an opaque constant without a body. -/

namespace Sys2Proof

/-! ## Parameters whose value the spec states (R9, "value" column; D38 asks for a name each; UNVERIFIED, unsafe: assumption log 2) -/

/-- DUR_MAX = 2^DUR_W − 1 with DUR_W = 16. -/
abbrev Param.durMax : Nat := 65535
/-- DUP_WINDOW, in time units. -/
abbrev Param.dupWindow : Nat := 500
/-- SIGN_MARK_BIT: the bit of TEMP_WORD that marks a negative value. -/
abbrev Param.signMarkBit : Nat := 15
/-- The transmitted bits of Protocol A (00_scope.md R3, 30_encoding.md R76). -/
abbrev Param.aTransmitted : Nat := 37
/-- The usable bits of Protocol A. -/
abbrev Param.aBits : Nat := 36
/-- A_TEMP_MAX, in tenths. -/
abbrev Param.aTempMax : Nat := 600
/-- The modulus of SIGN12's two's-complement recovery, 2^12 (43_field_decoder.md R166; D38 names it). -/
abbrev Param.aSignModulus : Nat := 4096
/-- A_HUM_MAX. -/
abbrev Param.aHumMax : Nat := 99
/-- The bits of Protocol B. -/
abbrev Param.bBits : Nat := 40
/-- B_BIAS. -/
abbrev Param.bBias : Int := 900
/-- B_F_OFFSET. -/
abbrev Param.bFOffset : Int := 320
/-- B_RESCALE_NUM. -/
abbrev Param.bRescaleNum : Int := 5
/-- B_RESCALE_DEN. -/
abbrev Param.bRescaleDen : Int := 9
/-- B_HUM_MAX_BCD. -/
abbrev Param.bHumMaxBcd : Nat := 0x99
/-- B_TEMP_POS. -/
abbrev Param.bTempPos : Nat := 8
/-- B_TEMP_W. -/
abbrev Param.bTempW : Nat := 12
/-- B_HUM_POS. -/
abbrev Param.bHumPos : Nat := 20
/-- C_BITS: the declared bit length of Protocol C. -/
abbrev Param.cBits : Nat := 28
/-- C_BIT_CAP: the bit-count target at which variable assembly stops. -/
abbrev Param.cBitCap : Nat := 32
/-- C_SIGN_POS. -/
abbrev Param.cSignPos : Nat := 8

/-! ## Parameters the spec leaves OPEN -/

/-- The window table of a two-slot protocol, A or B (R9: p_MARK_CEIL, p_ZERO_LO, p_ZERO_HI, p_ONE_TH). -/
structure FixedWindows where
  markCeil : Nat
  zeroLo   : Nat
  zeroHi   : Nat
  oneTh    : Nat
  deriving DecidableEq, Repr

/-- The window table of Protocol C (R9: C_ZERO_LO, C_ZERO_HI, C_ONE_LO, C_ONE_HI). -/
structure CompositeWindows where
  zeroLo : Nat
  zeroHi : Nat
  oneLo  : Nat
  oneHi  : Nat
  deriving DecidableEq, Repr

/-- SIG_FN (R9, 44_dedup.md R190): the stated default, or some other total function of (PROTO, FRAME, NBITS).
A function cannot stand in plain data, so `other n` names the `n`-th member of `Config.otherSignature`, about
which nothing is known (DESIGN CHOICE, safe: assumption log 3). -/
inductive SigFn
  | standard
  | other (n : Nat)
  deriving DecidableEq, Repr

/-- The OPEN rows of R9's table, one field each. -/
structure Config where
  capDepth    : Nat
  aLen        : Nat
  aFirstSlot  : Nat
  aUsedOffset : Nat
  aWindows    : FixedWindows
  bLen        : Nat
  bFirstSlot  : Nat
  bWindows    : FixedWindows
  bTempMax    : Nat
  cLenMin     : Nat
  cLenMax     : Nat
  cFirstSlot  : Nat
  cStopSlots  : Nat
  cWindows    : CompositeWindows
  cAggOffset  : Nat
  cTempMax    : Nat
  sigFn       : SigFn
  deriving DecidableEq, Repr

/-! ## Well-formed configurations (R10) -/

/-- R10 item 1 for one two-slot protocol: the windows are disjoint and lie below DUR_MAX. -/
def FixedWindows.wf (w : FixedWindows) : Bool :=
  decide (w.zeroLo ≤ w.zeroHi) && decide (w.zeroHi < w.oneTh) && decide (w.oneTh ≤ Param.durMax)
    && decide (w.markCeil ≤ Param.durMax)

/-- R10 item 2. -/
def CompositeWindows.wf (w : CompositeWindows) : Bool :=
  decide (w.zeroLo ≤ w.zeroHi) && decide (w.zeroHi ≤ Param.durMax) && decide (w.oneLo ≤ w.oneHi)
    && decide (w.oneHi ≤ 4 * Param.durMax)

/-- R10 item 3. -/
def Config.firstSlotsEven (c : Config) : Bool :=
  decide (c.aFirstSlot % 2 = 0) && decide (c.bFirstSlot % 2 = 0) && decide (c.cFirstSlot % 2 = 0)

/-- R10 item 4. -/
def Config.aFits (c : Config) : Bool :=
  decide (c.aFirstSlot + 2 * Param.aTransmitted ≤ c.aLen) && decide (c.aLen ≤ c.capDepth)

/-- R10 item 5. -/
def Config.bFits (c : Config) : Bool :=
  decide (c.bFirstSlot + 2 * Param.bBits ≤ c.bLen) && decide (c.bLen ≤ c.capDepth)

/-- R10 item 6. -/
def Config.cFits (c : Config) : Bool :=
  decide (c.cFirstSlot + c.cStopSlots ≤ c.cLenMin) && decide (c.cLenMin ≤ c.cLenMax)
    && decide (c.cLenMax ≤ c.capDepth)

/-- R10 item 7. -/
def Config.offsetsAdmitted (c : Config) : Bool :=
  (decide (c.aUsedOffset = 0) || decide (c.aUsedOffset = 1))
    && (decide (c.cAggOffset = 1) || decide (c.cAggOffset = 2))

/-- The bound R9's row CAP_DEPTH puts on the depth (D8); its lower bound follows from R10 items 4 to 6. -/
def Config.depthAdmitted (c : Config) : Bool := decide (c.capDepth ≤ 65535)

/-- A well-formed configuration: every item of R10, and R9's bound on CAP_DEPTH (DEDUCED, safe: assumption log 12). -/
def Config.wf (c : Config) : Bool :=
  c.aWindows.wf && c.bWindows.wf && c.cWindows.wf && c.firstSlotsEven && c.aFits && c.bFits && c.cFits
    && c.offsetsAdmitted && c.depthAdmitted

/-- Configuration E of 95_test_vectors.md section 1. ILLUSTRATIVE ONLY, not the hardware's: it shows that a
well-formed configuration exists, and the model's own tests use it. No statement about the machine rests on it. -/
def Config.exampleE : Config where
  capDepth    := 256
  aLen        := 74
  aFirstSlot  := 0
  aUsedOffset := 0
  aWindows    := { markCeil := 40, zeroLo := 80, zeroHi := 120, oneTh := 160 }
  bLen        := 80
  bFirstSlot  := 0
  bWindows    := { markCeil := 40, zeroLo := 80, zeroHi := 120, oneTh := 160 }
  bTempMax    := 600
  cLenMin     := 58
  cLenMax     := 170
  cFirstSlot  := 0
  cStopSlots  := 2
  cWindows    := { zeroLo := 80, zeroHi := 120, oneLo := 200, oneHi := 280 }
  cAggOffset  := 1
  cTempMax    := 600
  sigFn       := .standard

/-- A configuration together with the fact that it is well-formed. -/
structure WfConfig where
  cfg : Config := Config.exampleE
  ok  : cfg.wf = true := by decide
  deriving Inhabited

/-! ## Free values (no body: no proof can see what they are) -/

/-- The parameters this hardware was built with: some well-formed configuration, and nothing more is known of it.
R9 leaves these values OPEN and asks for every well-formed one (DESIGN CHOICE, safe: assumption log 1). -/
opaque Config.built : WfConfig

/-- SIG_FN other than the default: the `n`-th total function of (PROTO, FRAME, NBITS) to 42 bits
(R190; a free value, safe: assumption log 3). -/
opaque Config.otherSignature : Nat → BitVec 2 → Frame → BitVec 6 → Sig

/-- What the HOST reads from slot `i` of the capture memory when it has not written that slot since the
`epoch`-th reset: unspecified (10_state.md R45; a free value, DESIGN CHOICE, safe: assumption log 7). -/
opaque Config.unwrittenSlot : (epoch i : Nat) → Dur

end Sys2Proof
end

