-- ==== Sys2Proof/Syntax.lean ====
section
/-! DEFINITION. The commands of the CORE (spec 30_encoding.md R71, opcode_table.json), and the host's accesses (20_memory.md R52, R55) that carry them. -/

namespace Sys2Proof

/-- The five host commands, one constructor per row of opcode_table.json. No command has an operand (R73). -/
inductive Instr
  | nop
  | decodeA
  | decodeB
  | decodeC
  | dupclr
  deriving DecidableEq, Repr

/-- What the host can do to the CORE between commands: a bus access of `bits` bits at a byte offset of the
register space (R52, R55), or a reset (70_reset_and_hazards.md R260). Of a write wider than 32 bits only the low
32 bits stand in `value`: such an access is never admitted. -/
inductive HostEvent
  | write (bits offset : Nat) (value : Reg)
  | read (bits offset : Nat)
  | reset
  deriving DecidableEq, Repr

end Sys2Proof
end

