-- ==== Sys2Proof/WellFormed.lean ====
section
/-! DEFINITION. Which commands, command words and host accesses are well-formed (spec 30_encoding.md R70 to R73, 20_memory.md R55). The well-formedness of a configuration (R10) is `Config.wf` in Config.lean. -/

namespace Sys2Proof

/-- Every command is well-formed: none has an operand that could be out of range (R73). -/
def Instr.wf (i : Instr) : Bool :=
  match i with
  | .nop => true
  | .decodeA => true
  | .decodeB => true
  | .decodeC => true
  | .dupclr => true

/-- The reserved field RSV, bits 31:3, of a command word is 0 (R70). -/
def wordReservedClear (w : Reg) : Bool := decide (w.extractLsb' 3 29 = 0)

/-- OP, bits 2:0, of a command word selects one of the five commands (R71). -/
def wordOpAssigned (w : Reg) : Bool := decide ((w.extractLsb' 0 3).toNat ≤ 4)

/-- A legal command word (R70, R71). -/
def wordLegal (w : Reg) : Bool := wordReservedClear w && wordOpAssigned w

/-- The width and alignment the host bus admits: 32 bits at a multiple of 4 (R55). -/
def accessAdmitted (bits offset : Nat) : Bool := decide (bits = 32) && decide (offset % 4 = 0)

/-- An admitted host event (R55); a reset is always possible between commands (R260). -/
def HostEvent.wf (e : HostEvent) : Bool :=
  match e with
  | .write bits offset _ => accessAdmitted bits offset
  | .read bits offset => accessAdmitted bits offset
  | .reset => true

end Sys2Proof
end

