-- ==== Sys2Proof/Decode.lean ====
section
/-! DEFINITION. The command word CMD32: its decoder and its encoder (spec 30_encoding.md R70 to R74). -/

namespace Sys2Proof

/-- Why a word encodes no command (R72). -/
inductive DecodeError
  /-- A bit of RSV, bits 31:3, is set (safe: the word is ILLEGAL, R215). -/
  | reservedBitsSet
  /-- OP is 5, 6 or 7 (safe: the word is ILLEGAL, R215). -/
  | reservedOp
  deriving DecidableEq, Repr

/-- The command a 32-bit word written to CMD encodes (R70, R71); every other word is rejected by name (R72). -/
def decode (w : Reg) : Except DecodeError Instr :=
  if wordReservedClear w then
    match (w.extractLsb' 0 3).toNat with
    | 0 => .ok .nop
    | 1 => .ok .decodeA
    | 2 => .ok .decodeB
    | 3 => .ok .decodeC
    | 4 => .ok .dupclr
    | _ => .error .reservedOp
  else .error .reservedBitsSet

/-- OP of a command (R71). -/
def opOf (i : Instr) : BitVec 3 :=
  match i with
  | .nop => 0
  | .decodeA => 1
  | .decodeB => 2
  | .decodeC => 3
  | .dupclr => 4

/-- The word of a command: RSV = 0 above OP (R70). -/
def encode (i : Instr) : Reg := (0 : BitVec 29) ++ opOf i

/-- What the decoder reads from an instruction of `nbits` table bits `w` (bit 0 the least significant bit of the
one word; the bits above `nbits` are 0): every command is exactly one 32-bit word (R74). -/
def decodeTableWord (nbits w : Nat) : Option Instr :=
  if nbits ≤ 32 ∧ w < 2 ^ nbits then (decode (BitVec.ofNat 32 w)).toOption else none

end Sys2Proof
end

