-- ==== Sys2Proof/Machine/State.lean ====
section
/-! DEFINITION. The state of the CORE (spec 10_state.md), the reasons a step can stop (00_scope.md R13), and the state after reset (R45). -/

namespace Sys2Proof.Machine

/-- Why the machine stops with a fault: a MODEL fault of 00_scope.md R13, never a failure of the chip. -/
inductive Fault
  /-- Raised by a CORE read of capture slot `i` that the host has not written since reset (10_state.md R23).
  Safe: the spec has no value to give there. -/
  | unwrittenCapture (i : Nat)
  /-- Raised by a CORE read of index `i` at or above CAP_DEPTH, which does not exist (20_memory.md R50).
  Safe: R51 says the CORE never makes such a read (DESIGN CHOICE: assumption log 11). -/
  | outsideCapture (i : Nat)
  deriving DecidableEq, Repr

/-- Why the machine gives no meaning (00_scope.md R13). -/
inductive Refusal
  /-- An instruction the model has no meaning for yet; no arm of exec answers it. Safe. -/
  | notModelled (mnemonic : String)
  /-- Raised by every command and every step under an ill-formed configuration (00_scope.md R10). Safe. -/
  | illFormedConfig
  /-- Raised by a host access that is not 32 bits wide or not aligned to 4 (20_memory.md R55). Safe. -/
  | accessNotAdmitted (bits offset : Nat)
  deriving DecidableEq, Repr

/-- What a step answers. -/
abbrev Answer (σ : Type) := Host.Outcome σ Fault Refusal

/-- The error taxonomy (60_exceptions.md R231, codes 1 to 7; code 0 is "no error"). -/
inductive ErrorCode
  | lengthMismatch
  | timingOutOfTolerance
  | ambiguousOrShortFrame
  | checksumMismatch
  | rangeViolation
  | zeroFrameArtifact
  | illegalCommand
  deriving DecidableEq, Repr

/-- STATUS.RESULT (R32). -/
inductive Result
  | none
  | accepted
  | suppressed
  | rejected
  deriving DecidableEq, Repr

/-- The three protocols (00_scope.md R3). -/
inductive Protocol
  | a
  | b
  | c
  deriving DecidableEq, Repr

/-- The two protocols with the fixed two-slot encoding (30_encoding.md R75). -/
inductive TwoSlot
  | a
  | b
  deriving DecidableEq, Repr

/-- The capture memory CAP_MEM with its ghost bits `written` (R21, R23): slot `i` is written exactly when a pair
`(i, v)` is listed, and then holds `v`. Indices rise strictly (`Memory.wf`); an unlisted slot has no value
(DESIGN CHOICE, safe: assumption log 8). -/
abbrev Memory := List (Nat × Dur)

/-- The working state of a DECODE command (R26 to R28): CURSOR, SR, BITCNT and FB[0..4]. -/
structure Work where
  cursor : BitVec 16
  sr     : Frame
  bitcnt : BitVec 6
  fb     : Vector Byte 5
  deriving DecidableEq, Repr

/-- The working state with every register 0 (R43, R45). -/
def Work.clear : Work := { cursor := 0, sr := 0, bitcnt := 0, fb := Vector.replicate 5 0 }

/-- The DuplicateState (R29): DUP_VALID, DUP_SIG, DUP_HASH and DUP_TIME. -/
structure Dup where
  valid : Bool
  sig   : Sig
  hash  : BitVec 32
  time  : BitVec 32
  deriving DecidableEq, Repr

/-- The DuplicateState that holds no reading: the value after reset and after DUPCLR (R30, R45). -/
def Dup.empty : Dup := { valid := false, sig := 0, hash := 0, time := 0 }

/-- The result registers RD_* of the last accepted reading (R36 to R40). -/
structure ReadRegs where
  protoId : Reg
  temp    : Reg
  hum     : Reg
  misc    : Reg
  frameLo : Reg
  frameHi : Reg
  deriving DecidableEq, Repr

/-- Every RD_* register 0 (R45). -/
def ReadRegs.zero : ReadRegs := { protoId := 0, temp := 0, hum := 0, misc := 0, frameLo := 0, frameHi := 0 }

/-- The machine: everything 10_state.md R20 lists, the configuration it was built with, and the host's side of
the bus. `cfg`, `pending`, `busData` and `epoch` are the model's own fields (DESIGN CHOICE: assumption log 1,
4, 7 and 10); the rest is the spec's. -/
structure State where
  /-- The parameters of this build (00_scope.md R9): no step changes them. -/
  cfg     : Config
  /-- CAP_MEM and its ghost bits (R21, R23). -/
  capMem  : Memory
  /-- CAP_LEN (R22). -/
  capLen  : BitVec 16
  /-- NOW (R24). -/
  now     : BitVec 32
  /-- CAP_HASH (R25). -/
  capHash : BitVec 32
  /-- CURSOR, SR, BITCNT, FB (R26 to R28). -/
  work    : Work
  /-- DUP_VALID, DUP_SIG, DUP_HASH, DUP_TIME (R29). -/
  dup     : Dup
  /-- STATUS (R31). -/
  status  : Reg
  /-- RD_PROTO_ID, RD_TEMP, RD_HUM, RD_MISC, RD_FRAME_LO, RD_FRAME_HI (R36 to R40). -/
  rd      : ReadRegs
  /-- What the host will do next, oldest first: the one total order of 20_memory.md R59. -/
  pending : List HostEvent
  /-- The data the bus answered to the last host event, if that was a read. -/
  busData : Option Reg
  /-- How many resets have taken place: which unspecified contents unwritten slots hold. -/
  epoch   : Nat
  deriving DecidableEq, Repr

/-- The state after reset of a CORE built with configuration `c` (R45; of the model's own fields, assumption log 10). -/
def State.resetOf (c : Config) : State where
  cfg     := c
  capMem  := []
  capLen  := 0
  now     := 0
  capHash := 0
  work    := Work.clear
  dup     := Dup.empty
  status  := 0
  rd      := ReadRegs.zero
  pending := []
  busData := none
  epoch   := 0

/-- The state right after power-on reset of this hardware (R45, R260, R261). -/
def State.reset : State := State.resetOf Config.built.cfg

/-! ## Named updates, one per field -/

/-- Writes CAP_MEM. -/
def State.setCapMem (s : State) (v : Memory) : State := { s with capMem := v }
/-- Writes CAP_LEN. -/
def State.setCapLen (s : State) (v : BitVec 16) : State := { s with capLen := v }
/-- Writes NOW. -/
def State.setNow (s : State) (v : BitVec 32) : State := { s with now := v }
/-- Writes CAP_HASH. -/
def State.setCapHash (s : State) (v : BitVec 32) : State := { s with capHash := v }
/-- Writes the working state. -/
def State.setWork (s : State) (v : Work) : State := { s with work := v }
/-- Writes the DuplicateState. -/
def State.setDup (s : State) (v : Dup) : State := { s with dup := v }
/-- Writes STATUS. -/
def State.setStatus (s : State) (v : Reg) : State := { s with status := v }
/-- Writes the RD_* registers. -/
def State.setRd (s : State) (v : ReadRegs) : State := { s with rd := v }
/-- Replaces the host's pending events. -/
def State.setPending (s : State) (v : List HostEvent) : State := { s with pending := v }
/-- Replaces the bus answer. -/
def State.setBusData (s : State) (v : Option Reg) : State := { s with busData := v }
/-- Replaces the reset count. -/
def State.setEpoch (s : State) (v : Nat) : State := { s with epoch := v }

end Sys2Proof.Machine
end

