-- ==== Sys2Proof/Machine/Flags.lean ====
section
/-! DEFINITION. The STATUS register: its fields, their codes, and every way a command writes them (spec 10_state.md R31 to R35, 60_exceptions.md R231). -/

namespace Sys2Proof.Machine

/-- The register `w` with its `n` bits from bit `lo` up replaced by `v`. -/
def setField (lo n : Nat) (v : BitVec n) (w : Reg) : Reg :=
  (w &&& ~~~((BitVec.allOnes n).setWidth 32 <<< lo)) ||| (v.setWidth 32 <<< lo)

/-- One bit as a bit vector. -/
def bit (b : Bool) : BitVec 1 := BitVec.ofBool b

/-- STATUS.RESULT's value for a result (R32). -/
def resultCode (r : Result) : BitVec 2 :=
  match r with
  | .none => 0
  | .accepted => 1
  | .suppressed => 2
  | .rejected => 3

/-- STATUS.ERR's value for an error (R231). -/
def errorCode (e : ErrorCode) : BitVec 3 :=
  match e with
  | .lengthMismatch => 1
  | .timingOutOfTolerance => 2
  | .ambiguousOrShortFrame => 3
  | .checksumMismatch => 4
  | .rangeViolation => 5
  | .zeroFrameArtifact => 6
  | .illegalCommand => 7

/-! ## Reading STATUS (R31's table) -/

/-- STATUS.DONE. -/
def statusDone (w : Reg) : Bool := w.getLsbD 0
/-- STATUS.RESULT. -/
def statusResult (w : Reg) : BitVec 2 := w.extractLsb' 1 2
/-- STATUS.ERR. -/
def statusErr (w : Reg) : BitVec 3 := w.extractLsb' 3 3
/-- STATUS.REQ_IGNORE_REPEATS. -/
def statusReqIgnoreRepeats (w : Reg) : Bool := w.getLsbD 6
/-- STATUS.REQ_RESET_COUNT. -/
def statusReqResetCount (w : Reg) : Bool := w.getLsbD 7
/-- STATUS.BITCNT. -/
def statusBitcnt (w : Reg) : BitVec 6 := w.extractLsb' 8 6
/-- STATUS bits 31:14, reserved. -/
def statusReserved (w : Reg) : BitVec 18 := w.extractLsb' 14 18

/-! ## Writing STATUS -/

/-- STATUS.DONE ← 1. -/
def setDone (w : Reg) : Reg := setField 0 1 1 w
/-- STATUS.RESULT ← r. -/
def setResult (r : Result) (w : Reg) : Reg := setField 1 2 (resultCode r) w
/-- STATUS.ERR ← code(e). -/
def setErr (e : ErrorCode) (w : Reg) : Reg := setField 3 3 (errorCode e) w
/-- STATUS.REQ_IGNORE_REPEATS ← 1. -/
def setReqIgnoreRepeats (w : Reg) : Reg := setField 6 1 1 w
/-- STATUS.REQ_RESET_COUNT ← 1. -/
def setReqResetCount (w : Reg) : Reg := setField 7 1 1 w
/-- STATUS.BITCNT ← n. -/
def setBitcnt (n : BitVec 6) (w : Reg) : Reg := setField 8 6 n w

end Sys2Proof.Machine
end

