-- ==== Sys2Proof/Machine/Ops.lean ====
section
/-! DEFINITION. The operations every command shares: reading and writing the capture memory (spec 20_memory.md R50), the prologue and epilogue (45_commands.md R216), the abort, which is the CORE's one exception entry (60_exceptions.md R230), and the result of a pipeline stage. There is no return from an abort (R237). -/

namespace Sys2Proof.Machine

/-! ## The capture memory -/

/-- The indices of `m` rise strictly and all lie above `lo`. -/
def risesFrom (lo : Nat) (m : Memory) : Bool :=
  match m with
  | [] => true
  | (i, _) :: rest => decide (lo ≤ i) && risesFrom (i + 1) rest

/-- The canonical form: indices strictly rising. An unlisted slot has no value, so no entry can equal one. -/
def Memory.wf (m : Memory) : Bool := risesFrom 0 m

/-- The value of slot `i`, if it has been written since reset. -/
def capRead (m : Memory) (i : Nat) : Option Dur :=
  match m with
  | [] => none
  | (j, v) :: rest => if i = j then some v else capRead rest i

/-- The ghost bit written[i] (R23). -/
def capWritten (m : Memory) (i : Nat) : Bool := (capRead m i).isSome

/-- Stores `v` in slot `i`, keeping the canonical form. -/
def capWrite (m : Memory) (i : Nat) (v : Dur) : Memory :=
  match m with
  | [] => [(i, v)]
  | (j, u) :: rest =>
    if i < j then (i, v) :: (j, u) :: rest
    else if i = j then (i, v) :: rest
    else (j, u) :: capWrite rest i v

/-- `MemRead(i, 1)`, the CORE's read of one slot (R50): an unwritten slot is a model fault (R23). -/
def memRead (c : Config) (m : Memory) (i : Nat) : Except Fault Dur :=
  if i < c.capDepth then
    match capRead m i with
    | some v => .ok v
    | none => .error (.unwrittenCapture i)
  else .error (.outsideCapture i)

/-! ## Stages of a pipeline -/

/-- How a stage of a DECODE ends: it passes a value on, it raises an error with the working state as it stands
(`raise E`, 00_scope.md R12), or the model faults. -/
inductive Stage (α : Type)
  | pass (a : α)
  | raise (e : ErrorCode) (w : Work)
  | fault (f : Fault)
  deriving DecidableEq, Repr

/-- The next stage runs only if this one passes: the first failure short-circuits the rest (R230). -/
def Stage.andThen {α β : Type} (x : Stage α) (f : α → Stage β) : Stage β :=
  match x with
  | .pass a => f a
  | .raise e w => .raise e w
  | .fault g => .fault g

/-- A check that touches no working state, as a stage of a pipeline that stands at `w`. -/
def Stage.check {α : Type} (w : Work) (x : Except ErrorCode α) : Stage α :=
  match x with
  | .ok a => .pass a
  | .error e => .raise e w

/-! ## Prologue, epilogue, abort -/

/-- The prologue of every command: STATUS ← 0 (R216). -/
def prologue (s : State) : State := s.setStatus 0

/-- The epilogue of every command: STATUS.BITCNT ← n, then STATUS.DONE ← 1 (R216). -/
def epilogue (n : BitVec 6) (s : State) : State := s.setStatus (setDone (setBitcnt n s.status))

/-- The abort `raise E` (R230): RESULT ← REJECTED, ERR ← code(E), then the epilogue with `n` in BITCNT. -/
def abort (e : ErrorCode) (n : BitVec 6) (s : State) : State :=
  epilogue n (s.setStatus (setErr e (setResult .rejected s.status)))

/-- A DECODE command begins by clearing the working state (10_state.md R43). -/
def clearWork (s : State) : State := s.setWork Work.clear

/-- Every command: refused under an ill-formed configuration (00_scope.md R10), else the prologue and then `body`. `exec`
enters here directly, as a CMD write does (DESIGN CHOICE, safe: assumption log 18). -/
def command (s : State) (body : State → Answer State) : Answer State :=
  if s.cfg.wf then body (prologue s) else .refused .illFormedConfig

end Sys2Proof.Machine
end

