-- ==== Sys2Proof/Machine/Bus.lean ====
section
/-! DEFINITION. The host register space (spec 20_memory.md R52 to R57, R65): which register an offset names (base 0, any natural number: assumption log 16), what a read answers, what a write stores, and reset (70_reset_and_hazards.md R260). A write to CMD runs a command: HostAccess.lean. -/

namespace Sys2Proof.Machine

/-- The registers of R52's map. -/
inductive HostReg
  | cmd
  | status
  | capLen
  | now
  | capHash
  | rdProtoId
  | rdTemp
  | rdHum
  | rdMisc
  | rdFrameLo
  | rdFrameHi
  | duprSigLo
  | duprSigHi
  | duprHash
  | duprTime
  | capSlot (i : Nat)
  | reserved
  deriving DecidableEq, Repr

/-- The base of the capture window (R52, R65). -/
def capBase : Nat := 0x10000

/-- The register at an aligned byte offset (R52); an offset that names none is reserved (R55). -/
def regAt (c : Config) (offset : Nat) : HostReg :=
  if offset = 0x000 then .cmd
  else if offset = 0x004 then .status
  else if offset = 0x008 then .capLen
  else if offset = 0x00C then .now
  else if offset = 0x010 then .capHash
  else if offset = 0x014 then .rdProtoId
  else if offset = 0x018 then .rdTemp
  else if offset = 0x01C then .rdHum
  else if offset = 0x020 then .rdMisc
  else if offset = 0x024 then .rdFrameLo
  else if offset = 0x028 then .rdFrameHi
  else if offset = 0x02C then .duprSigLo
  else if offset = 0x030 then .duprSigHi
  else if offset = 0x034 then .duprHash
  else if offset = 0x038 then .duprTime
  else if capBase ≤ offset ∧ (offset - capBase) / 4 < c.capDepth then .capSlot ((offset - capBase) / 4)
  else .reserved

/-- What the host reads from slot `i` (R52): the stored duration, or an unspecified one if the slot has not been
written since reset (10_state.md R45; a free value: assumption log 7). -/
def hostSlot (s : State) (i : Nat) : Dur :=
  match capRead s.capMem i with
  | some v => v
  | none => Config.unwrittenSlot s.epoch i

/-- What a read of a register answers (R52, R55): bits above a register's width read 0, as do CMD and reserved offsets. -/
def loadReg (s : State) (r : HostReg) : Reg :=
  match r with
  | .cmd => 0
  | .status => s.status
  | .capLen => s.capLen.setWidth 32
  | .now => s.now
  | .capHash => s.capHash
  | .rdProtoId => s.rd.protoId
  | .rdTemp => s.rd.temp
  | .rdHum => s.rd.hum
  | .rdMisc => s.rd.misc
  | .rdFrameLo => s.rd.frameLo
  | .rdFrameHi => s.rd.frameHi
  | .duprSigLo => s.dup.sig.extractLsb' 0 32
  | .duprSigHi => bit s.dup.valid ++ (0 : BitVec 21) ++ s.dup.sig.extractLsb' 32 10
  | .duprHash => s.dup.hash
  | .duprTime => s.dup.time
  | .capSlot i => (hostSlot s i).setWidth 32
  | .reserved => 0

/-- What a write stores, CMD apart (R52, R55): only CAP_LEN, NOW, CAP_HASH and the capture slots can be written; the
bits above a register's width are dropped. CMD keeps no value (10_state.md R42). -/
def storeReg (r : HostReg) (v : Reg) (s : State) : State :=
  match r with
  | .capLen => s.setCapLen (v.setWidth 16)
  | .now => s.setNow v
  | .capHash => s.setCapHash v
  | .capSlot i => s.setCapMem (capWrite s.capMem i (v.setWidth 16))
  | .cmd => s
  | .status => s
  | .rdProtoId => s
  | .rdTemp => s
  | .rdHum => s
  | .rdMisc => s
  | .rdFrameLo => s
  | .rdFrameHi => s
  | .duprSigLo => s
  | .duprSigHi => s
  | .duprHash => s
  | .duprTime => s
  | .reserved => s

/-- Reset as an event of a running machine (R260): every field at its reset value, the configuration kept (R261).
The host's pending events are the host's, and the reset count moves on (DESIGN CHOICE, safe: assumption log 6). -/
def resetCore (s : State) : State :=
  ((State.resetOf s.cfg).setPending s.pending).setEpoch (s.epoch + 1)

/-- Takes the oldest pending event off the host's list; no read has answered it yet. -/
def popEvent (rest : List HostEvent) (s : State) : State := (s.setPending rest).setBusData none

end Sys2Proof.Machine
end

