-- ==== Sys2Proof/Machine/Operands.lean ====
section
/-! DEFINITION. The operands a command finds for itself (spec 30_encoding.md R73): which slots hold a bit of the capture (R75 to R78), and the bits and fields of the assembled frame (00_scope.md R11, 41_assembler.md R121). -/

namespace Sys2Proof.Machine

/-- The window table of a two-slot protocol (40_classifier.md R100). -/
def windowsOf (c : Config) (p : TwoSlot) : FixedWindows :=
  match p with
  | .a => c.aWindows
  | .b => c.bWindows

/-- The first slot DECODE.A classifies: the unused transmitted bit, if it is the first one, is skipped (R76, R123). -/
def firstUsedA (c : Config) : Nat := c.aFirstSlot + 2 * c.aUsedOffset

/-- The index one past the last slot a Protocol C bit may use: the stop marker lies above it (R78, R124). -/
def dataEndC (c : Config) (capLen : BitVec 16) : Nat := capLen.toNat - c.cStopSlots

/-- Frame bit b[k] of the bits assembled so far: b[k] = SR[BITCNT − 1 − k] (R121); no bit at or above BITCNT. -/
def frameBit (w : Work) (k : Nat) : Bool :=
  decide (k < w.bitcnt.toNat) && w.sr.getLsbD (w.bitcnt.toNat - 1 - k)

/-- `field(k, n)`: the bits b[k] … b[k+n−1] read MSB-first (R11). -/
def field (w : Work) (k n : Nat) : BitVec n :=
  match n with
  | 0 => 0#0
  | n + 1 => (field w k n).concat (frameBit w (k + n))

/-- The byte cell FB[j] (10_state.md R28). -/
def cell (w : Work) (j : Fin 5) : Byte := w.fb[j]

end Sys2Proof.Machine
end

