-- ==== Sys2Proof/Machine/Classifier.lean ====
section
/-! DEFINITION. The Pulse Classifier (spec 40_classifier.md): CLASSIFY2 and CLASSIFYC. -/

namespace Sys2Proof.Machine

/-- The outcome of classifying one bit (R108). -/
inductive BitOutcome
  | zero
  | one
  | reject
  deriving DecidableEq, Repr

/-- What a classifier returns: the outcome, and how many input slots the bit used (R108). -/
structure Classified where
  outcome  : BitOutcome
  consumed : Nat
  deriving DecidableEq, Repr

/-- (REJECT, 0). -/
def rejected : Classified := { outcome := .reject, consumed := 0 }

/-- The judgement of a space against a two-slot protocol's windows (R100, R101). -/
def judgeSpace (win : FixedWindows) (sp : Dur) : Classified :=
  if win.oneTh < sp.toNat then { outcome := .one, consumed := 2 }
  else if win.zeroLo ≤ sp.toNat ∧ sp.toNat ≤ win.zeroHi then { outcome := .zero, consumed := 2 }
  else rejected

/-- CLASSIFY2(p, s): the mark/space pair at slot `s` (R100). The space is not read after a bad mark. -/
def classify2 (c : Config) (m : Memory) (p : TwoSlot) (s : Nat) : Except Fault Classified :=
  match memRead c m s with
  | .error f => .error f
  | .ok mark =>
    if (windowsOf c p).markCeil ≤ mark.toNat then .ok rejected
    else
      match memRead c m (s + 1) with
      | .error f => .error f
      | .ok sp => .ok (judgeSpace (windowsOf c p) sp)

/-- The exact sum of the four slots from `i` on (R104, R106). -/
def sumFour (c : Config) (m : Memory) (i : Nat) : Except Fault Nat :=
  match memRead c m i with
  | .error f => .error f
  | .ok d0 =>
    match memRead c m (i + 1) with
    | .error f => .error f
    | .ok d1 =>
      match memRead c m (i + 2) with
      | .error f => .error f
      | .ok d2 =>
        match memRead c m (i + 3) with
        | .error f => .error f
        | .ok d3 => .ok (d0.toNat + d1.toNat + d2.toNat + d3.toNat)

/-- The judgement of the aggregate of a six-slot bit (R104). -/
def judgeAggregate (win : CompositeWindows) (agg : Nat) : Classified :=
  if win.oneLo ≤ agg ∧ agg ≤ win.oneHi then { outcome := .one, consumed := 6 } else rejected

/-- CLASSIFYC(i, stop): the Protocol C bit whose mark is at slot `i` (R104). The zero form is tested first (R105)
and the mark is never read (R107). -/
def classifyC (c : Config) (m : Memory) (i stop : Nat) : Except Fault Classified :=
  match memRead c m (i + 1) with
  | .error f => .error f
  | .ok sp =>
    if c.cWindows.zeroLo ≤ sp.toNat ∧ sp.toNat ≤ c.cWindows.zeroHi then .ok { outcome := .zero, consumed := 2 }
    else if stop < i + 6 then .ok rejected
    else
      match sumFour c m (i + c.cAggOffset) with
      | .error f => .error f
      | .ok agg => .ok (judgeAggregate c.cWindows agg)

end Sys2Proof.Machine
end

