-- ==== Sys2Proof/Machine/Assembler.lean ====
section
/-! DEFINITION. The Bitstream Assembler (spec 41_assembler.md): ASM_SHIFT, ASM_FLUSH, ASSEMBLE_FIXED and ASSEMBLE_VAR. -/

namespace Sys2Proof.Machine

/-- Shifts one bit into SR and counts it; every eighth bit fills a cell of FB (R120). -/
def shiftBit (b : Bool) (w : Work) : Work :=
  let sr := (w.sr <<< 1) ||| (if b then 1 else 0)
  let n := w.bitcnt + 1
  { w with
    sr := sr
    bitcnt := n
    fb := if n.toNat % 8 = 0 then w.fb.setIfInBounds (n.toNat / 8 - 1) (sr.setWidth 8) else w.fb }

/-- ASM_SHIFT(o): the bit is 1 for ONE, else 0 (R120). -/
def asmShift (o : BitOutcome) (w : Work) : Work := shiftBit (decide (o = .one)) w

/-- ASM_FLUSH: a partial last cell holds its bits right-aligned (R122). -/
def asmFlush (w : Work) : Work :=
  let r := w.bitcnt.toNat % 8
  if r = 0 then w
  else { w with fb := w.fb.setIfInBounds (w.bitcnt.toNat / 8) ((w.sr.extractLsb' 0 r).setWidth 8) }

/-- CURSOR ← i. CURSOR has 16 bits and never wraps (10_state.md R26; DEDUCED, safe: assumption log 13). -/
def setCursor (i : Nat) (w : Work) : Work := { w with cursor := BitVec.ofNat 16 i }

/-- CURSOR ← CURSOR + n. -/
def advance (n : Nat) (w : Work) : Work := { w with cursor := w.cursor + BitVec.ofNat 16 n }

/-- What both assemblers do with a classified bit: a reject raises TimingOutOfTolerance with the working state as
it stands, any other outcome is shifted in and CURSOR moves on (R123, R124, R128). -/
def takeBit (w : Work) (x : Except Fault Classified) : Stage Work :=
  match x with
  | .error f => .fault f
  | .ok k =>
    match k.outcome with
    | .reject => .raise .timingOutOfTolerance w
    | .zero => .pass (advance k.consumed (asmShift .zero w))
    | .one => .pass (advance k.consumed (asmShift .one w))

/-- The loop of ASSEMBLE_FIXED: `n` more bits from CURSOR on (R123). -/
def fixedLoop (c : Config) (m : Memory) (p : TwoSlot) (n : Nat) (w : Work) : Stage Work :=
  match n with
  | 0 => .pass w
  | n + 1 => (takeBit w (classify2 c m p w.cursor.toNat)).andThen (fixedLoop c m p n)

/-- ASSEMBLE_FIXED(p, n, first) (R123). -/
def assembleFixed (c : Config) (m : Memory) (p : TwoSlot) (n first : Nat) (w : Work) : Stage Work :=
  (fixedLoop c m p n (setCursor first w)).andThen fun w => .pass (asmFlush w)

/-- The loop guard of ASSEMBLE_VAR: room for a bit in the buffer, and two slots left before `stop` (R124). -/
def moreBits (stop : Nat) (w : Work) : Bool :=
  decide (w.bitcnt.toNat < Param.cBitCap) && decide (w.cursor.toNat + 2 ≤ stop)

/-- The loop of ASSEMBLE_VAR (R124). Each pass counts a bit, so C_BIT_CAP passes are enough: when the fuel runs
out, the guard is false. -/
def varLoop (c : Config) (m : Memory) (stop fuel : Nat) (w : Work) : Stage Work :=
  match fuel with
  | 0 => .pass w
  | fuel + 1 =>
    if moreBits stop w then
      (takeBit w (classifyC c m w.cursor.toNat stop)).andThen (varLoop c m stop fuel)
    else .pass w

/-- The realized count of a Protocol C frame is exactly C_BITS, or the decode fails (R124, R126). -/
def countCheck (w : Work) : Stage Work :=
  if w.bitcnt.toNat = Param.cBits then .pass w else .raise .ambiguousOrShortFrame w

/-- ASSEMBLE_VAR (R124). -/
def assembleVar (c : Config) (m : Memory) (capLen : BitVec 16) (w : Work) : Stage Work :=
  (varLoop c m (dataEndC c capLen) Param.cBitCap (setCursor c.cFirstSlot w)).andThen fun w =>
    countCheck (asmFlush w)

end Sys2Proof.Machine
end

