-- ==== Sys2Proof/Machine/Validator.lean ====
section
/-! DEFINITION. The Frame Validator (spec 42_validator.md): LENGTH_CHECK, CHECKSUM_C, ZERO_CHECK, RANGE_TEMP and RANGE_HUM. -/

namespace Sys2Proof.Machine

/-- A check: raises `e` unless `ok` holds. -/
def require (ok : Bool) (e : ErrorCode) : Except ErrorCode Unit := if ok then .ok () else .error e

/-- LENGTH_CHECK(p) (R140): its pseudocode, and its corner case that CAP_LEN = 0 fails for every protocol, which
70_reset_and_hazards.md R263 repeats. For A and B a well-formed configuration gives that; for C it is tested, because
R10 admits C_LEN_MIN = 0 (DEDUCED: assumption log 15). -/
def lengthCheck (c : Config) (p : Protocol) (capLen : BitVec 16) : Except ErrorCode Unit :=
  match p with
  | .a => require (decide (capLen.toNat = c.aLen)) .lengthMismatch
  | .b => require (decide (capLen.toNat = c.bLen)) .lengthMismatch
  | .c =>
    require (decide (0 < capLen.toNat ∧ c.cLenMin ≤ capLen.toNat ∧ capLen.toNat ≤ c.cLenMax))
      .lengthMismatch

/-- The XOR of the two nibbles of a byte (R142). -/
def foldNibbles (x : Byte) : Byte := (x >>> 4) ^^^ (x &&& 0x0F)

/-- CHECKSUM_C: the folded XOR of the first three cells equals the fourth (R142). -/
def checksumC (w : Work) : Except ErrorCode Unit :=
  require (decide (foldNibbles (cell w 0 ^^^ cell w 1 ^^^ cell w 2) = cell w 3)) .checksumMismatch

/-- ZERO_CHECK(p) (R145): the main frame of A, the humidity byte of B, the frame of C. -/
def zeroCheck (p : Protocol) (w : Work) : Except ErrorCode Unit :=
  match p with
  | .a => require (decide (field w 0 28 ≠ 0)) .zeroFrameArtifact
  | .b => require (decide (field w Param.bHumPos 8 ≠ 0)) .zeroFrameArtifact
  | .c => require (decide (field w 0 28 ≠ 0)) .zeroFrameArtifact

/-- p_TEMP_MAX (R146). -/
def tempMax (c : Config) (p : Protocol) : Nat :=
  match p with
  | .a => Param.aTempMax
  | .b => c.bTempMax
  | .c => c.cTempMax

/-- RANGE_TEMP(p, mag) (R146). -/
def rangeTemp (c : Config) (p : Protocol) (mag : Nat) : Except ErrorCode Unit :=
  require (decide (mag ≤ tempMax c p)) .rangeViolation

/-- The humidity ceiling of a protocol that reports one (R147). -/
def humMax (p : TwoSlot) : Nat :=
  match p with
  | .a => Param.aHumMax
  | .b => Param.bHumMaxBcd

/-- RANGE_HUM(p, h) (R147). -/
def rangeHum (p : TwoSlot) (h : Byte) : Except ErrorCode Unit :=
  require (decide (h.toNat ≤ humMax p)) .rangeViolation

end Sys2Proof.Machine
end

