-- ==== Sys2Proof/Machine/FieldDecoder.lean ====
section
/-! DEFINITION. The Field Decoder (spec 43_field_decoder.md): the reading record, SIGN12, RESCALE_B, the BCD expansion, FIELD_A, FIELD_B and FIELD_C. Field positions are those of 30_encoding.md R83 to R85. -/

namespace Sys2Proof.Machine

/-- The reading record (R160). -/
structure Reading where
  proto     : Protocol
  id        : BitVec 16
  channel   : BitVec 3
  chanValid : Bool
  tempNeg   : Bool
  tempMag   : BitVec 15
  hum       : Byte
  humValid  : Bool
  humBcd    : Bool
  battLow   : Bool
  battValid : Bool
  csumOk    : Bool
  frame     : Frame
  nbits     : BitVec 6
  deriving DecidableEq, Repr

/-- PROTO's code (R160). -/
def protoCode (p : Protocol) : BitVec 2 :=
  match p with
  | .a => 1
  | .b => 2
  | .c => 3

/-- A temperature as the decoder carries it: the sign flag and the magnitude in tenths (R168). -/
structure Temp where
  neg : Bool
  mag : Nat
  deriving DecidableEq, Repr

/-- The two's-complement recovery of SIGN12, before its range check (R166). -/
def sign12 (traw : BitVec 12) : Temp :=
  if traw.getLsbD 11 then { neg := true, mag := Param.aSignModulus - traw.toNat } else { neg := false, mag := traw.toNat }

/-- f10 of RESCALE_B: tenths of the Fahrenheit-like unit (R170). -/
def fahrenheitTenths (tcode : BitVec 12) : Int := (tcode.toNat : Int) - Param.bBias

/-- What RESCALE_B divides: d · B_RESCALE_NUM (R170). -/
def rescaleDividend (tcode : BitVec 12) : Int := (fahrenheitTenths tcode - Param.bFOffset) * Param.bRescaleNum

/-- c10 of RESCALE_B: tenths of a degree Celsius, multiplied first, then divided truncating toward zero (R170, R171;
PRESUMED by the spec itself, unsafe: assumption log 14). -/
def celsiusTenths (tcode : BitVec 12) : Int := (rescaleDividend tcode).tdiv Param.bRescaleDen

/-- The conversion of RESCALE_B, before its range check (R170). -/
def rescaleB (tcode : BitVec 12) : Temp :=
  let c10 := celsiusTenths tcode
  if c10 < 0 then { neg := true, mag := (-c10).toNat } else { neg := false, mag := c10.toNat }

/-- The BCD expansion of three digit nibbles, without a digit check (R175). -/
def bcd3 (h t u : BitVec 4) : Nat := 100 * h.toNat + 10 * t.toNat + u.toNat

/-- RANGE_TEMP, passing the temperature on (R146). -/
def inRange (c : Config) (p : Protocol) (t : Temp) : Except ErrorCode Temp :=
  match rangeTemp c p t.mag with
  | .ok _ => .ok t
  | .error e => .error e

/-- The record FIELD_A builds from its fields (R161 to R167). -/
def recordA (w : Work) (t : Temp) : Reading where
  proto     := .a
  id        := (field w 0 12).setWidth 16
  channel   := (field w 14 2).setWidth 3 + 1
  chanValid := true
  tempNeg   := t.neg
  tempMag   := BitVec.ofNat 15 t.mag
  hum       := field w 28 8
  humValid  := true
  humBcd    := false
  battLow   := !frameBit w 12
  battValid := true
  csumOk    := false
  frame     := (field w 0 36).setWidth 40
  nbits     := 36

/-- FIELD_A (R161): SIGN12's range check, then RANGE_HUM. -/
def fieldA (c : Config) (w : Work) : Except ErrorCode Reading :=
  match inRange c .a (sign12 (field w 16 12)) with
  | .error e => .error e
  | .ok t =>
    match rangeHum .a (field w 28 8) with
    | .error e => .error e
    | .ok _ => .ok (recordA w t)

/-- The record FIELD_B builds from its fields (R169, R172, R173). -/
def recordB (w : Work) (t : Temp) : Reading where
  proto     := .b
  id        := (field w 0 8).setWidth 16
  channel   := 0
  chanValid := false
  tempNeg   := t.neg
  tempMag   := BitVec.ofNat 15 t.mag
  hum       := field w Param.bHumPos 8
  humValid  := true
  humBcd    := true
  battLow   := false
  battValid := false
  csumOk    := false
  frame     := field w 0 40
  nbits     := 40

/-- FIELD_B (R169): RESCALE_B's range check, then RANGE_HUM. -/
def fieldB (c : Config) (w : Work) : Except ErrorCode Reading :=
  match inRange c .b (rescaleB (field w Param.bTempPos Param.bTempW)) with
  | .error e => .error e
  | .ok t =>
    match rangeHum .b (field w Param.bHumPos 8) with
    | .error e => .error e
    | .ok _ => .ok (recordB w t)

/-- The record FIELD_C builds from its fields (R174 to R177). -/
def recordC (w : Work) (t : Temp) : Reading where
  proto     := .c
  id        := (field w 0 8).setWidth 16
  channel   := 0
  chanValid := false
  tempNeg   := t.neg
  tempMag   := BitVec.ofNat 15 t.mag
  hum       := 0
  humValid  := false
  humBcd    := false
  battLow   := false
  battValid := false
  csumOk    := true
  frame     := (field w 0 28).setWidth 40
  nbits     := 28

/-- The sign and magnitude of a Protocol C frame (R174): negative zero is kept (R176). -/
def tempC (w : Work) : Temp :=
  { neg := frameBit w Param.cSignPos, mag := bcd3 (field w 12 4) (field w 16 4) (field w 20 4) }

/-- FIELD_C (R174). -/
def fieldC (c : Config) (w : Work) : Except ErrorCode Reading :=
  match inRange c .c (tempC w) with
  | .error e => .error e
  | .ok t => .ok (recordC w t)

/-- TEMP_WORD, the reporting form of a temperature (R168). -/
def tempWord (r : Reading) : BitVec 16 :=
  ((bit r.tempNeg).setWidth 16 <<< Param.signMarkBit) ||| r.tempMag.setWidth 16

end Sys2Proof.Machine
end

