-- ==== Sys2Proof/Machine/Dedup.lean ====
section
/-! DEFINITION. The Duplicate Suppressor (spec 44_dedup.md): SIGNATURE, DUP_CHECK, ACCEPT and SUPPRESS. -/

namespace Sys2Proof.Machine

/-- SIGNATURE(record) by the build's SIG_FN (R190). -/
def signature (c : Config) (r : Reading) : Sig :=
  match c.sigFn with
  | .standard => protoCode r.proto ++ r.frame
  | .other n => Config.otherSignature n (protoCode r.proto) r.frame r.nbits

/-- The time since the last acceptance, modulo 2^32 (R196). -/
def age (now time : BitVec 32) : BitVec 32 := now - time

/-- The test of DUP_CHECK: is the reading emitted (R192)? -/
def emits (d : Dup) (capHash now : BitVec 32) (sig : Sig) : Bool :=
  !d.valid || decide (capHash ≠ d.hash) || decide (Param.dupWindow < (age now d.time).toNat) || decide (sig ≠ d.sig)

/-- RD_PROTO_ID of a reading (10_state.md R36). -/
def packProtoId (r : Reading) : Reg := (0 : BitVec 14) ++ protoCode r.proto ++ r.id
/-- RD_TEMP of a reading (10_state.md R37). -/
def packTemp (r : Reading) : Reg := (0 : BitVec 16) ++ tempWord r
/-- RD_HUM of a reading (10_state.md R38). -/
def packHum (r : Reading) : Reg := (0 : BitVec 22) ++ bit r.humBcd ++ bit r.humValid ++ r.hum
/-- RD_MISC of a reading (10_state.md R39). -/
def packMisc (r : Reading) : Reg :=
  (0 : BitVec 25) ++ bit r.csumOk ++ bit r.battValid ++ bit r.battLow ++ bit r.chanValid ++ r.channel
/-- RD_FRAME_LO of a reading (10_state.md R40). -/
def packFrameLo (r : Reading) : Reg := r.frame.extractLsb' 0 32
/-- RD_FRAME_HI of a reading (10_state.md R40). -/
def packFrameHi (r : Reading) : Reg := (0 : BitVec 18) ++ r.nbits ++ r.frame.extractLsb' 32 8

/-- Every RD_* register of a reading (R193). -/
def packReading (r : Reading) : ReadRegs where
  protoId := packProtoId r
  temp    := packTemp r
  hum     := packHum r
  misc    := packMisc r
  frameLo := packFrameLo r
  frameHi := packFrameHi r

/-- The DuplicateState an acceptance leaves (R193). -/
def dupOf (sig : Sig) (capHash now : BitVec 32) : Dup := { valid := true, sig := sig, hash := capHash, time := now }

/-- ACCEPT(record, sig) (R193); `now` is the sample of NOW the command took at its start (60_exceptions.md R240). -/
def accept (now : BitVec 32) (r : Reading) (sig : Sig) (s : State) : State :=
  ((s.setDup (dupOf sig s.capHash now)).setRd (packReading r)).setStatus
    (setReqResetCount (setReqIgnoreRepeats (setResult .accepted s.status)))

/-- SUPPRESS (R194). -/
def suppress (s : State) : State := s.setStatus (setResult .suppressed s.status)

/-- DUP_CHECK(record) (R192). -/
def dupCheck (now : BitVec 32) (r : Reading) (s : State) : State :=
  if emits s.dup s.capHash now (signature s.cfg r) then accept now r (signature s.cfg r) s else suppress s

end Sys2Proof.Machine
end

