-- ==== Sys2Proof/Machine/Pipeline.lean ====
section
/-! DEFINITION. The pipeline of a DECODE command (spec 45_commands.md R211, R212, R214, R216): what the three of them share. -/

namespace Sys2Proof.Machine

/-- What a pipeline needs to read: the configuration, the capture and its length (30_encoding.md R73). -/
structure Capture where
  cfg    : Config
  mem    : Memory
  capLen : BitVec 16
  deriving DecidableEq, Repr

/-- The capture a state holds. -/
def State.capture (s : State) : Capture := { cfg := s.cfg, mem := s.capMem, capLen := s.capLen }

/-- What a pipeline yields when no check fails: the working state and the reading record. -/
structure Decoded where
  work    : Work
  reading : Reading
  deriving DecidableEq, Repr

/-- The tail of each pipeline: a field decoder run on the assembled frame. -/
def decodeFields (w : Work) (x : Except ErrorCode Reading) : Stage Decoded :=
  (Stage.check w x).andThen fun r => .pass { work := w, reading := r }

/-- How a DECODE ends, `s` being the state after the prologue with its working state cleared: the model's fault, the
abort of the first failed check (60_exceptions.md R230), or DUP_CHECK and the epilogue (R216). -/
def finishDecode (now : BitVec 32) (s : State) (x : Stage Decoded) : Answer State :=
  match x with
  | .fault f => .fault f
  | .raise e w => .next (abort e w.bitcnt (s.setWork w))
  | .pass d => .next (epilogue d.work.bitcnt (dupCheck now d.reading (s.setWork d.work)))

/-- A DECODE command with the pipeline `pipe` (R211, R212, R214). NOW is sampled once, at the start
(60_exceptions.md R240); the working state is cleared before the pipeline runs (10_state.md R43), and
what a command leaves in it stays there (R232; DESIGN CHOICE: assumption log 9). -/
def decodeCommand (pipe : Capture → Stage Decoded) (s : State) : Answer State :=
  command s fun s => finishDecode s.now (clearWork s) (pipe s.capture)

end Sys2Proof.Machine
end

