-- ==== Sys2Proof/Machine/ProtocolA.lean ====
section
/-! DEFINITION. The command DECODE.A (spec 45_commands.md R211). -/

namespace Sys2Proof.Machine

/-- The Protocol A pipeline (R211, 42_validator.md R148). -/
def pipelineA (x : Capture) : Stage Decoded :=
  (Stage.check Work.clear (lengthCheck x.cfg .a x.capLen)).andThen fun _ =>
  (assembleFixed x.cfg x.mem .a Param.aBits (firstUsedA x.cfg) Work.clear).andThen fun w =>
  (Stage.check w (zeroCheck .a w)).andThen fun _ =>
  decodeFields w (fieldA x.cfg w)

/-- DECODE.A (R211). -/
def execDecodeA (s : State) : Answer State := decodeCommand pipelineA s

end Sys2Proof.Machine
end

