-- ==== Sys2Proof/Machine/ProtocolB.lean ====
section
/-! DEFINITION. The command DECODE.B (spec 45_commands.md R212). -/

namespace Sys2Proof.Machine

/-- The Protocol B pipeline (R212, 42_validator.md R148). -/
def pipelineB (x : Capture) : Stage Decoded :=
  (Stage.check Work.clear (lengthCheck x.cfg .b x.capLen)).andThen fun _ =>
  (assembleFixed x.cfg x.mem .b Param.bBits x.cfg.bFirstSlot Work.clear).andThen fun w =>
  (Stage.check w (zeroCheck .b w)).andThen fun _ =>
  decodeFields w (fieldB x.cfg w)

/-- DECODE.B (R212). -/
def execDecodeB (s : State) : Answer State := decodeCommand pipelineB s

end Sys2Proof.Machine
end

