-- ==== Sys2Proof/Machine/ProtocolC.lean ====
section
/-! DEFINITION. The command DECODE.C (spec 45_commands.md R214). -/

namespace Sys2Proof.Machine

/-- The Protocol C pipeline (R214, 42_validator.md R148): a frame with the checksum wrong is never field-decoded. -/
def pipelineC (x : Capture) : Stage Decoded :=
  (Stage.check Work.clear (lengthCheck x.cfg .c x.capLen)).andThen fun _ =>
  (assembleVar x.cfg x.mem x.capLen Work.clear).andThen fun w =>
  (Stage.check w (checksumC w)).andThen fun _ =>
  (Stage.check w (zeroCheck .c w)).andThen fun _ =>
  decodeFields w (fieldC x.cfg w)

/-- DECODE.C (R214). -/
def execDecodeC (s : State) : Answer State := decodeCommand pipelineC s

end Sys2Proof.Machine
end

