-- ==== Sys2Proof/Machine/System.lean ====
section
/-! DEFINITION. The commands that decode nothing: NOP and DUPCLR, and what an illegal command word does (spec 45_commands.md R210, R213, R215). -/

namespace Sys2Proof.Machine

/-- A command whose body leaves RESULT = NONE and which is no DECODE: BITCNT reads 0 (R216). -/
def plainCommand (effect : State → State) (s : State) : Answer State :=
  command s fun s => .next (epilogue 0 ((effect s).setStatus (setResult .none (effect s).status)))

/-- NOP (R210). -/
def execNop (s : State) : Answer State := plainCommand id s

/-- DUPCLR (R213). -/
def execDupclr (s : State) : Answer State := plainCommand (fun s => s.setDup Dup.empty) s

/-- ILLEGAL, what a CMD word that encodes no command performs (R215). -/
def execIllegal (s : State) : Answer State := command s fun s => .next (abort .illegalCommand 0 s)

end Sys2Proof.Machine
end

