-- ==== Sys2Proof/Machine/Dispatch.lean ====
section
/-! DEFINITION. The dispatch: one arm per command of spec/opcode_table.json. -/

namespace Sys2Proof.Machine

def exec (i : Instr) (s : State) : Host.Outcome State Fault Refusal :=
  match i with
  | .nop => Sys2Proof.Machine.execNop s
  | .decodeA => Sys2Proof.Machine.execDecodeA s
  | .decodeB => Sys2Proof.Machine.execDecodeB s
  | .decodeC => Sys2Proof.Machine.execDecodeC s
  | .dupclr => Sys2Proof.Machine.execDupclr s

end Sys2Proof.Machine
end

