-- ==== Sys2Proof/Machine/HostAccess.lean ====
section
/-! DEFINITION. What one host event does to the CORE (spec 20_memory.md R55 to R60): a read, a write, a command started by a write to CMD (10_state.md R42), a reset. -/

namespace Sys2Proof.Machine

/-- Runs the command the word `v` encodes, or ILLEGAL (10_state.md R42, 30_encoding.md R72). -/
def runWord (v : Reg) (s : State) : Answer State :=
  match decode v with
  | .ok i => exec i s
  | .error _ => execIllegal s

/-- A host write (R55, R56): only a write to CMD does more than store. -/
def hostWrite (bits offset : Nat) (v : Reg) (s : State) : Answer State :=
  if accessAdmitted bits offset then
    if regAt s.cfg offset = .cmd then runWord v s else .next (storeReg (regAt s.cfg offset) v s)
  else .refused (.accessNotAdmitted bits offset)

/-- A host read (R55, R56): it answers the register's value and changes nothing else. -/
def hostRead (bits offset : Nat) (s : State) : Answer State :=
  if accessAdmitted bits offset then .next (s.setBusData (some (loadReg s (regAt s.cfg offset))))
  else .refused (.accessNotAdmitted bits offset)

/-- One host event. -/
def perform (e : HostEvent) (s : State) : Answer State :=
  match e with
  | .write bits offset v => hostWrite bits offset v s
  | .read bits offset => hostRead bits offset s
  | .reset => .next (resetCore s)

/-- One step of the machine: the host's oldest pending event takes place, whole (R58, R59); with none pending the
CORE is idle and holds its state (60_exceptions.md R247, 70_reset_and_hazards.md R261). An ill-formed configuration
runs nothing (00_scope.md R10). DESIGN CHOICE, safe: assumption log 4, 5 and 12. -/
def stepEvent (s : State) : Answer State :=
  if s.cfg.wf then
    match s.pending with
    | [] => .next s
    | e :: rest => perform e (popEvent rest s)
  else .refused .illFormedConfig

/-- The host event that writes the word `w` to CMD (R52). -/
def cmdWrite (w : Reg) : HostEvent := .write 32 0 w

end Sys2Proof.Machine
end

