-- ==== Sys2Proof/Machine/Step.lean ====
section
/-! DEFINITION. The step function, and how the host's checker puts one command before the machine. -/

namespace Sys2Proof.Machine

/-- One step: the oldest pending host event (`stepEvent`). -/
def step (s : State) : Host.Outcome State Fault Refusal := stepEvent s

/-- `s` with a host write of the command word `w` to CMD as the next thing that happens: the CORE fetches nothing,
a command is the value written to CMD (20_memory.md R62; DESIGN CHOICE, safe: assumption log 4). -/
def State.withFetchWord (s : State) (_nbits w : Nat) : State :=
  s.setPending (cmdWrite (BitVec.ofNat 32 w) :: s.pending)

end Sys2Proof.Machine
end

