-- ==== Sys2Proof/Machine/HostScript.lean ====
section
/-! DEFINITION. The host's pseudo-instructions LOADCAP and DISPATCH (spec 30_encoding.md R80 to R82), as what they expand to (DESIGN CHOICE, safe: assumption log 20). -/

namespace Sys2Proof.Machine

/-- The host does `e` now, before anything it has pending. -/
def hostDo (e : HostEvent) (s : State) : Answer State := step (s.setPending (e :: s.pending))

/-- Goes on from a next state; a fault or a refusal ends it. -/
def goOn (x : Answer State) (f : State → Answer State) : Answer State :=
  match x with
  | .next t => f t
  | .fault g => .fault g
  | .refused r => .refused r

/-- The host does each event in order, as long as the machine goes on. -/
def hostRun (es : List HostEvent) (s : State) : Answer State :=
  match es with
  | [] => .next s
  | e :: rest => goOn (hostDo e s) (hostRun rest)

/-- `WR CAP[i], v0`, `WR CAP[i+1], v1`, … (R80). -/
def slotWrites (i : Nat) (vs : List Dur) : List HostEvent :=
  match vs with
  | [] => []
  | v :: rest => .write 32 (capBase + 4 * i) (v.setWidth 32) :: slotWrites (i + 1) rest

/-- LOADCAP v0, v1, … (R81): the slots, then CAP_LEN. -/
def loadCap (vs : List Dur) : List HostEvent :=
  slotWrites 0 vs ++ [.write 32 0x008 (BitVec.ofNat 32 vs.length)]

/-- `CMD <mnemonic>` (R80). -/
def cmd (i : Instr) : HostEvent := cmdWrite (encode i)

/-- `RD STATUS` (R80). -/
def rdStatus : HostEvent := .read 32 0x004

/-- Offers the capture to each decoder in turn until one does not reject it (R82): `CMD`, `RD STATUS`, and on to the
next while the STATUS the bus answered says REJECTED. -/
def offer (decoders : List Instr) (s : State) : Answer State :=
  match decoders with
  | [] => .next s
  | i :: rest =>
    goOn (hostRun [cmd i, rdStatus] s) fun t =>
      if statusResult (t.busData.getD 0) = resultCode .rejected then offer rest t else .next t

/-- DISPATCH (R82). -/
def dispatch (s : State) : Answer State := offer [.decodeA, .decodeB, .decodeC] s

end Sys2Proof.Machine
end

