-- ==== Sys2Proof/Safety.lean ====
section
/-! DEFINITION. The terms claims about the machine use: the invariant every step keeps, what it means that a capture encodes a frame (spec 30_encoding.md R75 to R86), and the values the spec reads from a frame by bit position. -/

namespace Sys2Proof.Safety

open Sys2Proof.Machine

/-! ## The invariant -/

/-- CAP_MEM in canonical form, with no slot at or above CAP_DEPTH (20_memory.md R50). -/
def MemoryLegal (s : State) : Prop :=
  Memory.wf s.capMem = true ∧ ∀ i, s.cfg.capDepth ≤ i → capRead s.capMem i = none

/-- STATUS as 10_state.md R31 to R35 describe it: the reserved bits read 0, ERR is nonzero exactly when RESULT is
REJECTED, both request bits are set exactly when RESULT is ACCEPTED, BITCNT is at most 40, and while DONE = 0 no
command has run since reset (70_reset_and_hazards.md R261). -/
def StatusLegal (w : Reg) : Prop :=
  statusReserved w = 0
    ∧ (statusErr w ≠ 0 ↔ statusResult w = resultCode .rejected)
    ∧ (statusReqIgnoreRepeats w = true ↔ statusResult w = resultCode .accepted)
    ∧ (statusReqResetCount w = true ↔ statusResult w = resultCode .accepted)
    ∧ (statusBitcnt w).toNat ≤ 40
    ∧ (statusDone w = false → w = 0)

/-- The bits of the RD_* registers that 10_state.md R36 to R40 fix at 0. -/
def ResultsLegal (r : ReadRegs) : Prop :=
  r.protoId.extractLsb' 18 14 = 0 ∧ r.temp.extractLsb' 16 16 = 0 ∧ r.hum.extractLsb' 10 22 = 0
    ∧ r.misc.extractLsb' 7 25 = 0 ∧ r.frameHi.extractLsb' 14 18 = 0

/-- While DUP_VALID = 0 the other DUP_* registers are 0 (10_state.md R30, R45, 45_commands.md R213). -/
def DupLegal (d : Dup) : Prop := d.valid = false → d = Dup.empty

/-- CURSOR is even (10_state.md R26), BITCNT is at most 40, and SR holds no more than BITCNT bits (10_state.md R27). -/
def WorkLegal (w : Work) : Prop :=
  w.cursor.toNat % 2 = 0 ∧ w.bitcnt.toNat ≤ 40 ∧ w.sr.toNat < 2 ^ w.bitcnt.toNat

/-- The invariant of the machine. -/
structure StateLegal (s : State) : Prop where
  config  : s.cfg.wf = true
  memory  : MemoryLegal s
  status  : StatusLegal s.status
  results : ResultsLegal s.rd
  dup     : DupLegal s.dup
  work    : WorkLegal s.work

/-! ## Commands and captures -/

/-- The three DECODE commands. -/
def isDecode (i : Instr) : Bool :=
  match i with
  | .nop => false
  | .decodeA => true
  | .decodeB => true
  | .decodeC => true
  | .dupclr => false

/-- Every slot of the capture has been written since reset (70_reset_and_hazards.md R264). -/
abbrev CaptureWritten (s : State) : Prop := ∀ i < s.capLen.toNat, capWritten s.capMem i = true

/-- An answer with `m` in place of the capture memory. -/
def withCapture (m : Memory) (x : Answer State) : Answer State :=
  match x with
  | .next t => .next (t.setCapMem m)
  | .fault f => .fault f
  | .refused r => .refused r

/-- The pair at slot `i` encodes the bit `b` in the two-slot encoding with windows `win` (40_classifier.md R101): the
mark is shorter than the ceiling, and the space lies above the one threshold, or inside the zero window. -/
def pairIs (win : FixedWindows) (m : Memory) (i : Nat) (b : Bool) : Bool :=
  match capRead m i, capRead m (i + 1) with
  | some mark, some sp =>
    decide (mark.toNat < win.markCeil)
      && (if b then decide (win.oneTh < sp.toNat) else decide (win.zeroLo ≤ sp.toNat) && decide (sp.toNat ≤ win.zeroHi))
  | _, _ => false

/-- The pair at slot `i` fits no two-slot bit (30_encoding.md R79). -/
def pairBad (win : FixedWindows) (m : Memory) (i : Nat) : Bool :=
  match capRead m i with
  | none => false
  | some mark =>
    decide (win.markCeil ≤ mark.toNat)
      || (match capRead m (i + 1) with
          | none => false
          | some sp =>
            decide (sp.toNat ≤ win.oneTh) && !(decide (win.zeroLo ≤ sp.toNat) && decide (sp.toNat ≤ win.zeroHi)))

/-- The `n` pairs from slot `first` on encode the bits `b 0`, `b 1`, … (30_encoding.md R75). -/
abbrev EncodesFixed (win : FixedWindows) (m : Memory) (first n : Nat) (b : Nat → Bool) : Prop :=
  ∀ k < n, pairIs win m (first + 2 * k) (b k) = true

/-- A space inside Protocol C's zero window. -/
def inZeroC (c : Config) (sp : Dur) : Bool :=
  decide (c.cWindows.zeroLo ≤ sp.toNat) && decide (sp.toNat ≤ c.cWindows.zeroHi)

/-- The four slots from `i` on, if all are written, have an exact sum for which `p` holds. -/
def sumIs (m : Memory) (i : Nat) (p : Nat → Bool) : Bool :=
  match capRead m i, capRead m (i + 1), capRead m (i + 2), capRead m (i + 3) with
  | some d0, some d1, some d2, some d3 => p (d0.toNat + d1.toNat + d2.toNat + d3.toNat)
  | _, _, _, _ => false

/-- An aggregate inside Protocol C's one window. -/
def inOneC (c : Config) (agg : Nat) : Bool := decide (c.cWindows.oneLo ≤ agg) && decide (agg ≤ c.cWindows.oneHi)

/-- The form at slot `i` encodes the bit `b` in Protocol C's encoding, below index `stop` (30_encoding.md R78): the zero
form is a space in the zero window, the one form a space outside it and an aggregate in the one window. -/
def formIs (c : Config) (m : Memory) (stop i : Nat) (b : Bool) : Bool :=
  match capRead m (i + 1) with
  | none => false
  | some sp =>
    if b then !inZeroC c sp && decide (i + 6 ≤ stop) && sumIs m (i + c.cAggOffset) (inOneC c)
    else inZeroC c sp && decide (i + 2 ≤ stop)

/-- The slots at `i` fit neither form of Protocol C (30_encoding.md R79). -/
def formBad (c : Config) (m : Memory) (stop i : Nat) : Bool :=
  match capRead m (i + 1) with
  | none => false
  | some sp =>
    decide (i + 2 ≤ stop) && !inZeroC c sp
      && (decide (stop < i + 6) || sumIs m (i + c.cAggOffset) (fun agg => !inOneC c agg))

/-- The slots from `i` up to `j` encode the bits `bs` in Protocol C's encoding, all below `stop`. -/
def encodesC (c : Config) (m : Memory) (stop i : Nat) (bs : List Bool) (j : Nat) : Bool :=
  match bs with
  | [] => decide (i = j)
  | b :: rest => formIs c m stop i b && encodesC c m stop (i + if b then 6 else 2) rest j

/-- The bits of an `n`-bit frame in arrival order: b[0] is the most significant (00_scope.md R11). -/
def frameBits {n : Nat} (f : BitVec n) : List Bool := (List.range n).map fun k => f.getMsbD k

/-- The working state after shifting the bits `bs` into a clear one (41_assembler.md R120). -/
def shiftAll (bs : List Bool) : Work := bs.foldl (fun w b => shiftBit b w) Work.clear

/-! ## Fields by bit position in the frame value (30_encoding.md R83 to R85) -/

/-- The main frame b[0..27] of a Protocol A frame. -/
def aMain (f : BitVec 36) : BitVec 28 := f.extractLsb' 8 28
/-- b[16..27] of a Protocol A frame. -/
def aTemp (f : BitVec 36) : BitVec 12 := f.extractLsb' 8 12
/-- b[28..35] of a Protocol A frame. -/
def aHum (f : BitVec 36) : Byte := f.extractLsb' 0 8
/-- The magnitude of a two's-complement temperature code in tenths. -/
def twosMag (t : BitVec 12) : Nat := if 2048 ≤ t.toNat then 4096 - t.toNat else t.toNat
/-- RD_* of an accepted Protocol A frame (10_state.md R36 to R40): ID b[0..11], CHANNEL b[14..15] + 1, BATT_LOW the
inverse of b[12]. -/
def aResults (f : BitVec 36) : ReadRegs where
  protoId := BitVec.ofNat 32 (1 * 2 ^ 16 + (f.extractLsb' 24 12).toNat)
  temp    := BitVec.ofNat 32 ((if 2048 ≤ (aTemp f).toNat then 2 ^ 15 else 0) + twosMag (aTemp f))
  hum     := BitVec.ofNat 32 (2 ^ 8 + (aHum f).toNat)
  misc    := BitVec.ofNat 32 (2 ^ 5 + (if f.getLsbD 23 then 0 else 2 ^ 4) + 2 ^ 3 + ((f.extractLsb' 20 2).toNat + 1))
  frameLo := BitVec.ofNat 32 (f.toNat % 2 ^ 32)
  frameHi := BitVec.ofNat 32 (36 * 2 ^ 8 + f.toNat / 2 ^ 32)

/-- b[8..19] of a Protocol B frame. -/
def bTemp (f : BitVec 40) : BitVec 12 := f.extractLsb' 20 12
/-- b[20..27] of a Protocol B frame. -/
def bHum (f : BitVec 40) : Byte := f.extractLsb' 12 8
/-- RD_* of an accepted Protocol B frame, whose temperature code converts to `t`. -/
def bResults (f : BitVec 40) (t : Temp) : ReadRegs where
  protoId := BitVec.ofNat 32 (2 * 2 ^ 16 + (f.extractLsb' 32 8).toNat)
  temp    := BitVec.ofNat 32 ((if t.neg then 2 ^ 15 else 0) + t.mag)
  hum     := BitVec.ofNat 32 (2 ^ 9 + 2 ^ 8 + (bHum f).toNat)
  misc    := 0
  frameLo := BitVec.ofNat 32 (f.toNat % 2 ^ 32)
  frameHi := BitVec.ofNat 32 (40 * 2 ^ 8 + f.toNat / 2 ^ 32)

/-- The checksum a Protocol C frame should carry: the folded XOR of its first three bytes (42_validator.md R142). -/
def cChecksum (f : BitVec 28) : BitVec 4 :=
  (f.extractLsb' 24 4 ^^^ f.extractLsb' 20 4) ^^^ (f.extractLsb' 16 4 ^^^ f.extractLsb' 12 4)
    ^^^ (f.extractLsb' 8 4 ^^^ f.extractLsb' 4 4)
/-- The BCD magnitude b[12..23] of a Protocol C frame in tenths (43_field_decoder.md R175). -/
def cMag (f : BitVec 28) : Nat :=
  100 * (f.extractLsb' 12 4).toNat + 10 * (f.extractLsb' 8 4).toNat + (f.extractLsb' 4 4).toNat
/-- RD_* of an accepted Protocol C frame: the sign is b[8], and CSUM_OK is set. -/
def cResults (f : BitVec 28) : ReadRegs where
  protoId := BitVec.ofNat 32 (3 * 2 ^ 16 + (f.extractLsb' 20 8).toNat)
  temp    := BitVec.ofNat 32 ((if f.getLsbD 19 then 2 ^ 15 else 0) + cMag f)
  hum     := 0
  misc    := BitVec.ofNat 32 (2 ^ 6)
  frameLo := BitVec.ofNat 32 f.toNat
  frameHi := BitVec.ofNat 32 (28 * 2 ^ 8)

/-- The signature of a frame of protocol code `p` under the build's SIG_FN (44_dedup.md R190). -/
def sigOf (c : Config) (p : BitVec 2) (frame : Frame) (n : BitVec 6) : Sig :=
  match c.sigFn with
  | .standard => p ++ frame
  | .other k => Config.otherSignature k p frame n

/-- The duplicate gate of 44_dedup.md R192 lets a reading with signature `sig` through. -/
abbrev GateOpen (s : State) (sig : Sig) : Prop :=
  s.dup.valid = false ∨ s.capHash ≠ s.dup.hash ∨ 500 < (s.now.toNat + 2 ^ 32 - s.dup.time.toNat) % 2 ^ 32
    ∨ sig ≠ s.dup.sig

/-- The DuplicateState after a reading with signature `sig` is accepted (44_dedup.md R193). -/
def acceptedDup (s : State) (sig : Sig) : Dup := { valid := true, sig := sig, hash := s.capHash, time := s.now }

end Sys2Proof.Safety
end

