-- ==== Sys2Proof/Certificates/Slice0/Obligations.lean ====
section
/-! DEFINITION. The statements about the machine that the provers settle. Each docstring names the rule of spec/ it formalises. -/

open Sys2Proof Sys2Proof.Machine Sys2Proof.Safety

/-! ## Reset, idling, configuration -/

/-- R45: after reset, of this build and of a build with any configuration, every piece of state holds the value of the
table: no slot counts as written, so a CORE read of one is a model fault; a read of CMD answers 0; the parameters are
those the CORE was built with. -/
def Obligations.ResetHoldsTheTabledValues : Prop :=
  (∀ s : State, s = State.reset ∨ (∃ c : Config, s = State.resetOf c) →
    (∀ i, capWritten s.capMem i = false)
      ∧ (∀ i < s.cfg.capDepth, memRead s.cfg s.capMem i = .error (.unwrittenCapture i))
      ∧ s.capLen = 0 ∧ s.now = 0 ∧ s.capHash = 0 ∧ loadReg s .cmd = 0
      ∧ s.work = { cursor := 0, sr := 0, bitcnt := 0, fb := Vector.replicate 5 0 }
      ∧ s.dup = { valid := false, sig := 0, hash := 0, time := 0 }
      ∧ s.status = 0
      ∧ s.rd = { protoId := 0, temp := 0, hum := 0, misc := 0, frameLo := 0, frameHi := 0 })
    ∧ ∀ c : Config, (State.resetOf c).cfg = c

/-- The invariant of `EveryStepKeepsTheInvariant` holds at reset, for this build and for every well-formed one. -/
def Obligations.InvariantHoldsAtReset : Prop :=
  StateLegal State.reset ∧ ∀ c : Config, c.wf = true → StateLegal (State.resetOf c)

/-- Every step keeps the invariant: the capture memory in canonical form and inside CAP_DEPTH, STATUS legal, the
reserved bits of the RD_* registers 0, DUP_* clear while DUP_VALID = 0, CURSOR even, BITCNT at most 40, and SR no
longer than BITCNT. The last three are of the working state, which the model keeps after a command (assumption log 9). -/
def Obligations.EveryStepKeepsTheInvariant : Prop :=
  ∀ s t : State, StateLegal s → step s = .next t → StateLegal t

/-- Reset, as one step between commands (R260): no slot counts as written, and every register is 0; the configuration
stays (R261). What the host has pending stays the host's (assumption log 4 and 6). -/
def Obligations.ResetEventClearsTheState : Prop :=
  ∀ (s : State) (rest : List HostEvent), s.cfg.wf = true → s.pending = .reset :: rest →
    ∃ t, step s = .next t ∧ (∀ i, capWritten t.capMem i = false)
      ∧ t.capLen = 0 ∧ t.now = 0 ∧ t.capHash = 0
      ∧ t.work = { cursor := 0, sr := 0, bitcnt := 0, fb := Vector.replicate 5 0 }
      ∧ t.dup = { valid := false, sig := 0, hash := 0, time := 0 }
      ∧ t.status = 0
      ∧ t.rd = { protoId := 0, temp := 0, hum := 0, misc := 0, frameLo := 0, frameHi := 0 }
      ∧ t.cfg = s.cfg ∧ t.pending = rest

/-- R262: reset and DUPCLR leave the DuplicateState identical, and after either the gate lets any reading through;
reset alone also clears the capture inputs, STATUS and the RD_* registers, while DUPCLR keeps the capture inputs and
the RD_* registers. -/
def Obligations.ResetAndDupclrClearTheDuplicateStateAlike : Prop :=
  ∀ s : State, s.cfg.wf = true →
    ∃ t u, exec .dupclr s = .next t ∧ step (s.setPending (.reset :: s.pending)) = .next u
      ∧ t.dup = u.dup ∧ t.dup.valid = false
      ∧ (∀ h n sig, emits t.dup h n sig = true) ∧ (∀ h n sig, emits u.dup h n sig = true)
      ∧ t.capMem = s.capMem ∧ t.capLen = s.capLen ∧ t.now = s.now ∧ t.capHash = s.capHash ∧ t.rd = s.rd
      ∧ (∀ i, capWritten u.capMem i = false) ∧ u.capLen = 0 ∧ u.now = 0 ∧ u.capHash = 0 ∧ u.status = 0
      ∧ u.rd = ReadRegs.zero

/-- With no host event pending the CORE is idle and all its state holds its value (R247, R261). -/
def Obligations.IdleStepHoldsTheState : Prop :=
  ∀ s : State, s.cfg.wf = true → s.pending = [] → step s = .next s

/-- A configuration is well-formed exactly if it has R10's seven properties and R9's CAP_DEPTH ≤ 65535, and under any
other no command and no step has a meaning (R10). That R9's bound counts, and that every step is refused, an idle one
and a plain access too, is the model's reading (assumption log 12). -/
def Obligations.IllFormedConfigurationIsRefused : Prop :=
  (∀ c : Config, c.wf = true ↔
    (c.aWindows.zeroLo ≤ c.aWindows.zeroHi ∧ c.aWindows.zeroHi < c.aWindows.oneTh ∧ c.aWindows.oneTh ≤ 65535
      ∧ c.aWindows.markCeil ≤ 65535)
    ∧ (c.bWindows.zeroLo ≤ c.bWindows.zeroHi ∧ c.bWindows.zeroHi < c.bWindows.oneTh ∧ c.bWindows.oneTh ≤ 65535
      ∧ c.bWindows.markCeil ≤ 65535)
    ∧ (c.cWindows.zeroLo ≤ c.cWindows.zeroHi ∧ c.cWindows.zeroHi ≤ 65535 ∧ c.cWindows.oneLo ≤ c.cWindows.oneHi
      ∧ c.cWindows.oneHi ≤ 4 * 65535)
    ∧ (2 ∣ c.aFirstSlot ∧ 2 ∣ c.bFirstSlot ∧ 2 ∣ c.cFirstSlot)
    ∧ (c.aFirstSlot + 74 ≤ c.aLen ∧ c.aLen ≤ c.capDepth)
    ∧ (c.bFirstSlot + 80 ≤ c.bLen ∧ c.bLen ≤ c.capDepth)
    ∧ (c.cFirstSlot + c.cStopSlots ≤ c.cLenMin ∧ c.cLenMin ≤ c.cLenMax ∧ c.cLenMax ≤ c.capDepth)
    ∧ ((c.aUsedOffset = 0 ∨ c.aUsedOffset = 1) ∧ (c.cAggOffset = 1 ∨ c.cAggOffset = 2))
    ∧ c.capDepth ≤ 65535)
  ∧ ∀ (s : State) (i : Instr), s.cfg.wf = false →
      exec i s = .refused .illFormedConfig ∧ execIllegal s = .refused .illFormedConfig
        ∧ step s = .refused .illFormedConfig

/-- No step changes the parameters (R9: "no command changes it"; R261: reset does not either). -/
def Obligations.NoStepChangesTheConfiguration : Prop :=
  ∀ s t : State, step s = .next t → t.cfg = s.cfg

/-! ## Command words -/

/-- R71: the five words, and that a word selects a command only if it equals one of them exactly. -/
def Obligations.OnlyTheFiveWordsSelectACommand : Prop :=
  (encode .nop = 0x00000000 ∧ encode .decodeA = 0x00000001 ∧ encode .decodeB = 0x00000002
    ∧ encode .decodeC = 0x00000003 ∧ encode .dupclr = 0x00000004)
  ∧ ∀ (w : Reg) (i : Instr), decode w = .ok i ↔ w = encode i

/-- The words of R71's table, and a few illegal ones of R72 and R215, through the decoder. -/
def Obligations.TabledWordsDecode : Prop :=
  decode 0x00000000 = .ok .nop ∧ decode 0x00000001 = .ok .decodeA ∧ decode 0x00000002 = .ok .decodeB
    ∧ decode 0x00000003 = .ok .decodeC ∧ decode 0x00000004 = .ok .dupclr
    ∧ decode 0x00000005 = .error .reservedOp ∧ decode 0x00000009 = .error .reservedBitsSet
    ∧ decode 0x80000001 = .error .reservedBitsSet

/-- A write to CMD of a command's word runs exactly that command, on the state with the write taken off the host's
list (R42, R58). -/
def Obligations.StepRunsTheDecodedCommand : Prop :=
  ∀ (s : State) (v : Reg) (rest : List HostEvent) (i : Instr),
    s.cfg.wf = true → s.pending = .write 32 0 v :: rest → decode v = .ok i → i.wf = true →
    step s = exec i { s with pending := rest, busData := none }

/-- R72, R215: any other word written to CMD is REJECTED with IllegalCommand and changes nothing but STATUS; which
words those are. -/
def Obligations.IllegalWordIsRejected : Prop :=
  (∀ v : Reg, (∀ i : Instr, v ≠ encode i) ↔ (5 ≤ (v.extractLsb' 0 3).toNat ∨ v.extractLsb' 3 29 ≠ 0))
  ∧ ∀ (s : State) (v : Reg) (rest : List HostEvent),
      s.cfg.wf = true → s.pending = .write 32 0 v :: rest → (∀ i : Instr, v ≠ encode i) →
      step s = .next { s with pending := rest, busData := none, status := 0x0000003F }

/-! ## NOP and DUPCLR -/

/-- R210: NOP leaves STATUS = 1 and changes nothing else. -/
def Obligations.NopOnlyCompletes : Prop :=
  ∀ s : State, s.cfg.wf = true → exec .nop s = .next { s with status := 0x00000001 }

/-- R213: DUPCLR clears the four DUP_* registers, leaves STATUS = 1 and changes nothing else; the next decoded
reading then passes the gate whatever its signature, hash and time. -/
def Obligations.DupclrClearsTheDuplicateState : Prop :=
  ∀ s : State, s.cfg.wf = true →
    exec .dupclr s = .next { s with
        status := 0x00000001
        dup := { valid := false, sig := 0, hash := 0, time := 0 } }
      ∧ ∀ h n sig, emits { valid := false, sig := 0, hash := 0, time := 0 } h n sig = true

/-! ## What every DECODE does and leaves alone -/

/-- The frame of the DECODE commands by outcome. STATUS is always DONE, legal, and carries BITCNT (R35). A REJECTED
decode (R149, R232) and a SUPPRESSED one (R194) change only STATUS and the working state; an ACCEPTED one (R193)
also the RD_* registers and the DuplicateState, which then holds CAP_HASH and NOW. Every slot of the capture reads
as before (R21). -/
def Obligations.DecodeFrameByOutcome : Prop :=
  ∀ (i : Instr) (s t : State), isDecode i = true → exec i s = .next t →
    (∀ a, capRead t.capMem a = capRead s.capMem a)
    ∧ statusDone t.status = true ∧ statusReserved t.status = 0 ∧ statusBitcnt t.status = t.work.bitcnt
    ∧ ((statusResult t.status = resultCode .rejected ∧ statusErr t.status ≠ 0
          ∧ statusErr t.status ≠ errorCode .illegalCommand
          ∧ statusReqIgnoreRepeats t.status = false ∧ statusReqResetCount t.status = false
          ∧ t = { s with work := t.work, status := t.status })
      ∨ (statusResult t.status = resultCode .suppressed ∧ statusErr t.status = 0
          ∧ statusReqIgnoreRepeats t.status = false ∧ statusReqResetCount t.status = false
          ∧ t = { s with work := t.work, status := t.status })
      ∨ (statusResult t.status = resultCode .accepted ∧ statusErr t.status = 0
          ∧ statusReqIgnoreRepeats t.status = true ∧ statusReqResetCount t.status = true
          ∧ t = { s with work := t.work, status := t.status, rd := t.rd, dup := t.dup }
          ∧ t.dup.valid = true ∧ t.dup.hash = s.capHash ∧ t.dup.time = s.now))

/-- The frame of NOP and DUPCLR: neither changes a register of the capture, the working state or the RD_* registers,
nor any slot of the capture; NOP changes no DUP_* register either (R210, R213). -/
def Obligations.PlainCommandsFrame : Prop :=
  ∀ s t : State,
    (exec .nop s = .next t → t = { s with status := t.status } ∧ ∀ a, capRead t.capMem a = capRead s.capMem a)
    ∧ (exec .dupclr s = .next t →
        t = { s with status := t.status, dup := t.dup } ∧ ∀ a, capRead t.capMem a = capRead s.capMem a)

/-- With the default SIG_FN, an accepted reading's signature in DUP_SIG is PROTO and FRAME as RD_PROTO_ID and
RD_FRAME_* show them (R190, R193, R40). -/
def Obligations.AcceptedSignatureIsTheReportedFrame : Prop :=
  ∀ (i : Instr) (s t : State), isDecode i = true → exec i s = .next t →
    statusResult t.status = resultCode .accepted → s.cfg.sigFn = .standard →
    t.dup.sig = t.rd.protoId.extractLsb' 16 2 ++ t.rd.frameHi.extractLsb' 0 8 ++ t.rd.frameLo

/-- R234, R264, R51, R23: on a well-formed configuration every command completes with DONE = 1, or it reads a slot
below CAP_LEN that the host has not written and the model faults naming that slot; with every slot below CAP_LEN
written it completes. -/
def Obligations.EveryCommandCompletesOnAWrittenCapture : Prop :=
  ∀ (i : Instr) (s : State), s.cfg.wf = true →
    ((∃ t, exec i s = .next t ∧ statusDone t.status = true)
      ∨ ∃ k, k < s.capLen.toNat ∧ capWritten s.capMem k = false ∧ exec i s = .fault (.unwrittenCapture k))
    ∧ (CaptureWritten s → ∃ t, exec i s = .next t ∧ statusDone t.status = true)

/-- R51: no command's outcome depends on what the capture memory holds at or above CAP_LEN. -/
def Obligations.NoCommandReadsAtOrAboveCapLen : Prop :=
  ∀ (i : Instr) (s : State) (m : Memory), s.cfg.wf = true →
    (∀ a < s.capLen.toNat, capRead m a = capRead s.capMem a) →
    exec i (s.setCapMem m) = withCapture m (exec i s)

/-- R76, R77: DECODE.A depends on the 72 slots of its usable bits alone (not on the slots of the unused transmitted
bit), DECODE.B on its 80 slots. -/
def Obligations.FixedDecodersReadOnlyTheirBits : Prop :=
  ∀ (s : State) (m : Memory), s.cfg.wf = true →
    ((∀ a, s.cfg.aFirstSlot + 2 * s.cfg.aUsedOffset ≤ a → a < s.cfg.aFirstSlot + 2 * s.cfg.aUsedOffset + 72 →
        capRead m a = capRead s.capMem a) →
      exec .decodeA (s.setCapMem m) = withCapture m (exec .decodeA s))
    ∧ ((∀ a, s.cfg.bFirstSlot ≤ a → a < s.cfg.bFirstSlot + 80 → capRead m a = capRead s.capMem a) →
      exec .decodeB (s.setCapMem m) = withCapture m (exec .decodeB s))

/-- R43, R235, R267: a DECODE starts from a cleared working state and a cleared STATUS, so neither of an earlier
command can be observed in it; NOP and DUPCLR show nothing of an earlier STATUS. -/
def Obligations.NoCommandSeesEarlierStatusOrWorkingState : Prop :=
  ∀ (i : Instr) (s : State) (w : Work) (st : Reg),
    exec i (s.setStatus st) = exec i s ∧ (isDecode i = true → exec i (s.setWork w) = exec i s)

/-- R232: after a REJECTED decode, a DECODE command of the same capture behaves as if that decode had not run. -/
def Obligations.RejectedDecodeIsInvisibleToTheNextDecode : Prop :=
  ∀ (i j : Instr) (s t : State), isDecode i = true → isDecode j = true → exec i s = .next t →
    statusResult t.status = resultCode .rejected → exec j t = exec j s

/-- R197: an accepted reading, fed again with NOW = n and everything else as the acceptance left it, is SUPPRESSED
while n is within DUP_WINDOW of the acceptance, and then leaves the DuplicateState and RD_* alone, so that a third
feeding at n' is judged from the acceptance alone; more than DUP_WINDOW after it, it is ACCEPTED again. -/
def Obligations.RepeatedReadingIsSuppressedThenAccepted : Prop :=
  ∀ (i : Instr) (s t : State), isDecode i = true → exec i s = .next t →
    statusResult t.status = resultCode .accepted →
    ∀ n : BitVec 32,
      ((n - s.now).toNat ≤ 500 →
        ∃ u, exec i (t.setNow n) = .next u ∧ statusResult u.status = resultCode .suppressed
          ∧ u.dup = t.dup ∧ u.rd = t.rd
          ∧ ∀ n' : BitVec 32, 500 < (n' - s.now).toNat →
              ∃ v, exec i (u.setNow n') = .next v ∧ statusResult v.status = resultCode .accepted ∧ v.dup.time = n')
      ∧ (500 < (n - s.now).toNat →
        ∃ u, exec i (t.setNow n) = .next u ∧ statusResult u.status = resultCode .accepted ∧ u.dup.time = n)

/-! ## Length, unwritten slots, timing aborts -/

/-- A CAP_LEN other than the protocol's expected one, and CAP_LEN = 0 for every protocol, aborts with LengthMismatch
and BITCNT = 0, whatever the capture memory holds, written or not (R140, R230, R263; for Protocol C with C_LEN_MIN = 0,
assumption log 15). That the working state is then the cleared one is the model's choice
(assumption log 9). -/
def Obligations.WrongLengthIsLengthMismatch : Prop :=
  ∀ s : State, s.cfg.wf = true →
    (s.capLen.toNat ≠ s.cfg.aLen →
      exec .decodeA s = .next { s with work := Work.clear, status := 0x0000000F })
    ∧ (s.capLen.toNat ≠ s.cfg.bLen →
      exec .decodeB s = .next { s with work := Work.clear, status := 0x0000000F })
    ∧ (¬ (s.cfg.cLenMin ≤ s.capLen.toNat ∧ s.capLen.toNat ≤ s.cfg.cLenMax) →
      exec .decodeC s = .next { s with work := Work.clear, status := 0x0000000F })
    ∧ (s.capLen = 0 → ∀ i : Instr, isDecode i = true →
      exec i s = .next { s with work := Work.clear, status := 0x0000000F })

/-- R23: with the length right, the first slot each decoder reads being unwritten is a model fault: the first mark for
A and B, the first space for C, whose marks are never read (R107). -/
def Obligations.UnwrittenFirstSlotFaults : Prop :=
  ∀ s : State, s.cfg.wf = true →
    (s.capLen.toNat = s.cfg.aLen → capWritten s.capMem (firstUsedA s.cfg) = false →
      exec .decodeA s = .fault (.unwrittenCapture (firstUsedA s.cfg)))
    ∧ (s.capLen.toNat = s.cfg.bLen → capWritten s.capMem s.cfg.bFirstSlot = false →
      exec .decodeB s = .fault (.unwrittenCapture s.cfg.bFirstSlot))
    ∧ (s.cfg.cLenMin ≤ s.capLen.toNat → s.capLen.toNat ≤ s.cfg.cLenMax →
      s.cfg.cFirstSlot + 2 ≤ dataEndC s.cfg s.capLen → capWritten s.capMem (s.cfg.cFirstSlot + 1) = false →
      exec .decodeC s = .fault (.unwrittenCapture (s.cfg.cFirstSlot + 1)))

/-- The first pair of A or B that fits no bit aborts with TimingOutOfTolerance; STATUS.BITCNT is the number of bits
before it, and no later slot matters (R123, R128, R236). -/
def Obligations.FirstBadPairAbortsFixedDecode : Prop :=
  ∀ (s : State) (k : Nat) (b : Nat → Bool), s.cfg.wf = true →
    (s.capLen.toNat = s.cfg.aLen → k < 36 →
      EncodesFixed s.cfg.aWindows s.capMem (firstUsedA s.cfg) k b →
      pairBad s.cfg.aWindows s.capMem (firstUsedA s.cfg + 2 * k) = true →
      ∃ w, exec .decodeA s = .next { s with work := w, status := BitVec.ofNat 32 (0x17 + 256 * k) })
    ∧ (s.capLen.toNat = s.cfg.bLen → k < 40 →
      EncodesFixed s.cfg.bWindows s.capMem s.cfg.bFirstSlot k b →
      pairBad s.cfg.bWindows s.capMem (s.cfg.bFirstSlot + 2 * k) = true →
      ∃ w, exec .decodeB s = .next { s with work := w, status := BitVec.ofNat 32 (0x17 + 256 * k) })

/-- The first slots of C that fit neither form abort with TimingOutOfTolerance, with BITCNT the number of bits before
them (R124, R128); a form that fits only beyond the data's end is such a reject, not the end of input (R104). -/
def Obligations.FirstBadFormAbortsVariableDecode : Prop :=
  ∀ (s : State) (bs : List Bool) (j : Nat), s.cfg.wf = true →
    s.cfg.cLenMin ≤ s.capLen.toNat → s.capLen.toNat ≤ s.cfg.cLenMax → bs.length < 32 →
    encodesC s.cfg s.capMem (dataEndC s.cfg s.capLen) s.cfg.cFirstSlot bs j = true →
    formBad s.cfg s.capMem (dataEndC s.cfg s.capLen) j = true →
    ∃ w, exec .decodeC s = .next { s with work := w, status := BitVec.ofNat 32 (0x17 + 256 * bs.length) }

/-- A Protocol C capture that holds fewer or more bits than 28 aborts with AmbiguousOrShortFrame and the realized
count in BITCNT: assembly ends when fewer than two slots remain, or at 32 bits (R124, R126). CAP_LEN = 0 is LengthMismatch, for every
configuration (R140, R263; assumption log 15; WrongLengthIsLengthMismatch). -/
def Obligations.WrongBitCountIsAmbiguousOrShort : Prop :=
  ∀ (s : State) (bs : List Bool) (j : Nat), s.cfg.wf = true → s.capLen ≠ 0 →
    s.cfg.cLenMin ≤ s.capLen.toNat → s.capLen.toNat ≤ s.cfg.cLenMax →
    encodesC s.cfg s.capMem (dataEndC s.cfg s.capLen) s.cfg.cFirstSlot bs j = true →
    bs.length ≠ 28 → (bs.length = 32 ∨ bs.length < 32 ∧ dataEndC s.cfg s.capLen < j + 2) →
    ∃ w, exec .decodeC s = .next { s with work := w, status := BitVec.ofNat 32 (0x1F + 256 * bs.length) }

/-! ## The three decoders on a capture that encodes a frame -/

/-- DECODE.A of a capture that encodes the frame `f` (R211): with a nonzero main frame, a temperature of at most 600
tenths, a humidity of at most 99 and the duplicate gate open, it is ACCEPTED, and every register holds what the spec
gives it. -/
def Obligations.DecodeAAcceptsAValidFrame : Prop :=
  ∀ (s : State) (f : BitVec 36), s.cfg.wf = true → s.capLen.toNat = s.cfg.aLen →
    EncodesFixed s.cfg.aWindows s.capMem (firstUsedA s.cfg) 36 (fun k => f.getMsbD k) →
    aMain f ≠ 0 → twosMag (aTemp f) ≤ 600 → (aHum f).toNat ≤ 99 →
    GateOpen s (sigOf s.cfg 1 (f.setWidth 40) 36) →
    ∃ w, exec .decodeA s = .next { s with
      work := w
      status := 0x000024C3
      rd := aResults f
      dup := acceptedDup s (sigOf s.cfg 1 (f.setWidth 40) 36) }

/-- DECODE.A of a capture that encodes a frame it does not accept: ZeroFrameArtifact comes before RangeViolation, and
a reading the gate holds back is SUPPRESSED; STATUS and the working state alone change (R148, R211). -/
def Obligations.DecodeATurnsAwayOtherFrames : Prop :=
  ∀ (s : State) (f : BitVec 36), s.cfg.wf = true → s.capLen.toNat = s.cfg.aLen →
    EncodesFixed s.cfg.aWindows s.capMem (firstUsedA s.cfg) 36 (fun k => f.getMsbD k) →
    (aMain f = 0 → ∃ w, exec .decodeA s = .next { s with work := w, status := 0x00002437 })
    ∧ (aMain f ≠ 0 → 600 < twosMag (aTemp f) ∨ 99 < (aHum f).toNat →
        ∃ w, exec .decodeA s = .next { s with work := w, status := 0x0000242F })
    ∧ (aMain f ≠ 0 → twosMag (aTemp f) ≤ 600 → (aHum f).toNat ≤ 99 →
        ¬ GateOpen s (sigOf s.cfg 1 (f.setWidth 40) 36) →
        ∃ w, exec .decodeA s = .next { s with work := w, status := 0x00002405 })

/-- DECODE.B of a capture that encodes the frame `f` (R212): with a nonzero humidity of at most 0x99, a temperature
within B_TEMP_MAX and the duplicate gate open, it is ACCEPTED. The rounding inside `rescaleB` is the spec's own
inference (R171, 93_implementation_defined.md K1). -/
def Obligations.DecodeBAcceptsAValidFrame : Prop :=
  ∀ (s : State) (f : BitVec 40), s.cfg.wf = true → s.capLen.toNat = s.cfg.bLen →
    EncodesFixed s.cfg.bWindows s.capMem s.cfg.bFirstSlot 40 (fun k => f.getMsbD k) →
    bHum f ≠ 0 → (rescaleB (bTemp f)).mag ≤ s.cfg.bTempMax → (bHum f).toNat ≤ 0x99 →
    GateOpen s (sigOf s.cfg 2 f 40) →
    ∃ w, exec .decodeB s = .next { s with
      work := w
      status := 0x000028C3
      rd := bResults f (rescaleB (bTemp f))
      dup := acceptedDup s (sigOf s.cfg 2 f 40) }

/-- DECODE.B of a capture that encodes a frame it does not accept (R148, R212). -/
def Obligations.DecodeBTurnsAwayOtherFrames : Prop :=
  ∀ (s : State) (f : BitVec 40), s.cfg.wf = true → s.capLen.toNat = s.cfg.bLen →
    EncodesFixed s.cfg.bWindows s.capMem s.cfg.bFirstSlot 40 (fun k => f.getMsbD k) →
    (bHum f = 0 → ∃ w, exec .decodeB s = .next { s with work := w, status := 0x00002837 })
    ∧ (bHum f ≠ 0 → s.cfg.bTempMax < (rescaleB (bTemp f)).mag ∨ 0x99 < (bHum f).toNat →
        ∃ w, exec .decodeB s = .next { s with work := w, status := 0x0000282F })
    ∧ (bHum f ≠ 0 → (rescaleB (bTemp f)).mag ≤ s.cfg.bTempMax → (bHum f).toNat ≤ 0x99 →
        ¬ GateOpen s (sigOf s.cfg 2 f 40) →
        ∃ w, exec .decodeB s = .next { s with work := w, status := 0x00002805 })

/-- DECODE.C of a capture that encodes the frame `f` (R214): with the checksum right, a nonzero frame, a magnitude
within C_TEMP_MAX and the duplicate gate open, it is ACCEPTED. -/
def Obligations.DecodeCAcceptsAValidFrame : Prop :=
  ∀ (s : State) (f : BitVec 28) (j : Nat), s.cfg.wf = true →
    s.cfg.cLenMin ≤ s.capLen.toNat → s.capLen.toNat ≤ s.cfg.cLenMax →
    encodesC s.cfg s.capMem (dataEndC s.cfg s.capLen) s.cfg.cFirstSlot (frameBits f) j = true →
    dataEndC s.cfg s.capLen < j + 2 →
    cChecksum f = f.extractLsb' 0 4 → f ≠ 0 → cMag f ≤ s.cfg.cTempMax →
    GateOpen s (sigOf s.cfg 3 (f.setWidth 40) 28) →
    ∃ w, exec .decodeC s = .next { s with
      work := w
      status := 0x00001CC3
      rd := cResults f
      dup := acceptedDup s (sigOf s.cfg 3 (f.setWidth 40) 28) }

/-- DECODE.C of a capture that encodes a frame it does not accept: ChecksumMismatch before ZeroFrameArtifact before
RangeViolation, then SUPPRESSED (R148, R214). -/
def Obligations.DecodeCTurnsAwayOtherFrames : Prop :=
  ∀ (s : State) (f : BitVec 28) (j : Nat), s.cfg.wf = true →
    s.cfg.cLenMin ≤ s.capLen.toNat → s.capLen.toNat ≤ s.cfg.cLenMax →
    encodesC s.cfg s.capMem (dataEndC s.cfg s.capLen) s.cfg.cFirstSlot (frameBits f) j = true →
    dataEndC s.cfg s.capLen < j + 2 →
    (cChecksum f ≠ f.extractLsb' 0 4 →
        ∃ w, exec .decodeC s = .next { s with work := w, status := 0x00001C27 })
    ∧ (f = 0 → ∃ w, exec .decodeC s = .next { s with work := w, status := 0x00001C37 })
    ∧ (cChecksum f = f.extractLsb' 0 4 → f ≠ 0 → s.cfg.cTempMax < cMag f →
        ∃ w, exec .decodeC s = .next { s with work := w, status := 0x00001C2F })
    ∧ (cChecksum f = f.extractLsb' 0 4 → f ≠ 0 → cMag f ≤ s.cfg.cTempMax →
        ¬ GateOpen s (sigOf s.cfg 3 (f.setWidth 40) 28) →
        ∃ w, exec .decodeC s = .next { s with work := w, status := 0x00001C05 })

/-! ## The sub-blocks -/

/-- CLASSIFY2 on a written pair, by R100's text; a mark at or above the ceiling is a reject whatever the space, even
an unwritten one. -/
def Obligations.ClassifyTwoJudgesThePair : Prop :=
  ∀ (c : Config) (m : Memory) (p : TwoSlot) (i : Nat) (mark : Dur),
    i + 1 < c.capDepth → capRead m i = some mark →
    ((windowsOf c p).markCeil ≤ mark.toNat → classify2 c m p i = .ok { outcome := .reject, consumed := 0 })
    ∧ ∀ sp : Dur, capRead m (i + 1) = some sp → mark.toNat < (windowsOf c p).markCeil →
        ((windowsOf c p).oneTh < sp.toNat → classify2 c m p i = .ok { outcome := .one, consumed := 2 })
        ∧ (sp.toNat ≤ (windowsOf c p).oneTh → (windowsOf c p).zeroLo ≤ sp.toNat → sp.toNat ≤ (windowsOf c p).zeroHi →
            classify2 c m p i = .ok { outcome := .zero, consumed := 2 })
        ∧ (sp.toNat ≤ (windowsOf c p).oneTh → ¬ ((windowsOf c p).zeroLo ≤ sp.toNat ∧ sp.toNat ≤ (windowsOf c p).zeroHi) →
            classify2 c m p i = .ok { outcome := .reject, consumed := 0 })

/-- The window properties of R109 for the two-slot protocols, on well-formed windows: the midpoint of the zero window
is a zero, the midpoint of the one window (where it has a member: assumption log 17) a one, and a space one unit outside is a reject. -/
def Obligations.TwoSlotWindowsMidpointsAndEdges : Prop :=
  ∀ win : FixedWindows, win.wf = true →
    (∀ sp : Dur, sp.toNat = (win.zeroLo + win.zeroHi) / 2 → judgeSpace win sp = { outcome := .zero, consumed := 2 })
    ∧ (win.oneTh < 65535 → ∀ sp : Dur, sp.toNat = (win.oneTh + 1 + 65535) / 2 →
        judgeSpace win sp = { outcome := .one, consumed := 2 })
    ∧ (∀ sp : Dur, sp.toNat + 1 = win.zeroLo ∨ sp.toNat = win.zeroHi + 1 ∨ sp.toNat = win.oneTh →
        judgeSpace win sp = { outcome := .reject, consumed := 0 })

/-- CLASSIFYC by R104's text: the zero form first (R105), no room for six slots is a reject, and the aggregate is the
exact sum of four slots, never wrapped (R106). `stop` is the rule's `end`. -/
def Obligations.ClassifyCJudgesTheForm : Prop :=
  ∀ (c : Config) (m : Memory) (i stop : Nat) (sp : Dur),
    i + 1 < c.capDepth → capRead m (i + 1) = some sp →
    (c.cWindows.zeroLo ≤ sp.toNat ∧ sp.toNat ≤ c.cWindows.zeroHi →
        classifyC c m i stop = .ok { outcome := .zero, consumed := 2 })
    ∧ (¬ (c.cWindows.zeroLo ≤ sp.toNat ∧ sp.toNat ≤ c.cWindows.zeroHi) →
        (stop < i + 6 → classifyC c m i stop = .ok { outcome := .reject, consumed := 0 })
        ∧ (i + 6 ≤ stop → stop ≤ c.capDepth → (c.cAggOffset = 1 ∨ c.cAggOffset = 2) → ∀ d0 d1 d2 d3 : Dur,
            capRead m (i + c.cAggOffset) = some d0 → capRead m (i + c.cAggOffset + 1) = some d1 →
            capRead m (i + c.cAggOffset + 2) = some d2 → capRead m (i + c.cAggOffset + 3) = some d3 →
            classifyC c m i stop =
              .ok (if c.cWindows.oneLo ≤ d0.toNat + d1.toNat + d2.toNat + d3.toNat
                      ∧ d0.toNat + d1.toNat + d2.toNat + d3.toNat ≤ c.cWindows.oneHi
                   then { outcome := .one, consumed := 6 } else { outcome := .reject, consumed := 0 })))

/-- R107: CLASSIFYC does not judge the mark at i, and does not read it: rewriting or erasing what the slot holds
changes nothing. -/
def Obligations.ClassifyCNeverReadsTheMark : Prop :=
  ∀ (c : Config) (m m' : Memory) (i stop : Nat), c.wf = true →
    (∀ a, a ≠ i → capRead m' a = capRead m a) → classifyC c m' i stop = classifyC c m i stop

/-- R121: after any bits, SR is field(0, BITCNT), b[k] is SR's bit BITCNT − 1 − k and the k-th bit shifted, each filled
cell FB[j] is field(8j, 8), and every other cell is still 0 (R28, R43). -/
def Obligations.ShiftRegisterHoldsTheBitsInOrder : Prop :=
  ∀ bs : List Bool, bs.length ≤ 40 →
    (shiftAll bs).bitcnt.toNat = bs.length
    ∧ (shiftAll bs).sr = (field (shiftAll bs) 0 bs.length).setWidth 40
    ∧ (∀ k (h : k < bs.length), frameBit (shiftAll bs) k = bs[k]
        ∧ (shiftAll bs).sr.getLsbD (bs.length - 1 - k) = bs[k])
    ∧ (∀ j : Fin 5, j.val < bs.length / 8 → cell (shiftAll bs) j = field (shiftAll bs) (8 * j.val) 8)
    ∧ (∀ j : Fin 5, bs.length / 8 ≤ j.val → cell (shiftAll bs) j = 0)

/-- R122: ASM_FLUSH stores the last r = BITCNT mod 8 bits right-aligned in the cell BITCNT div 8, and nothing when r
is 0; the other cells, SR, BITCNT and CURSOR stay. -/
def Obligations.FlushStoresThePartialCellRightAligned : Prop :=
  ∀ w : Work, w.bitcnt.toNat ≤ 40 →
    (w.bitcnt.toNat % 8 = 0 → asmFlush w = w)
    ∧ (w.bitcnt.toNat % 8 ≠ 0 →
        (asmFlush w).sr = w.sr ∧ (asmFlush w).bitcnt = w.bitcnt ∧ (asmFlush w).cursor = w.cursor
        ∧ ∀ j : Fin 5,
            (j.val = w.bitcnt.toNat / 8 → (cell (asmFlush w) j).toNat = w.sr.toNat % 2 ^ (w.bitcnt.toNat % 8))
            ∧ (j.val ≠ w.bitcnt.toNat / 8 → cell (asmFlush w) j = cell w j))

/-- R126: fixed assembly completes with exactly N bits, and variable assembly with exactly 28; an assembly that stops
short of that is an abort with the realized count, never a partial success. -/
def Obligations.AssemblyIsNeverPartial : Prop :=
  ∀ (c : Config) (m : Memory),
    (∀ (p : TwoSlot) (n first : Nat), n ≤ 40 →
      (∀ w, assembleFixed c m p n first Work.clear = .pass w → w.bitcnt.toNat = n)
      ∧ ∀ e w, assembleFixed c m p n first Work.clear = .raise e w →
          e = .timingOutOfTolerance ∧ w.bitcnt.toNat < n)
    ∧ ∀ capLen : BitVec 16,
      (∀ w, assembleVar c m capLen Work.clear = .pass w → w.bitcnt.toNat = 28)
      ∧ ∀ e w, assembleVar c m capLen Work.clear = .raise e w →
          (e = .timingOutOfTolerance ∧ w.bitcnt.toNat < 32)
          ∨ (e = .ambiguousOrShortFrame ∧ w.bitcnt.toNat ≠ 28 ∧ w.bitcnt.toNat ≤ 32)

/-- R127: a Protocol C capture and a two-slot capture that encode the same 28 bits assemble to the same SR, BITCNT and
FB, and the first ends with CURSOR = C_FIRST_SLOT + 2·zeros + 6·ones. -/
def Obligations.VariableAndFixedAssemblyAgree : Prop :=
  ∀ (c : Config) (m m' : Memory) (capLen : BitVec 16) (p : TwoSlot) (first j : Nat) (bs : List Bool),
    c.wf = true → c.cLenMin ≤ capLen.toNat → capLen.toNat ≤ c.cLenMax → bs.length = 28 →
    encodesC c m (dataEndC c capLen) c.cFirstSlot bs j = true → dataEndC c capLen < j + 2 →
    first + 2 * 28 ≤ c.capDepth → EncodesFixed (windowsOf c p) m' first 28 (fun k => bs.getD k false) →
    ∃ w w', assembleVar c m capLen Work.clear = .pass w ∧ assembleFixed c m' p 28 first Work.clear = .pass w'
      ∧ w.sr = w'.sr ∧ w.bitcnt = w'.bitcnt ∧ w.fb = w'.fb
      ∧ w.cursor.toNat = c.cFirstSlot + 2 * bs.count false + 6 * bs.count true

/-- R144: flipping one bit of FB[0], FB[1] or FB[2], or of FB[3], of a frame that passes CHECKSUM_C makes it fail. -/
def Obligations.ChecksumCatchesASingleFlippedBit : Prop :=
  ∀ (w : Work) (j : Fin 4) (k : Fin 8), checksumC w = .ok () →
    checksumC { w with fb := w.fb.set j.val (w.fb[j.val] ^^^ (1#8 <<< k.val)) } = .error .checksumMismatch

/-- R166: SIGN12 by its pseudocode, with the range check of R146. -/
def Obligations.SignTwelveRecoversSignAndMagnitude : Prop :=
  ∀ (c : Config) (traw : BitVec 12),
    (sign12 traw = if 2048 ≤ traw.toNat then { neg := true, mag := 4096 - traw.toNat } else { neg := false, mag := traw.toNat })
    ∧ ((sign12 traw).neg = true → 1 ≤ (sign12 traw).mag)
    ∧ inRange c .a (sign12 traw) = if (sign12 traw).mag ≤ 600 then .ok (sign12 traw) else .error .rangeViolation

/-- RESCALE_B's quotient, said without a division: 9·mag is the largest multiple of 9 within 5·|tcode − 1220|, and the
sign is set exactly when the quotient is negative, so there is no negative zero (R170). That the quotient is
truncated toward zero is the spec's own inference, 43_field_decoder.md R171: "Multiply-then-truncate is the spec's
choice." -/
def Obligations.RescaleTruncatesTowardZero : Prop :=
  ∀ tcode : BitVec 12,
    9 * ((rescaleB tcode).mag : Int) ≤ 5 * |(tcode.toNat : Int) - 1220|
    ∧ 5 * |(tcode.toNat : Int) - 1220| < 9 * ((rescaleB tcode).mag : Int) + 9
    ∧ ((rescaleB tcode).neg = true ↔ tcode.toNat < 1220 ∧ (rescaleB tcode).mag ≠ 0)

/-- R178: SIGN12 recovers every temperature of magnitude at most 600 from its two's-complement code, and FIELD_C every
temperature within C_TEMP_MAX and 999 from its decimal digits and sign bit; RESCALE_B, which loses information, does
not have such a law: two codes convert alike. -/
def Obligations.TemperatureRoundTrips : Prop :=
  (∀ (c : Config) (t : Int), |t| ≤ 600 →
    inRange c .a (sign12 (BitVec.ofInt 12 t)) = .ok { neg := decide (t < 0), mag := t.natAbs })
  ∧ (∀ (c : Config) (w : Work) (t : Int), t.natAbs ≤ c.cTempMax → t.natAbs ≤ 999 →
      field w 12 4 = BitVec.ofNat 4 (t.natAbs / 100) → field w 16 4 = BitVec.ofNat 4 (t.natAbs / 10 % 10) →
      field w 20 4 = BitVec.ofNat 4 (t.natAbs % 10) → frameBit w 8 = decide (t < 0) →
      ∃ r, fieldC c w = .ok r ∧ r.tempNeg = decide (t < 0) ∧ r.tempMag.toNat = t.natAbs)
  ∧ ∃ x y : BitVec 12, x ≠ y ∧ rescaleB x = rescaleB y

/-- R179: the ranges of the Field Decoder's results and of RESCALE_B's intermediate values; every magnitude fits the
15-bit TEMP_MAG. RESCALE_B's result range rests on its rounding (assumption log 14). -/
def Obligations.FieldDecoderStaysInRange : Prop :=
  (∀ t : BitVec 12,
    ((sign12 t).neg = true → 1 ≤ (sign12 t).mag ∧ (sign12 t).mag ≤ 2048)
      ∧ ((sign12 t).neg = false → (sign12 t).mag ≤ 2047))
  ∧ (∀ t : BitVec 12,
      -900 ≤ fahrenheitTenths t ∧ fahrenheitTenths t ≤ 3195
      ∧ -6100 ≤ rescaleDividend t ∧ rescaleDividend t ≤ 14375
      ∧ -677 ≤ celsiusTenths t ∧ celsiusTenths t ≤ 1597
      ∧ ((rescaleB t).neg = true → 1 ≤ (rescaleB t).mag ∧ (rescaleB t).mag ≤ 677) ∧ (rescaleB t).mag ≤ 1597)
  ∧ (∀ h t u : BitVec 4, bcd3 h t u ≤ 1665)
  ∧ (∀ w : Work, (tempC w).mag ≤ 1665)
  ∧ (∀ (w : Work) (t : Temp), 1 ≤ (recordA w t).channel.toNat ∧ (recordA w t).channel.toNat ≤ 4)
  ∧ ∀ (w : Work) (t : BitVec 12),
      (recordA w (sign12 t)).tempMag.toNat = (sign12 t).mag ∧ (recordB w (rescaleB t)).tempMag.toNat = (rescaleB t).mag
        ∧ (recordC w (tempC w)).tempMag.toNat = (tempC w).mag

/-- R176: a Protocol C frame with the sign bit set and all three digits 0 is reported with TEMP_NEG = 1, TEMP_MAG = 0
and TEMP_WORD = 0x8000. -/
def Obligations.NegativeZeroIsReportedAsSuch : Prop :=
  ∀ (c : Config) (w : Work), frameBit w 8 = true → field w 12 4 = 0 → field w 16 4 = 0 → field w 20 4 = 0 →
    ∃ r, fieldC c w = .ok r ∧ r.tempNeg = true ∧ r.tempMag = 0 ∧ tempWord r = 0x8000

/-- R192: a reading is emitted exactly when DUP_VALID = 0, the hash differs, the last acceptance is older than the
window, or the signature differs, and then ACCEPT runs, else SUPPRESS; R196: the age is modulo 2^32. -/
def Obligations.GateEmitsExactlyWhenTheRuleSays : Prop :=
  (∀ n t : BitVec 32, (age n t).toNat = (n.toNat + 2 ^ 32 - t.toNat) % 2 ^ 32)
  ∧ ∀ (n : BitVec 32) (r : Reading) (s : State),
      ((s.dup.valid = false ∨ s.capHash ≠ s.dup.hash ∨ 500 < (age n s.dup.time).toNat ∨ signature s.cfg r ≠ s.dup.sig) →
        dupCheck n r s = accept n r (signature s.cfg r) s)
      ∧ (¬ (s.dup.valid = false ∨ s.capHash ≠ s.dup.hash ∨ 500 < (age n s.dup.time).toNat
            ∨ signature s.cfg r ≠ s.dup.sig) →
        dupCheck n r s = suppress s)

/-! ## The host's side -/

/-- R41: the debug registers read back the DuplicateState, and reading them has no side effect. -/
def Obligations.DebugRegistersReadBackTheDuplicateState : Prop :=
  ∀ (s : State) (rest : List HostEvent), s.cfg.wf = true →
    (s.pending = .read 32 0x02C :: rest →
      step s = .next { s with pending := rest, busData := some (BitVec.ofNat 32 (s.dup.sig.toNat % 2 ^ 32)) })
    ∧ (s.pending = .read 32 0x030 :: rest →
      step s = .next { s with
        pending := rest
        busData := some (BitVec.ofNat 32 ((if s.dup.valid then 2 ^ 31 else 0) + s.dup.sig.toNat / 2 ^ 32)) })
    ∧ (s.pending = .read 32 0x034 :: rest → step s = .next { s with pending := rest, busData := some s.dup.hash })
    ∧ (s.pending = .read 32 0x038 :: rest → step s = .next { s with pending := rest, busData := some s.dup.time })

/-- What the host reads at each offset of R52's map: CMD and reserved offsets answer 0, CAP_LEN and a written slot
their value with zeros above, the DUPR_* registers the DuplicateState (R41), and no read changes anything but the bus
answer (R55, R56). An unwritten slot answers a free value of 16 bits with zeros above, about which nothing is known
(assumption log 7). -/
def Obligations.HostReadsAnswerTheRegisterMap : Prop :=
  ∀ (s : State) (offset : Nat) (rest : List HostEvent), s.cfg.wf = true → offset % 4 = 0 →
    s.pending = .read 32 offset :: rest →
    ∃ v, step s = .next { s with pending := rest, busData := some v }
      ∧ (offset = 0x000 → v = 0) ∧ (offset = 0x004 → v = s.status) ∧ (offset = 0x008 → v = s.capLen.setWidth 32)
      ∧ (offset = 0x00C → v = s.now) ∧ (offset = 0x010 → v = s.capHash)
      ∧ (offset = 0x014 → v = s.rd.protoId) ∧ (offset = 0x018 → v = s.rd.temp) ∧ (offset = 0x01C → v = s.rd.hum)
      ∧ (offset = 0x020 → v = s.rd.misc) ∧ (offset = 0x024 → v = s.rd.frameLo) ∧ (offset = 0x028 → v = s.rd.frameHi)
      ∧ (offset = 0x02C → v = BitVec.ofNat 32 (s.dup.sig.toNat % 2 ^ 32))
      ∧ (offset = 0x030 → v = BitVec.ofNat 32 ((if s.dup.valid then 2 ^ 31 else 0) + s.dup.sig.toNat / 2 ^ 32))
      ∧ (offset = 0x034 → v = s.dup.hash) ∧ (offset = 0x038 → v = s.dup.time)
      ∧ (∀ i d, i < s.cfg.capDepth → offset = 0x10000 + 4 * i → capRead s.capMem i = some d → v = d.setWidth 32)
      ∧ (∀ i, i < s.cfg.capDepth → offset = 0x10000 + 4 * i → capRead s.capMem i = none →
          v = (Config.unwrittenSlot s.epoch i).setWidth 32)
      ∧ (0x038 < offset → (offset < 0x10000 ∨ 0x10000 + 4 * s.cfg.capDepth ≤ offset) → v = 0)

/-- What a host write at each offset of R52's map but CMD's stores: CAP_LEN and a slot take the low 16 bits, and a
write to a read-only register or a reserved offset is ignored (R55). -/
def Obligations.HostWritesStoreOnlyWhatIsWritable : Prop :=
  ∀ (s : State) (offset : Nat) (v : Reg) (rest : List HostEvent), s.cfg.wf = true → offset % 4 = 0 →
    s.pending = .write 32 offset v :: rest →
    (offset = 0x008 → step s = .next { s with pending := rest, busData := none, capLen := v.setWidth 16 })
    ∧ (offset = 0x00C → step s = .next { s with pending := rest, busData := none, now := v })
    ∧ (offset = 0x010 → step s = .next { s with pending := rest, busData := none, capHash := v })
    ∧ (∀ i, i < s.cfg.capDepth → offset = 0x10000 + 4 * i →
        ∃ m, step s = .next { s with pending := rest, busData := none, capMem := m }
          ∧ ∀ a, capRead m a = if a = i then some (v.setWidth 16) else capRead s.capMem a)
    ∧ (offset = 0x004 ∨ (0x014 ≤ offset ∧ offset < 0x10000) ∨ 0x10000 + 4 * s.cfg.capDepth ≤ offset →
        step s = .next { s with pending := rest, busData := none })

/-- A host access that is not 32 bits wide or not at a multiple of 4 is refused (R55). -/
def Obligations.OtherAccessesAreRefused : Prop :=
  ∀ (s : State) (bits offset : Nat) (v : Reg) (rest : List HostEvent), s.cfg.wf = true →
    bits ≠ 32 ∨ offset % 4 ≠ 0 →
    (s.pending = .read bits offset :: rest → step s = .refused (.accessNotAdmitted bits offset))
    ∧ (s.pending = .write bits offset v :: rest → step s = .refused (.accessNotAdmitted bits offset))

/-- LOADCAP leaves its values in the first slots and their count in CAP_LEN, and changes nothing else but the bus
answer (R81, R59). -/
def Obligations.LoadcapLoadsTheCapture : Prop :=
  ∀ (s : State) (vs : List Dur), s.cfg.wf = true → vs.length ≤ s.cfg.capDepth →
    ∃ m, hostRun (loadCap vs) s =
        .next { s with capMem := m, capLen := BitVec.ofNat 16 vs.length, busData := none }
      ∧ (∀ i (h : i < vs.length), capRead m i = some vs[i])
      ∧ ∀ i, vs.length ≤ i → capRead m i = capRead s.capMem i

/-- DISPATCH ends as the first of DECODE.A, DECODE.B and DECODE.C that does not reject the capture ends on it, each
run as if the others had not; if all reject, as DECODE.C ends. Its last read of STATUS is on the bus (R82, R232). -/
def Obligations.DispatchTakesTheFirstDecoderThatDoesNotReject : Prop :=
  ∀ s ta : State, s.busData = none → exec .decodeA s = .next ta →
    (statusResult ta.status ≠ resultCode .rejected → dispatch s = .next { ta with busData := some ta.status })
    ∧ (statusResult ta.status = resultCode .rejected → ∀ tb, exec .decodeB s = .next tb →
        (statusResult tb.status ≠ resultCode .rejected → dispatch s = .next { tb with busData := some tb.status })
        ∧ (statusResult tb.status = resultCode .rejected → ∀ tc, exec .decodeC s = .next tc →
            dispatch s = .next { tc with busData := some tc.status }))
end

