-- ==== Sys2Proof/Laws/State.lean ====
section
/-! SUPPORT. What each named update of State does to each field: one lemma per field per update, and the updates that overwrite each other. -/

namespace Sys2Proof.Machine

/-! ## setCapMem -/

@[simp] theorem State.setCapMem_cfg (s : State) (v : Memory) : (s.setCapMem v).cfg = s.cfg := rfl
@[simp] theorem State.setCapMem_capMem (s : State) (v : Memory) : (s.setCapMem v).capMem = v := rfl
@[simp] theorem State.setCapMem_capLen (s : State) (v : Memory) : (s.setCapMem v).capLen = s.capLen := rfl
@[simp] theorem State.setCapMem_now (s : State) (v : Memory) : (s.setCapMem v).now = s.now := rfl
@[simp] theorem State.setCapMem_capHash (s : State) (v : Memory) : (s.setCapMem v).capHash = s.capHash := rfl
@[simp] theorem State.setCapMem_work (s : State) (v : Memory) : (s.setCapMem v).work = s.work := rfl
@[simp] theorem State.setCapMem_dup (s : State) (v : Memory) : (s.setCapMem v).dup = s.dup := rfl
@[simp] theorem State.setCapMem_status (s : State) (v : Memory) : (s.setCapMem v).status = s.status := rfl
@[simp] theorem State.setCapMem_rd (s : State) (v : Memory) : (s.setCapMem v).rd = s.rd := rfl
@[simp] theorem State.setCapMem_pending (s : State) (v : Memory) : (s.setCapMem v).pending = s.pending := rfl
@[simp] theorem State.setCapMem_busData (s : State) (v : Memory) : (s.setCapMem v).busData = s.busData := rfl
@[simp] theorem State.setCapMem_epoch (s : State) (v : Memory) : (s.setCapMem v).epoch = s.epoch := rfl
@[simp] theorem State.setCapMem_setCapMem (s : State) (v v' : Memory) : (s.setCapMem v).setCapMem v' = s.setCapMem v' := rfl

/-! ## setCapLen -/

@[simp] theorem State.setCapLen_cfg (s : State) (v : BitVec 16) : (s.setCapLen v).cfg = s.cfg := rfl
@[simp] theorem State.setCapLen_capMem (s : State) (v : BitVec 16) : (s.setCapLen v).capMem = s.capMem := rfl
@[simp] theorem State.setCapLen_capLen (s : State) (v : BitVec 16) : (s.setCapLen v).capLen = v := rfl
@[simp] theorem State.setCapLen_now (s : State) (v : BitVec 16) : (s.setCapLen v).now = s.now := rfl
@[simp] theorem State.setCapLen_capHash (s : State) (v : BitVec 16) : (s.setCapLen v).capHash = s.capHash := rfl
@[simp] theorem State.setCapLen_work (s : State) (v : BitVec 16) : (s.setCapLen v).work = s.work := rfl
@[simp] theorem State.setCapLen_dup (s : State) (v : BitVec 16) : (s.setCapLen v).dup = s.dup := rfl
@[simp] theorem State.setCapLen_status (s : State) (v : BitVec 16) : (s.setCapLen v).status = s.status := rfl
@[simp] theorem State.setCapLen_rd (s : State) (v : BitVec 16) : (s.setCapLen v).rd = s.rd := rfl
@[simp] theorem State.setCapLen_pending (s : State) (v : BitVec 16) : (s.setCapLen v).pending = s.pending := rfl
@[simp] theorem State.setCapLen_busData (s : State) (v : BitVec 16) : (s.setCapLen v).busData = s.busData := rfl
@[simp] theorem State.setCapLen_epoch (s : State) (v : BitVec 16) : (s.setCapLen v).epoch = s.epoch := rfl
@[simp] theorem State.setCapLen_setCapLen (s : State) (v v' : BitVec 16) : (s.setCapLen v).setCapLen v' = s.setCapLen v' := rfl

/-! ## setNow -/

@[simp] theorem State.setNow_cfg (s : State) (v : BitVec 32) : (s.setNow v).cfg = s.cfg := rfl
@[simp] theorem State.setNow_capMem (s : State) (v : BitVec 32) : (s.setNow v).capMem = s.capMem := rfl
@[simp] theorem State.setNow_capLen (s : State) (v : BitVec 32) : (s.setNow v).capLen = s.capLen := rfl
@[simp] theorem State.setNow_now (s : State) (v : BitVec 32) : (s.setNow v).now = v := rfl
@[simp] theorem State.setNow_capHash (s : State) (v : BitVec 32) : (s.setNow v).capHash = s.capHash := rfl
@[simp] theorem State.setNow_work (s : State) (v : BitVec 32) : (s.setNow v).work = s.work := rfl
@[simp] theorem State.setNow_dup (s : State) (v : BitVec 32) : (s.setNow v).dup = s.dup := rfl
@[simp] theorem State.setNow_status (s : State) (v : BitVec 32) : (s.setNow v).status = s.status := rfl
@[simp] theorem State.setNow_rd (s : State) (v : BitVec 32) : (s.setNow v).rd = s.rd := rfl
@[simp] theorem State.setNow_pending (s : State) (v : BitVec 32) : (s.setNow v).pending = s.pending := rfl
@[simp] theorem State.setNow_busData (s : State) (v : BitVec 32) : (s.setNow v).busData = s.busData := rfl
@[simp] theorem State.setNow_epoch (s : State) (v : BitVec 32) : (s.setNow v).epoch = s.epoch := rfl
@[simp] theorem State.setNow_setNow (s : State) (v v' : BitVec 32) : (s.setNow v).setNow v' = s.setNow v' := rfl

/-! ## setCapHash -/

@[simp] theorem State.setCapHash_cfg (s : State) (v : BitVec 32) : (s.setCapHash v).cfg = s.cfg := rfl
@[simp] theorem State.setCapHash_capMem (s : State) (v : BitVec 32) : (s.setCapHash v).capMem = s.capMem := rfl
@[simp] theorem State.setCapHash_capLen (s : State) (v : BitVec 32) : (s.setCapHash v).capLen = s.capLen := rfl
@[simp] theorem State.setCapHash_now (s : State) (v : BitVec 32) : (s.setCapHash v).now = s.now := rfl
@[simp] theorem State.setCapHash_capHash (s : State) (v : BitVec 32) : (s.setCapHash v).capHash = v := rfl
@[simp] theorem State.setCapHash_work (s : State) (v : BitVec 32) : (s.setCapHash v).work = s.work := rfl
@[simp] theorem State.setCapHash_dup (s : State) (v : BitVec 32) : (s.setCapHash v).dup = s.dup := rfl
@[simp] theorem State.setCapHash_status (s : State) (v : BitVec 32) : (s.setCapHash v).status = s.status := rfl
@[simp] theorem State.setCapHash_rd (s : State) (v : BitVec 32) : (s.setCapHash v).rd = s.rd := rfl
@[simp] theorem State.setCapHash_pending (s : State) (v : BitVec 32) : (s.setCapHash v).pending = s.pending := rfl
@[simp] theorem State.setCapHash_busData (s : State) (v : BitVec 32) : (s.setCapHash v).busData = s.busData := rfl
@[simp] theorem State.setCapHash_epoch (s : State) (v : BitVec 32) : (s.setCapHash v).epoch = s.epoch := rfl
@[simp] theorem State.setCapHash_setCapHash (s : State) (v v' : BitVec 32) : (s.setCapHash v).setCapHash v' = s.setCapHash v' := rfl

/-! ## setWork -/

@[simp] theorem State.setWork_cfg (s : State) (v : Work) : (s.setWork v).cfg = s.cfg := rfl
@[simp] theorem State.setWork_capMem (s : State) (v : Work) : (s.setWork v).capMem = s.capMem := rfl
@[simp] theorem State.setWork_capLen (s : State) (v : Work) : (s.setWork v).capLen = s.capLen := rfl
@[simp] theorem State.setWork_now (s : State) (v : Work) : (s.setWork v).now = s.now := rfl
@[simp] theorem State.setWork_capHash (s : State) (v : Work) : (s.setWork v).capHash = s.capHash := rfl
@[simp] theorem State.setWork_work (s : State) (v : Work) : (s.setWork v).work = v := rfl
@[simp] theorem State.setWork_dup (s : State) (v : Work) : (s.setWork v).dup = s.dup := rfl
@[simp] theorem State.setWork_status (s : State) (v : Work) : (s.setWork v).status = s.status := rfl
@[simp] theorem State.setWork_rd (s : State) (v : Work) : (s.setWork v).rd = s.rd := rfl
@[simp] theorem State.setWork_pending (s : State) (v : Work) : (s.setWork v).pending = s.pending := rfl
@[simp] theorem State.setWork_busData (s : State) (v : Work) : (s.setWork v).busData = s.busData := rfl
@[simp] theorem State.setWork_epoch (s : State) (v : Work) : (s.setWork v).epoch = s.epoch := rfl
@[simp] theorem State.setWork_setWork (s : State) (v v' : Work) : (s.setWork v).setWork v' = s.setWork v' := rfl

/-! ## setDup -/

@[simp] theorem State.setDup_cfg (s : State) (v : Dup) : (s.setDup v).cfg = s.cfg := rfl
@[simp] theorem State.setDup_capMem (s : State) (v : Dup) : (s.setDup v).capMem = s.capMem := rfl
@[simp] theorem State.setDup_capLen (s : State) (v : Dup) : (s.setDup v).capLen = s.capLen := rfl
@[simp] theorem State.setDup_now (s : State) (v : Dup) : (s.setDup v).now = s.now := rfl
@[simp] theorem State.setDup_capHash (s : State) (v : Dup) : (s.setDup v).capHash = s.capHash := rfl
@[simp] theorem State.setDup_work (s : State) (v : Dup) : (s.setDup v).work = s.work := rfl
@[simp] theorem State.setDup_dup (s : State) (v : Dup) : (s.setDup v).dup = v := rfl
@[simp] theorem State.setDup_status (s : State) (v : Dup) : (s.setDup v).status = s.status := rfl
@[simp] theorem State.setDup_rd (s : State) (v : Dup) : (s.setDup v).rd = s.rd := rfl
@[simp] theorem State.setDup_pending (s : State) (v : Dup) : (s.setDup v).pending = s.pending := rfl
@[simp] theorem State.setDup_busData (s : State) (v : Dup) : (s.setDup v).busData = s.busData := rfl
@[simp] theorem State.setDup_epoch (s : State) (v : Dup) : (s.setDup v).epoch = s.epoch := rfl
@[simp] theorem State.setDup_setDup (s : State) (v v' : Dup) : (s.setDup v).setDup v' = s.setDup v' := rfl

/-! ## setStatus -/

@[simp] theorem State.setStatus_cfg (s : State) (v : Reg) : (s.setStatus v).cfg = s.cfg := rfl
@[simp] theorem State.setStatus_capMem (s : State) (v : Reg) : (s.setStatus v).capMem = s.capMem := rfl
@[simp] theorem State.setStatus_capLen (s : State) (v : Reg) : (s.setStatus v).capLen = s.capLen := rfl
@[simp] theorem State.setStatus_now (s : State) (v : Reg) : (s.setStatus v).now = s.now := rfl
@[simp] theorem State.setStatus_capHash (s : State) (v : Reg) : (s.setStatus v).capHash = s.capHash := rfl
@[simp] theorem State.setStatus_work (s : State) (v : Reg) : (s.setStatus v).work = s.work := rfl
@[simp] theorem State.setStatus_dup (s : State) (v : Reg) : (s.setStatus v).dup = s.dup := rfl
@[simp] theorem State.setStatus_status (s : State) (v : Reg) : (s.setStatus v).status = v := rfl
@[simp] theorem State.setStatus_rd (s : State) (v : Reg) : (s.setStatus v).rd = s.rd := rfl
@[simp] theorem State.setStatus_pending (s : State) (v : Reg) : (s.setStatus v).pending = s.pending := rfl
@[simp] theorem State.setStatus_busData (s : State) (v : Reg) : (s.setStatus v).busData = s.busData := rfl
@[simp] theorem State.setStatus_epoch (s : State) (v : Reg) : (s.setStatus v).epoch = s.epoch := rfl
@[simp] theorem State.setStatus_setStatus (s : State) (v v' : Reg) : (s.setStatus v).setStatus v' = s.setStatus v' := rfl

/-! ## setRd -/

@[simp] theorem State.setRd_cfg (s : State) (v : ReadRegs) : (s.setRd v).cfg = s.cfg := rfl
@[simp] theorem State.setRd_capMem (s : State) (v : ReadRegs) : (s.setRd v).capMem = s.capMem := rfl
@[simp] theorem State.setRd_capLen (s : State) (v : ReadRegs) : (s.setRd v).capLen = s.capLen := rfl
@[simp] theorem State.setRd_now (s : State) (v : ReadRegs) : (s.setRd v).now = s.now := rfl
@[simp] theorem State.setRd_capHash (s : State) (v : ReadRegs) : (s.setRd v).capHash = s.capHash := rfl
@[simp] theorem State.setRd_work (s : State) (v : ReadRegs) : (s.setRd v).work = s.work := rfl
@[simp] theorem State.setRd_dup (s : State) (v : ReadRegs) : (s.setRd v).dup = s.dup := rfl
@[simp] theorem State.setRd_status (s : State) (v : ReadRegs) : (s.setRd v).status = s.status := rfl
@[simp] theorem State.setRd_rd (s : State) (v : ReadRegs) : (s.setRd v).rd = v := rfl
@[simp] theorem State.setRd_pending (s : State) (v : ReadRegs) : (s.setRd v).pending = s.pending := rfl
@[simp] theorem State.setRd_busData (s : State) (v : ReadRegs) : (s.setRd v).busData = s.busData := rfl
@[simp] theorem State.setRd_epoch (s : State) (v : ReadRegs) : (s.setRd v).epoch = s.epoch := rfl
@[simp] theorem State.setRd_setRd (s : State) (v v' : ReadRegs) : (s.setRd v).setRd v' = s.setRd v' := rfl

/-! ## setPending -/

@[simp] theorem State.setPending_cfg (s : State) (v : List HostEvent) : (s.setPending v).cfg = s.cfg := rfl
@[simp] theorem State.setPending_capMem (s : State) (v : List HostEvent) : (s.setPending v).capMem = s.capMem := rfl
@[simp] theorem State.setPending_capLen (s : State) (v : List HostEvent) : (s.setPending v).capLen = s.capLen := rfl
@[simp] theorem State.setPending_now (s : State) (v : List HostEvent) : (s.setPending v).now = s.now := rfl
@[simp] theorem State.setPending_capHash (s : State) (v : List HostEvent) : (s.setPending v).capHash = s.capHash := rfl
@[simp] theorem State.setPending_work (s : State) (v : List HostEvent) : (s.setPending v).work = s.work := rfl
@[simp] theorem State.setPending_dup (s : State) (v : List HostEvent) : (s.setPending v).dup = s.dup := rfl
@[simp] theorem State.setPending_status (s : State) (v : List HostEvent) : (s.setPending v).status = s.status := rfl
@[simp] theorem State.setPending_rd (s : State) (v : List HostEvent) : (s.setPending v).rd = s.rd := rfl
@[simp] theorem State.setPending_pending (s : State) (v : List HostEvent) : (s.setPending v).pending = v := rfl
@[simp] theorem State.setPending_busData (s : State) (v : List HostEvent) : (s.setPending v).busData = s.busData := rfl
@[simp] theorem State.setPending_epoch (s : State) (v : List HostEvent) : (s.setPending v).epoch = s.epoch := rfl
@[simp] theorem State.setPending_setPending (s : State) (v v' : List HostEvent) : (s.setPending v).setPending v' = s.setPending v' := rfl

/-! ## setBusData -/

@[simp] theorem State.setBusData_cfg (s : State) (v : Option Reg) : (s.setBusData v).cfg = s.cfg := rfl
@[simp] theorem State.setBusData_capMem (s : State) (v : Option Reg) : (s.setBusData v).capMem = s.capMem := rfl
@[simp] theorem State.setBusData_capLen (s : State) (v : Option Reg) : (s.setBusData v).capLen = s.capLen := rfl
@[simp] theorem State.setBusData_now (s : State) (v : Option Reg) : (s.setBusData v).now = s.now := rfl
@[simp] theorem State.setBusData_capHash (s : State) (v : Option Reg) : (s.setBusData v).capHash = s.capHash := rfl
@[simp] theorem State.setBusData_work (s : State) (v : Option Reg) : (s.setBusData v).work = s.work := rfl
@[simp] theorem State.setBusData_dup (s : State) (v : Option Reg) : (s.setBusData v).dup = s.dup := rfl
@[simp] theorem State.setBusData_status (s : State) (v : Option Reg) : (s.setBusData v).status = s.status := rfl
@[simp] theorem State.setBusData_rd (s : State) (v : Option Reg) : (s.setBusData v).rd = s.rd := rfl
@[simp] theorem State.setBusData_pending (s : State) (v : Option Reg) : (s.setBusData v).pending = s.pending := rfl
@[simp] theorem State.setBusData_busData (s : State) (v : Option Reg) : (s.setBusData v).busData = v := rfl
@[simp] theorem State.setBusData_epoch (s : State) (v : Option Reg) : (s.setBusData v).epoch = s.epoch := rfl
@[simp] theorem State.setBusData_setBusData (s : State) (v v' : Option Reg) : (s.setBusData v).setBusData v' = s.setBusData v' := rfl

/-! ## setEpoch -/

@[simp] theorem State.setEpoch_cfg (s : State) (v : Nat) : (s.setEpoch v).cfg = s.cfg := rfl
@[simp] theorem State.setEpoch_capMem (s : State) (v : Nat) : (s.setEpoch v).capMem = s.capMem := rfl
@[simp] theorem State.setEpoch_capLen (s : State) (v : Nat) : (s.setEpoch v).capLen = s.capLen := rfl
@[simp] theorem State.setEpoch_now (s : State) (v : Nat) : (s.setEpoch v).now = s.now := rfl
@[simp] theorem State.setEpoch_capHash (s : State) (v : Nat) : (s.setEpoch v).capHash = s.capHash := rfl
@[simp] theorem State.setEpoch_work (s : State) (v : Nat) : (s.setEpoch v).work = s.work := rfl
@[simp] theorem State.setEpoch_dup (s : State) (v : Nat) : (s.setEpoch v).dup = s.dup := rfl
@[simp] theorem State.setEpoch_status (s : State) (v : Nat) : (s.setEpoch v).status = s.status := rfl
@[simp] theorem State.setEpoch_rd (s : State) (v : Nat) : (s.setEpoch v).rd = s.rd := rfl
@[simp] theorem State.setEpoch_pending (s : State) (v : Nat) : (s.setEpoch v).pending = s.pending := rfl
@[simp] theorem State.setEpoch_busData (s : State) (v : Nat) : (s.setEpoch v).busData = s.busData := rfl
@[simp] theorem State.setEpoch_epoch (s : State) (v : Nat) : (s.setEpoch v).epoch = v := rfl
@[simp] theorem State.setEpoch_setEpoch (s : State) (v v' : Nat) : (s.setEpoch v).setEpoch v' = s.setEpoch v' := rfl

end Sys2Proof.Machine
end

