-- ==== Sys2Proof/Laws/Flags.lean ====
section
/-! SUPPORT. Laws of STATUS: what each field reads after each field is written, and STATUS as the epilogue and the abort leave it. -/

namespace Sys2Proof.Machine

/-- The written bits of a register hold the value, the others stay. -/
theorem getLsbD_setField (lo n : Nat) (v : BitVec n) (w : Reg) (k : Nat) :
    (setField lo n v w).getLsbD k =
      if k < 32 ∧ lo ≤ k ∧ k < lo + n then v.getLsbD (k - lo) else w.getLsbD k := by
  simp only [setField, BitVec.getLsbD_or, BitVec.getLsbD_and, BitVec.getLsbD_not, BitVec.getLsbD_shiftLeft,
    BitVec.getLsbD_setWidth, BitVec.getLsbD_allOnes]
  by_cases h32 : k < 32
  · by_cases hlo : lo ≤ k
    · by_cases hn : k < lo + n
      · have h1 : k - lo < 32 := by omega
        have h2 : k - lo < n := by omega
        have h3 : ¬ k < lo := by omega
        simp [h32, hlo, hn, h1, h2, h3]
      · have h2 : ¬ k - lo < n := by omega
        have h3 : v.getLsbD (k - lo) = false := BitVec.getLsbD_of_ge v (k - lo) (by omega)
        simp [h32, hlo, hn, h2, h3]
    · have h3 : k < lo := by omega
      simp [h32, hlo, h3]
  · have : w.getLsbD k = false := BitVec.getLsbD_of_ge w k (by omega)
    simp [h32, this]

/-- A field read through the bits it was written to. -/
theorem extractLsb'_setField_same {lo n : Nat} (v : BitVec n) (w : Reg) (h : lo + n ≤ 32) :
    (setField lo n v w).extractLsb' lo n = v := by
  apply BitVec.eq_of_getLsbD_eq
  intro k hk
  have h1 : lo + k < 32 := by omega
  simp only [BitVec.getLsbD_extractLsb', getLsbD_setField]
  simp [h1, hk]

/-- A field that does not meet the bits written stays. -/
theorem extractLsb'_setField_other {lo n lo' n' : Nat} (v : BitVec n) (w : Reg)
    (h : lo' + n' ≤ lo ∨ lo + n ≤ lo') : (setField lo n v w).extractLsb' lo' n' = w.extractLsb' lo' n' := by
  ext k hk
  have : ¬ (lo' + k < 32 ∧ lo ≤ lo' + k ∧ lo' + k < lo + n) := by omega
  simp [getLsbD_setField, this]

theorem getLsbD_setField_other {lo n k : Nat} (v : BitVec n) (w : Reg) (h : k < lo ∨ lo + n ≤ k) :
    (setField lo n v w).getLsbD k = w.getLsbD k := by
  have : ¬ (k < 32 ∧ lo ≤ k ∧ k < lo + n) := by omega
  simp [getLsbD_setField, this]

/-! ## Each field after each write -/

@[simp] theorem statusDone_setDone (w : Reg) : statusDone (setDone w) = true := by
  simp [statusDone, setDone, getLsbD_setField]
@[simp] theorem statusDone_setResult (r : Result) (w : Reg) : statusDone (setResult r w) = statusDone w :=
  getLsbD_setField_other _ _ (by omega)
@[simp] theorem statusDone_setErr (e : ErrorCode) (w : Reg) : statusDone (setErr e w) = statusDone w :=
  getLsbD_setField_other _ _ (by omega)
@[simp] theorem statusDone_setReqIgnoreRepeats (w : Reg) : statusDone (setReqIgnoreRepeats w) = statusDone w :=
  getLsbD_setField_other _ _ (by omega)
@[simp] theorem statusDone_setReqResetCount (w : Reg) : statusDone (setReqResetCount w) = statusDone w :=
  getLsbD_setField_other _ _ (by omega)
@[simp] theorem statusDone_setBitcnt (n : BitVec 6) (w : Reg) : statusDone (setBitcnt n w) = statusDone w :=
  getLsbD_setField_other _ _ (by omega)

@[simp] theorem statusResult_setDone (w : Reg) : statusResult (setDone w) = statusResult w :=
  extractLsb'_setField_other _ _ (by omega)
@[simp] theorem statusResult_setResult (r : Result) (w : Reg) : statusResult (setResult r w) = resultCode r :=
  extractLsb'_setField_same _ _ (by omega)
@[simp] theorem statusResult_setErr (e : ErrorCode) (w : Reg) : statusResult (setErr e w) = statusResult w :=
  extractLsb'_setField_other _ _ (by omega)
@[simp] theorem statusResult_setReqIgnoreRepeats (w : Reg) :
    statusResult (setReqIgnoreRepeats w) = statusResult w := extractLsb'_setField_other _ _ (by omega)
@[simp] theorem statusResult_setReqResetCount (w : Reg) : statusResult (setReqResetCount w) = statusResult w :=
  extractLsb'_setField_other _ _ (by omega)
@[simp] theorem statusResult_setBitcnt (n : BitVec 6) (w : Reg) : statusResult (setBitcnt n w) = statusResult w :=
  extractLsb'_setField_other _ _ (by omega)

@[simp] theorem statusErr_setDone (w : Reg) : statusErr (setDone w) = statusErr w :=
  extractLsb'_setField_other _ _ (by omega)
@[simp] theorem statusErr_setResult (r : Result) (w : Reg) : statusErr (setResult r w) = statusErr w :=
  extractLsb'_setField_other _ _ (by omega)
@[simp] theorem statusErr_setErr (e : ErrorCode) (w : Reg) : statusErr (setErr e w) = errorCode e :=
  extractLsb'_setField_same _ _ (by omega)
@[simp] theorem statusErr_setReqIgnoreRepeats (w : Reg) : statusErr (setReqIgnoreRepeats w) = statusErr w :=
  extractLsb'_setField_other _ _ (by omega)
@[simp] theorem statusErr_setReqResetCount (w : Reg) : statusErr (setReqResetCount w) = statusErr w :=
  extractLsb'_setField_other _ _ (by omega)
@[simp] theorem statusErr_setBitcnt (n : BitVec 6) (w : Reg) : statusErr (setBitcnt n w) = statusErr w :=
  extractLsb'_setField_other _ _ (by omega)

@[simp] theorem statusReqIgnoreRepeats_setDone (w : Reg) :
    statusReqIgnoreRepeats (setDone w) = statusReqIgnoreRepeats w := getLsbD_setField_other _ _ (by omega)
@[simp] theorem statusReqIgnoreRepeats_setResult (r : Result) (w : Reg) :
    statusReqIgnoreRepeats (setResult r w) = statusReqIgnoreRepeats w := getLsbD_setField_other _ _ (by omega)
@[simp] theorem statusReqIgnoreRepeats_setErr (e : ErrorCode) (w : Reg) :
    statusReqIgnoreRepeats (setErr e w) = statusReqIgnoreRepeats w := getLsbD_setField_other _ _ (by omega)
@[simp] theorem statusReqIgnoreRepeats_setReqIgnoreRepeats (w : Reg) :
    statusReqIgnoreRepeats (setReqIgnoreRepeats w) = true := by
  simp [statusReqIgnoreRepeats, setReqIgnoreRepeats, getLsbD_setField]
@[simp] theorem statusReqIgnoreRepeats_setReqResetCount (w : Reg) :
    statusReqIgnoreRepeats (setReqResetCount w) = statusReqIgnoreRepeats w := getLsbD_setField_other _ _ (by omega)
@[simp] theorem statusReqIgnoreRepeats_setBitcnt (n : BitVec 6) (w : Reg) :
    statusReqIgnoreRepeats (setBitcnt n w) = statusReqIgnoreRepeats w := getLsbD_setField_other _ _ (by omega)

@[simp] theorem statusReqResetCount_setDone (w : Reg) :
    statusReqResetCount (setDone w) = statusReqResetCount w := getLsbD_setField_other _ _ (by omega)
@[simp] theorem statusReqResetCount_setResult (r : Result) (w : Reg) :
    statusReqResetCount (setResult r w) = statusReqResetCount w := getLsbD_setField_other _ _ (by omega)
@[simp] theorem statusReqResetCount_setErr (e : ErrorCode) (w : Reg) :
    statusReqResetCount (setErr e w) = statusReqResetCount w := getLsbD_setField_other _ _ (by omega)
@[simp] theorem statusReqResetCount_setReqIgnoreRepeats (w : Reg) :
    statusReqResetCount (setReqIgnoreRepeats w) = statusReqResetCount w := getLsbD_setField_other _ _ (by omega)
@[simp] theorem statusReqResetCount_setReqResetCount (w : Reg) :
    statusReqResetCount (setReqResetCount w) = true := by
  simp [statusReqResetCount, setReqResetCount, getLsbD_setField]
@[simp] theorem statusReqResetCount_setBitcnt (n : BitVec 6) (w : Reg) :
    statusReqResetCount (setBitcnt n w) = statusReqResetCount w := getLsbD_setField_other _ _ (by omega)

@[simp] theorem statusBitcnt_setDone (w : Reg) : statusBitcnt (setDone w) = statusBitcnt w :=
  extractLsb'_setField_other _ _ (by omega)
@[simp] theorem statusBitcnt_setBitcnt (n : BitVec 6) (w : Reg) : statusBitcnt (setBitcnt n w) = n :=
  extractLsb'_setField_same _ _ (by omega)

@[simp] theorem statusReserved_setDone (w : Reg) : statusReserved (setDone w) = statusReserved w :=
  extractLsb'_setField_other _ _ (by omega)
@[simp] theorem statusReserved_setResult (r : Result) (w : Reg) :
    statusReserved (setResult r w) = statusReserved w := extractLsb'_setField_other _ _ (by omega)
@[simp] theorem statusReserved_setErr (e : ErrorCode) (w : Reg) :
    statusReserved (setErr e w) = statusReserved w := extractLsb'_setField_other _ _ (by omega)
@[simp] theorem statusReserved_setReqIgnoreRepeats (w : Reg) :
    statusReserved (setReqIgnoreRepeats w) = statusReserved w := extractLsb'_setField_other _ _ (by omega)
@[simp] theorem statusReserved_setReqResetCount (w : Reg) :
    statusReserved (setReqResetCount w) = statusReserved w := extractLsb'_setField_other _ _ (by omega)
@[simp] theorem statusReserved_setBitcnt (n : BitVec 6) (w : Reg) :
    statusReserved (setBitcnt n w) = statusReserved w := extractLsb'_setField_other _ _ (by omega)

/-! ## The cleared STATUS of the prologue -/

@[simp] theorem statusDone_zero : statusDone 0#32 = false := by decide
@[simp] theorem statusResult_zero : statusResult 0#32 = 0#2 := by decide
@[simp] theorem statusErr_zero : statusErr 0#32 = 0#3 := by decide
@[simp] theorem statusReqIgnoreRepeats_zero : statusReqIgnoreRepeats 0#32 = false := by decide
@[simp] theorem statusReqResetCount_zero : statusReqResetCount 0#32 = false := by decide
@[simp] theorem statusBitcnt_zero : statusBitcnt 0#32 = 0#6 := by decide
@[simp] theorem statusReserved_zero : statusReserved 0#32 = 0#18 := by decide

/-! ## Two STATUS values with equal fields are equal -/

/-- STATUS is its seven fields (R31's table covers all 32 bits). -/
theorem status_ext {v w : Reg} (hd : statusDone v = statusDone w) (hr : statusResult v = statusResult w)
    (he : statusErr v = statusErr w) (hi : statusReqIgnoreRepeats v = statusReqIgnoreRepeats w)
    (hc : statusReqResetCount v = statusReqResetCount w) (hb : statusBitcnt v = statusBitcnt w)
    (hz : statusReserved v = statusReserved w) : v = w := by
  have field_eq : ∀ {lo n : Nat}, v.extractLsb' lo n = w.extractLsb' lo n →
      ∀ k, lo ≤ k → k < lo + n → v.getLsbD k = w.getLsbD k := by
    intro lo n h k h1 h2
    have := congrArg (fun x => x.getLsbD (k - lo)) h
    have hk : lo + (k - lo) = k := by omega
    have hn : k - lo < n := by omega
    simpa [hn, hk] using this
  apply BitVec.eq_of_getLsbD_eq
  intro k hk
  by_cases h0 : k = 0
  · subst h0; exact hd
  by_cases h6 : k = 6
  · subst h6; exact hi
  by_cases h7 : k = 7
  · subst h7; exact hc
  by_cases h1 : k < 3
  · exact field_eq hr k (by omega) (by omega)
  by_cases h2 : k < 6
  · exact field_eq he k (by omega) (by omega)
  by_cases h3 : k < 14
  · exact field_eq hb k (by omega) (by omega)
  · exact field_eq hz k (by omega) (by omega)

/-! ## STATUS as the shared operations leave it -/

@[simp] theorem prologue_status (s : State) : (prologue s).status = 0 := rfl

@[simp] theorem epilogue_status (n : BitVec 6) (s : State) :
    (epilogue n s).status = setDone (setBitcnt n s.status) := rfl

@[simp] theorem abort_status (e : ErrorCode) (n : BitVec 6) (s : State) :
    (abort e n s).status = setDone (setBitcnt n (setErr e (setResult .rejected s.status))) := rfl

end Sys2Proof.Machine
end

