-- ==== Sys2Proof/Laws/Command.lean ====
section
/-! SUPPORT. What a stage, a command and a DECODE can answer: one inversion lemma for each shared operation, so that no proof unfolds a pipeline twice. -/

namespace Sys2Proof.Machine

/-! ## Stages -/

@[simp] theorem Stage.andThen_pass {α β : Type} (a : α) (f : α → Stage β) : (Stage.pass a).andThen f = f a := rfl
@[simp] theorem Stage.andThen_raise {α β : Type} (e : ErrorCode) (w : Work) (f : α → Stage β) :
    (Stage.raise e w : Stage α).andThen f = .raise e w := rfl
@[simp] theorem Stage.andThen_fault {α β : Type} (g : Fault) (f : α → Stage β) :
    (Stage.fault g : Stage α).andThen f = .fault g := rfl
@[simp] theorem Stage.check_ok {α : Type} (w : Work) (a : α) : Stage.check w (.ok a) = .pass a := rfl
@[simp] theorem Stage.check_error {α : Type} (w : Work) (e : ErrorCode) :
    (Stage.check w (.error e) : Stage α) = .raise e w := rfl

theorem Stage.andThen_eq_pass {α β : Type} {x : Stage α} {f : α → Stage β} {b : β} :
    x.andThen f = .pass b ↔ ∃ a, x = .pass a ∧ f a = .pass b := by
  cases x <;> simp

theorem Stage.andThen_eq_raise {α β : Type} {x : Stage α} {f : α → Stage β} {e : ErrorCode} {w : Work} :
    x.andThen f = .raise e w ↔ x = .raise e w ∨ ∃ a, x = .pass a ∧ f a = .raise e w := by
  cases x <;> simp

theorem Stage.andThen_eq_fault {α β : Type} {x : Stage α} {f : α → Stage β} {g : Fault} :
    x.andThen f = .fault g ↔ x = .fault g ∨ ∃ a, x = .pass a ∧ f a = .fault g := by
  cases x <;> simp

theorem Stage.check_eq_pass {α : Type} {w : Work} {x : Except ErrorCode α} {a : α} :
    Stage.check w x = .pass a ↔ x = .ok a := by
  cases x <;> simp

theorem Stage.check_eq_raise {α : Type} {w w' : Work} {x : Except ErrorCode α} {e : ErrorCode} :
    Stage.check w x = .raise e w' ↔ x = .error e ∧ w = w' := by
  cases x <;> simp

theorem Stage.check_ne_fault {α : Type} {w : Work} {x : Except ErrorCode α} {g : Fault} :
    Stage.check w x ≠ .fault g := by
  cases x <;> simp

/-! ## Checks -/

@[simp] theorem require_true (e : ErrorCode) : require true e = .ok () := rfl
@[simp] theorem require_false (e : ErrorCode) : require false e = .error e := rfl

theorem require_eq_ok {b : Bool} {e : ErrorCode} {u : Unit} : require b e = .ok u ↔ b = true := by
  cases b <;> simp

theorem require_eq_error {b : Bool} {e e' : ErrorCode} : require b e = .error e' ↔ b = false ∧ e = e' := by
  cases b <;> simp

theorem lengthCheck_error {c : Config} {p : Protocol} {n : BitVec 16} {e : ErrorCode}
    (h : lengthCheck c p n = .error e) : e = .lengthMismatch := by
  cases p <;> exact (require_eq_error.1 h).2.symm

theorem zeroCheck_error {p : Protocol} {w : Work} {e : ErrorCode} (h : zeroCheck p w = .error e) :
    e = .zeroFrameArtifact := by
  cases p <;> exact (require_eq_error.1 h).2.symm

theorem checksumC_error {w : Work} {e : ErrorCode} (h : checksumC w = .error e) : e = .checksumMismatch :=
  (require_eq_error.1 h).2.symm

theorem inRange_of_le {c : Config} {p : Protocol} {t : Temp} (h : t.mag ≤ tempMax c p) : inRange c p t = .ok t := by
  simp [inRange, rangeTemp, h]

theorem inRange_of_lt {c : Config} {p : Protocol} {t : Temp} (h : tempMax c p < t.mag) :
    inRange c p t = .error .rangeViolation := by
  have : ¬ t.mag ≤ tempMax c p := by omega
  simp [inRange, rangeTemp, this]

theorem inRange_cases (c : Config) (p : Protocol) (t : Temp) :
    (t.mag ≤ tempMax c p ∧ inRange c p t = .ok t)
      ∨ (tempMax c p < t.mag ∧ inRange c p t = .error .rangeViolation) := by
  by_cases h : t.mag ≤ tempMax c p
  · exact .inl ⟨h, inRange_of_le h⟩
  · exact .inr ⟨by omega, inRange_of_lt (by omega)⟩

theorem rangeHum_cases (p : TwoSlot) (h : Byte) :
    (h.toNat ≤ humMax p ∧ rangeHum p h = .ok ()) ∨ (humMax p < h.toNat ∧ rangeHum p h = .error .rangeViolation) := by
  by_cases hh : h.toNat ≤ humMax p
  · exact .inl ⟨hh, by simp [rangeHum, hh]⟩
  · exact .inr ⟨by omega, by simp [rangeHum, hh]⟩

/-- FIELD_A by cases: a record, or a range violation. -/
theorem fieldA_cases (c : Config) (w : Work) :
    (((sign12 (field w 16 12)).mag ≤ Param.aTempMax ∧ (field w 28 8).toNat ≤ Param.aHumMax)
        ∧ fieldA c w = .ok (recordA w (sign12 (field w 16 12))))
      ∨ ((Param.aTempMax < (sign12 (field w 16 12)).mag ∨ Param.aHumMax < (field w 28 8).toNat)
        ∧ fieldA c w = .error .rangeViolation) := by
  rcases inRange_cases c .a (sign12 (field w 16 12)) with ⟨h, e⟩ | ⟨h, e⟩
  · rcases rangeHum_cases .a (field w 28 8) with ⟨h', e'⟩ | ⟨h', e'⟩
    · exact .inl ⟨⟨h, h'⟩, by simp [fieldA, e, e']⟩
    · exact .inr ⟨.inr h', by simp [fieldA, e, e']⟩
  · exact .inr ⟨.inl h, by simp [fieldA, e]⟩

/-- FIELD_B by cases. -/
theorem fieldB_cases (c : Config) (w : Work) :
    (((rescaleB (field w 8 12)).mag ≤ c.bTempMax ∧ (field w 20 8).toNat ≤ Param.bHumMaxBcd)
        ∧ fieldB c w = .ok (recordB w (rescaleB (field w 8 12))))
      ∨ ((c.bTempMax < (rescaleB (field w 8 12)).mag ∨ Param.bHumMaxBcd < (field w 20 8).toNat)
        ∧ fieldB c w = .error .rangeViolation) := by
  rcases inRange_cases c .b (rescaleB (field w 8 12)) with ⟨h, e⟩ | ⟨h, e⟩
  · rcases rangeHum_cases .b (field w 20 8) with ⟨h', e'⟩ | ⟨h', e'⟩
    · exact .inl ⟨⟨h, h'⟩, by simp [fieldB, e, e']⟩
    · exact .inr ⟨.inr h', by simp [fieldB, e, e']⟩
  · exact .inr ⟨.inl h, by simp [fieldB, e]⟩

/-- FIELD_C by cases. -/
theorem fieldC_cases (c : Config) (w : Work) :
    ((tempC w).mag ≤ c.cTempMax ∧ fieldC c w = .ok (recordC w (tempC w)))
      ∨ (c.cTempMax < (tempC w).mag ∧ fieldC c w = .error .rangeViolation) := by
  rcases inRange_cases c .c (tempC w) with ⟨h, e⟩ | ⟨h, e⟩
  · exact .inl ⟨h, by simp [fieldC, e]⟩
  · exact .inr ⟨h, by simp [fieldC, e]⟩

/-! ## Commands -/

theorem command_of_wf {s : State} (h : s.cfg.wf = true) (body : State → Answer State) :
    command s body = body (prologue s) := by
  simp [command, h]

theorem command_of_not_wf {s : State} (h : s.cfg.wf = false) (body : State → Answer State) :
    command s body = .refused .illFormedConfig := by
  simp [command, h]

/-- A command that goes on had a well-formed configuration, and is its body after the prologue. -/
theorem command_next {s t : State} {body : State → Answer State} (h : command s body = .next t) :
    s.cfg.wf = true ∧ body (prologue s) = .next t := by
  by_cases hw : s.cfg.wf = true
  · exact ⟨hw, by rwa [command_of_wf hw] at h⟩
  · simp [command, hw] at h

/-- STATUS after an abort. -/
def abortStatus (e : ErrorCode) (n : BitVec 6) : Reg := setDone (setBitcnt n (setErr e (setResult .rejected 0)))

/-- STATUS after an acceptance. -/
def acceptStatus (n : BitVec 6) : Reg :=
  setDone (setBitcnt n (setReqResetCount (setReqIgnoreRepeats (setResult .accepted 0))))

/-- STATUS after a suppression. -/
def suppressStatus (n : BitVec 6) : Reg := setDone (setBitcnt n (setResult .suppressed 0))

/-- STATUS after an abort, as the number its fields make: DONE, RESULT 3, ERR and BITCNT. -/
theorem abortStatus_eq (e : ErrorCode) (n : BitVec 6) :
    abortStatus e n = BitVec.ofNat 32 (7 + 8 * (errorCode e).toNat + 256 * n.toNat) := by
  revert n; cases e <;> decide

theorem acceptStatus_eq (n : BitVec 6) : acceptStatus n = BitVec.ofNat 32 (0xC3 + 256 * n.toNat) := by
  revert n; decide

theorem suppressStatus_eq (n : BitVec 6) : suppressStatus n = BitVec.ofNat 32 (5 + 256 * n.toNat) := by
  revert n; decide

/-- STATUS after NOP and DUPCLR: DONE alone. -/
theorem plainStatus_eq : setDone (setBitcnt 0 (setResult .none 0)) = 0x00000001 := by decide

/-- The state in which a DECODE's pipeline has ended with working state `w`. -/
theorem finishDecode_raise (now : BitVec 32) (s : State) (e : ErrorCode) (w : Work) :
    finishDecode now (clearWork (prologue s)) (.raise e w)
      = .next { s with work := w, status := abortStatus e w.bitcnt } := rfl

theorem finishDecode_pass (s : State) (d : Decoded) :
    finishDecode s.now (clearWork (prologue s)) (.pass d) =
      if emits s.dup s.capHash s.now (signature s.cfg d.reading) then
        .next { s with
          work := d.work
          status := acceptStatus d.work.bitcnt
          rd := packReading d.reading
          dup := dupOf (signature s.cfg d.reading) s.capHash s.now }
      else .next { s with work := d.work, status := suppressStatus d.work.bitcnt } := by
  simp only [finishDecode, dupCheck, clearWork, prologue, State.setWork, State.setStatus]
  split <;> rename_i h <;>
    simp [h, epilogue, accept, suppress, State.setDup, State.setRd, State.setStatus, acceptStatus, suppressStatus]

theorem decodeCommand_of_wf {s : State} (h : s.cfg.wf = true) (pipe : Capture → Stage Decoded) :
    decodeCommand pipe s = finishDecode s.now (clearWork (prologue s)) (pipe s.capture) := by
  simp only [decodeCommand, command_of_wf h]; rfl

/-- A DECODE whose pipeline raises an error. -/
theorem decodeCommand_raise {pipe : Capture → Stage Decoded} {s : State} {e : ErrorCode} {w : Work}
    (h : s.cfg.wf = true) (hp : pipe s.capture = .raise e w) :
    decodeCommand pipe s = .next { s with work := w, status := abortStatus e w.bitcnt } := by
  rw [decodeCommand_of_wf h, hp, finishDecode_raise]

/-- A DECODE whose pipeline reads an unwritten slot. -/
theorem decodeCommand_fault {pipe : Capture → Stage Decoded} {s : State} {f : Fault} (h : s.cfg.wf = true)
    (hp : pipe s.capture = .fault f) : decodeCommand pipe s = .fault f := by
  rw [decodeCommand_of_wf h, hp]; rfl

/-- A DECODE whose pipeline yields a reading that the gate lets through. -/
theorem decodeCommand_accept {pipe : Capture → Stage Decoded} {s : State} {d : Decoded} (h : s.cfg.wf = true)
    (hp : pipe s.capture = .pass d) (he : emits s.dup s.capHash s.now (signature s.cfg d.reading) = true) :
    decodeCommand pipe s = .next { s with
      work := d.work
      status := acceptStatus d.work.bitcnt
      rd := packReading d.reading
      dup := dupOf (signature s.cfg d.reading) s.capHash s.now } := by
  rw [decodeCommand_of_wf h, hp, finishDecode_pass, if_pos he]

/-- A DECODE whose pipeline yields a reading that the gate holds back. -/
theorem decodeCommand_suppress {pipe : Capture → Stage Decoded} {s : State} {d : Decoded} (h : s.cfg.wf = true)
    (hp : pipe s.capture = .pass d) (he : emits s.dup s.capHash s.now (signature s.cfg d.reading) = false) :
    decodeCommand pipe s = .next { s with work := d.work, status := suppressStatus d.work.bitcnt } := by
  rw [decodeCommand_of_wf h, hp, finishDecode_pass, if_neg (by simp [he])]

/-- Everything a DECODE that goes on can have done: aborted, accepted or suppressed. -/
theorem decodeCommand_next {pipe : Capture → Stage Decoded} {s t : State} (h : decodeCommand pipe s = .next t) :
    s.cfg.wf = true ∧
      ((∃ e w, pipe s.capture = .raise e w ∧ t = { s with work := w, status := abortStatus e w.bitcnt })
      ∨ ∃ d, pipe s.capture = .pass d ∧
          ((emits s.dup s.capHash s.now (signature s.cfg d.reading) = true ∧
              t = { s with
                work := d.work
                status := acceptStatus d.work.bitcnt
                rd := packReading d.reading
                dup := dupOf (signature s.cfg d.reading) s.capHash s.now })
          ∨ (emits s.dup s.capHash s.now (signature s.cfg d.reading) = false ∧
              t = { s with work := d.work, status := suppressStatus d.work.bitcnt }))) := by
  have hw := (command_next h).1
  refine ⟨hw, ?_⟩
  rw [decodeCommand_of_wf hw] at h
  cases hp : pipe s.capture with
  | fault f => rw [hp] at h; simp [finishDecode] at h
  | raise e w =>
    rw [hp, finishDecode_raise] at h
    exact .inl ⟨e, w, rfl, by simpa using h.symm⟩
  | pass d =>
    rw [hp, finishDecode_pass] at h
    refine .inr ⟨d, rfl, ?_⟩
    split at h
    · exact .inl ⟨by assumption, by simpa using h.symm⟩
    · rename_i he; exact .inr ⟨by simpa using he, by simpa using h.symm⟩

/-- A DECODE depends on the state before it through its capture, NOW, CAP_HASH and the DuplicateState only: the
working state and STATUS are cleared first. -/
theorem decodeCommand_setWork (pipe : Capture → Stage Decoded) (s : State) (w : Work) :
    decodeCommand pipe (s.setWork w) = decodeCommand pipe s := rfl

theorem decodeCommand_setStatus (pipe : Capture → Stage Decoded) (s : State) (v : Reg) :
    decodeCommand pipe (s.setStatus v) = decodeCommand pipe s := rfl

/-- NOP and DUPCLR. -/
theorem plainCommand_of_wf {s : State} (h : s.cfg.wf = true) (effect : State → State) :
    plainCommand effect s =
      .next (epilogue 0 ((effect (prologue s)).setStatus (setResult .none (effect (prologue s)).status))) := by
  simp only [plainCommand, command_of_wf h]

end Sys2Proof.Machine
end

