-- ==== Sys2Proof/Laws/Fields.lean ====
section
/-! SUPPORT. Laws of the shift register and of `field`: which bit stands where, and the fields of a frame of known bits as slices of the frame value. -/

namespace Sys2Proof.Machine

open Sys2Proof.Safety

/-! ## Shifting -/

@[simp] theorem shiftBit_cursor (b : Bool) (w : Work) : (shiftBit b w).cursor = w.cursor := rfl

theorem shiftBit_bitcnt (b : Bool) {w : Work} (h : w.bitcnt.toNat < 63) :
    (shiftBit b w).bitcnt.toNat = w.bitcnt.toNat + 1 := by
  have h1 : BitVec.toNat (1 : BitVec 6) = 1 := rfl
  simp only [shiftBit, BitVec.toNat_add, h1]
  omega

theorem shiftBit_sr_getLsbD (b : Bool) (w : Work) (k : Nat) (hk : k < 40) :
    (shiftBit b w).sr.getLsbD k = if k = 0 then b else w.sr.getLsbD (k - 1) := by
  simp only [shiftBit, BitVec.getLsbD_or, BitVec.getLsbD_shiftLeft]
  by_cases h0 : k = 0
  · subst h0; cases b <;> simp
  · have h1 : ¬ k < 1 := by omega
    have h2 : (if b then (1 : Frame) else 0).getLsbD k = false := by
      cases b
      · simp
      · simp [BitVec.getLsbD_one, h0]
    rw [h2, Bool.or_false, if_neg h0, decide_eq_true hk, decide_eq_false h1]
    simp

/-- Shifting a bit in leaves the earlier bits where they were and appends the new one. -/
theorem frameBit_shiftBit (b : Bool) {w : Work} (h : w.bitcnt.toNat < 40) (k : Nat) :
    frameBit (shiftBit b w) k = if k = w.bitcnt.toNat then b else frameBit w k := by
  have hc := shiftBit_bitcnt b (w := w) (by omega)
  simp only [frameBit, hc]
  by_cases h1 : k = w.bitcnt.toNat
  · subst h1
    have h2 : w.bitcnt.toNat + 1 - 1 - w.bitcnt.toNat = 0 := by omega
    rw [h2, shiftBit_sr_getLsbD b w 0 (by omega), if_pos rfl, if_pos rfl, decide_eq_true (by omega), Bool.true_and]
  · by_cases h2 : k < w.bitcnt.toNat
    · have h3 : ¬ (w.bitcnt.toNat + 1 - 1 - k = 0) := by omega
      have h4 : w.bitcnt.toNat + 1 - 1 - k - 1 = w.bitcnt.toNat - 1 - k := by omega
      rw [shiftBit_sr_getLsbD b w _ (by omega)]
      have h5 : k < w.bitcnt.toNat + 1 := by omega
      rw [if_neg h3, if_neg h1, h4, decide_eq_true h5, decide_eq_true h2]
    · have h3 : ¬ k < w.bitcnt.toNat + 1 := by omega
      simp [h1, h2, h3]

/-! ## Fields -/

/-- The bits of a field: its most significant bit is the earliest. -/
theorem field_getLsbD (w : Work) (k n i : Nat) :
    (field w k n).getLsbD i = (decide (i < n) && frameBit w (k + n - 1 - i)) := by
  induction n generalizing i with
  | zero => simp [field]
  | succ n ih =>
    simp only [field, BitVec.getLsbD_concat]
    by_cases h0 : i = 0
    · subst h0; simp
    · rw [if_neg h0, ih]
      by_cases hi : i < n + 1
      · have h1 : i - 1 < n := by omega
        have h2 : k + n - 1 - (i - 1) = k + (n + 1) - 1 - i := by omega
        simp [hi, h1, h2]
      · have h1 : ¬ i - 1 < n := by omega
        simp [hi, h1]

/-- A field depends on its own bits only. -/
theorem field_congr {w w' : Work} {k n : Nat} (h : ∀ i, k ≤ i → i < k + n → frameBit w i = frameBit w' i) :
    field w k n = field w' k n := by
  apply BitVec.eq_of_getLsbD_eq
  intro i hi
  rw [field_getLsbD, field_getLsbD, h _ (by omega) (by omega)]

/-- When the bits assembled are those of the frame `f`, `field(k, n)` is a slice of `f`. -/
theorem field_of_frame {N : Nat} {f : BitVec N} {w : Work} (hb : ∀ k < N, frameBit w k = f.getMsbD k) {k n lo : Nat}
    (hlo : lo + k + n = N) : field w k n = f.extractLsb' lo n := by
  apply BitVec.eq_of_getLsbD_eq
  intro i hi
  rw [field_getLsbD, hb _ (by omega), BitVec.getMsbD, BitVec.getLsbD_extractLsb']
  have h1 : k + n - 1 - i < N := by omega
  have h2 : N - 1 - (k + n - 1 - i) = lo + i := by omega
  simp [hi, h1, h2]

/-! ## A run of shifts -/

/-- What holds of the working state after the bits `bs` have been shifted into a clear one. -/
structure Holds (bs : List Bool) (w : Work) : Prop where
  count : w.bitcnt.toNat = bs.length
  bits  : ∀ k (h : k < bs.length), frameBit w k = bs[k]
  high  : ∀ k, bs.length ≤ k → w.sr.getLsbD k = false
  full  : ∀ j (h : j < 5), j < bs.length / 8 → w.fb[j] = field w (8 * j) 8
  empty : ∀ j (h : j < 5), bs.length / 8 ≤ j → w.fb[j] = 0

theorem holds_nil (c : BitVec 16) : Holds [] { Work.clear with cursor := c } where
  count := rfl
  bits := by simp
  high := by simp [Work.clear]
  full := by simp
  empty := by simp [Work.clear]

theorem Holds.advance {bs : List Bool} {w : Work} (h : Holds bs w) (n : Nat) : Holds bs (advance n w) where
  count := h.count
  bits := h.bits
  high := h.high
  full := fun j hj hl => by
    rw [show (Machine.advance n w).fb = w.fb from rfl, h.full j hj hl]
    exact field_congr fun _ _ _ => rfl
  empty := h.empty

theorem Holds.shift {bs : List Bool} {w : Work} (h : Holds bs w) (b : Bool) (hl : bs.length < 40) :
    Holds (bs ++ [b]) (shiftBit b w) := by
  have hc : (shiftBit b w).bitcnt.toNat = bs.length + 1 := by
    rw [shiftBit_bitcnt b (by rw [h.count]; omega), h.count]
  have hbits : ∀ k (hk : k < (bs ++ [b]).length), frameBit (shiftBit b w) k = (bs ++ [b])[k] := by
    intro k hk
    rw [frameBit_shiftBit b (by rw [h.count]; omega), h.count]
    by_cases h1 : k = bs.length
    · subst h1; simp
    · have h2 : k < bs.length := by simp at hk; omega
      rw [if_neg h1, h.bits k h2, List.getElem_append_left h2]
  have hold : ∀ k, k < bs.length → frameBit (shiftBit b w) k = frameBit w k := by
    intro k hk
    rw [frameBit_shiftBit b (by rw [h.count]; omega), h.count, if_neg (by omega)]
  have hn : (w.bitcnt + 1).toNat = bs.length + 1 := hc
  have hfb : ∀ j (hj : j < 5), (shiftBit b w).fb[j] =
      if (bs.length + 1) % 8 = 0 ∧ (bs.length + 1) / 8 - 1 = j then (shiftBit b w).sr.setWidth 8 else w.fb[j] := by
    intro j hj
    by_cases h8 : (bs.length + 1) % 8 = 0
    · have : (shiftBit b w).fb = w.fb.setIfInBounds ((bs.length + 1) / 8 - 1) ((shiftBit b w).sr.setWidth 8) := by
        simp only [shiftBit, hn, h8, if_true]
      simp only [this, Vector.getElem_setIfInBounds, h8, true_and]
    · have : (shiftBit b w).fb = w.fb := by simp only [shiftBit, hn, h8, if_false]
      simp only [this, h8, false_and, if_false]
  have hsr : (shiftBit b w).sr.setWidth 8 = field (shiftBit b w) (bs.length + 1 - 8) 8 ∨ bs.length + 1 < 8 := by
    by_cases h8 : bs.length + 1 < 8
    · exact .inr h8
    · left
      apply BitVec.eq_of_getLsbD_eq
      intro i hi
      rw [field_getLsbD, frameBit, hc, BitVec.getLsbD_setWidth]
      have h1 : bs.length + 1 - 8 + 8 - 1 - i < bs.length + 1 := by omega
      have h2 : bs.length + 1 - 1 - (bs.length + 1 - 8 + 8 - 1 - i) = i := by omega
      simp only [hi, h1, h2, decide_true, Bool.true_and]
  refine ⟨by simp [hc], hbits, ?_, ?_, ?_⟩
  · intro k hk
    simp at hk
    by_cases h40 : k < 40
    · rw [shiftBit_sr_getLsbD b w k h40, if_neg (by omega)]
      exact h.high _ (by omega)
    · exact BitVec.getLsbD_of_ge _ _ (by omega)
  · intro j hj hjl
    simp at hjl
    have hkeep : j < bs.length / 8 → w.fb[j] = field (shiftBit b w) (8 * j) 8 := by
      intro hlt
      rw [h.full j hj hlt]
      exact field_congr fun i _ _ => (hold i (by omega)).symm
    rw [hfb j hj]
    split
    · rename_i hc8
      rcases hsr with hsr | hsr
      · rw [hsr]; congr 1; omega
      · omega
    · exact hkeep (by omega)
  · intro j hj hjl
    simp at hjl
    rw [hfb j hj, if_neg (by omega)]
    exact h.empty j hj (by omega)

theorem shiftAll_append (bs : List Bool) (b : Bool) : shiftAll (bs ++ [b]) = shiftBit b (shiftAll bs) := by
  simp [shiftAll]

/-- The working state after at most 40 bits (R121). -/
theorem holds_shiftAll (bs : List Bool) (h : bs.length ≤ 40) : Holds bs (shiftAll bs) := by
  induction bs using List.reverseRecOn with
  | nil => exact holds_nil 0
  | append_singleton bs b ih =>
    simp at h
    rw [shiftAll_append]
    exact (ih (by omega)).shift b (by omega)

/-! ## Flushing -/

@[simp] theorem asmFlush_sr (w : Work) : (asmFlush w).sr = w.sr := by simp only [asmFlush]; split <;> rfl
@[simp] theorem asmFlush_bitcnt (w : Work) : (asmFlush w).bitcnt = w.bitcnt := by simp only [asmFlush]; split <;> rfl
@[simp] theorem asmFlush_cursor (w : Work) : (asmFlush w).cursor = w.cursor := by simp only [asmFlush]; split <;> rfl

@[simp] theorem frameBit_asmFlush (w : Work) (k : Nat) : frameBit (asmFlush w) k = frameBit w k := by
  simp [frameBit]

@[simp] theorem field_asmFlush (w : Work) (k n : Nat) : field (asmFlush w) k n = field w k n :=
  field_congr fun _ _ _ => frameBit_asmFlush w _

end Sys2Proof.Machine
end

