-- ==== Sys2Proof/Laws/Memory.lean ====
section
/-! SUPPORT. Laws of the capture memory: a write is read back and leaves every other slot alone, every operation keeps the canonical form, and what a CORE read answers. -/

namespace Sys2Proof.Machine

@[simp] theorem capRead_nil (i : Nat) : capRead [] i = none := rfl

@[simp] theorem capWritten_nil (i : Nat) : capWritten [] i = false := rfl

theorem capRead_capWrite (m : Memory) (i j : Nat) (v : Dur) :
    capRead (capWrite m i v) j = if j = i then some v else capRead m j := by
  induction m with
  | nil => simp [capWrite, capRead]
  | cons e rest ih =>
    obtain ⟨k, u⟩ := e
    simp only [capWrite]
    split
    · simp [capRead]
    · split
      · simp only [capRead]; split <;> simp_all
      · simp only [capRead, ih]; split <;> split <;> simp_all

@[simp] theorem capRead_capWrite_same (m : Memory) (i : Nat) (v : Dur) : capRead (capWrite m i v) i = some v := by
  simp [capRead_capWrite]

theorem capRead_capWrite_other (m : Memory) {i j : Nat} (v : Dur) (h : j ≠ i) :
    capRead (capWrite m i v) j = capRead m j := by
  simp [capRead_capWrite, h]

theorem risesFrom_capWrite {lo : Nat} {m : Memory} {i : Nat} (v : Dur) (hi : lo ≤ i) (h : risesFrom lo m = true) :
    risesFrom lo (capWrite m i v) = true := by
  induction m generalizing lo with
  | nil => simp [capWrite, risesFrom, hi]
  | cons e rest ih =>
    obtain ⟨k, u⟩ := e
    simp only [risesFrom, Bool.and_eq_true, decide_eq_true_eq] at h
    simp only [capWrite]
    split
    · simp only [risesFrom, Bool.and_eq_true, decide_eq_true_eq]; exact ⟨hi, by omega, h.2⟩
    · split
      · simp only [risesFrom, Bool.and_eq_true, decide_eq_true_eq]; exact ⟨hi, by subst_vars; exact h.2⟩
      · simp only [risesFrom, Bool.and_eq_true, decide_eq_true_eq]; exact ⟨h.1, ih (by omega) h.2⟩

/-- A write keeps the canonical form. -/
theorem wf_capWrite {m : Memory} (i : Nat) (v : Dur) (h : Memory.wf m = true) : Memory.wf (capWrite m i v) = true :=
  risesFrom_capWrite v (Nat.zero_le i) h

/-- The memory after reset has the canonical form. -/
theorem wf_reset (c : Config) : Memory.wf (State.resetOf c).capMem = true := rfl

/-- No host write other than one to the capture window touches the memory, and that one keeps the form. -/
theorem wf_storeReg (r : HostReg) (v : Reg) (s : State) (h : Memory.wf s.capMem = true) :
    Memory.wf (storeReg r v s).capMem = true := by
  cases r <;> simp only [storeReg, State.setCapLen, State.setNow, State.setCapHash, State.setCapMem] <;>
    first | exact h | exact wf_capWrite _ _ h

theorem capWritten_eq_false {m : Memory} {i : Nat} : capWritten m i = false ↔ capRead m i = none := by
  simp [capWritten]

/-- What a CORE read inside the capture memory answers. -/
theorem memRead_of_some {c : Config} {m : Memory} {i : Nat} {v : Dur} (hi : i < c.capDepth)
    (h : capRead m i = some v) : memRead c m i = .ok v := by
  simp [memRead, hi, h]

theorem memRead_of_none {c : Config} {m : Memory} {i : Nat} (hi : i < c.capDepth) (h : capRead m i = none) :
    memRead c m i = .error (.unwrittenCapture i) := by
  simp [memRead, hi, h]

/-- A CORE read inside the capture memory answers the slot's value, or the model fault that names the slot. -/
theorem memRead_cases {c : Config} (m : Memory) {i : Nat} (hi : i < c.capDepth) :
    (∃ v, capRead m i = some v ∧ memRead c m i = .ok v)
      ∨ (capWritten m i = false ∧ memRead c m i = .error (.unwrittenCapture i)) := by
  cases h : capRead m i with
  | some v => exact .inl ⟨v, rfl, memRead_of_some hi h⟩
  | none => exact .inr ⟨by simp [capWritten, h], memRead_of_none hi h⟩

/-- A CORE read looks at nothing but its own slot. -/
theorem memRead_congr {c : Config} {m m' : Memory} {i : Nat} (h : capRead m' i = capRead m i) :
    memRead c m' i = memRead c m i := by
  simp [memRead, h]

end Sys2Proof.Machine
end

