-- ==== Sys2Proof/Laws/Assembler.lean ====
section
/-! SUPPORT. Laws of the classifiers and the assemblers: everything CLASSIFY2, CLASSIFYC and the two assembly loops can do, what they do on a capture that encodes known bits, and which slots they look at. -/

namespace Sys2Proof.Machine

open Sys2Proof.Safety

/-- The outcome that stands for a bit. -/
def bitOutcome (b : Bool) : BitOutcome := if b then .one else .zero

@[simp] theorem asmShift_bitOutcome (b : Bool) (w : Work) : asmShift (bitOutcome b) w = shiftBit b w := by
  cases b <;> rfl

@[simp] theorem takeBit_error (w : Work) (f : Fault) : takeBit w (.error f) = .fault f := rfl

@[simp] theorem takeBit_rejected (w : Work) : takeBit w (.ok rejected) = .raise .timingOutOfTolerance w := rfl

@[simp] theorem takeBit_bit (w : Work) (b : Bool) (n : Nat) :
    takeBit w (.ok { outcome := bitOutcome b, consumed := n }) = .pass (advance n (shiftBit b w)) := by
  cases b <;> rfl

theorem advance_cursor {n : Nat} {w : Work} (h : w.cursor.toNat + n < 65536) :
    (advance n w).cursor.toNat = w.cursor.toNat + n := by
  simp only [advance, BitVec.toNat_add, BitVec.toNat_ofNat]; omega

theorem setCursor_cursor {i : Nat} (w : Work) (h : i < 65536) : (setCursor i w).cursor.toNat = i := by
  simp only [setCursor, BitVec.toNat_ofNat]; omega

/-! ## CLASSIFY2 -/

/-- Everything the judgement of a space can answer. -/
theorem judgeSpace_cases (win : FixedWindows) (sp : Dur) :
    judgeSpace win sp = rejected ∨ ∃ b, judgeSpace win sp = { outcome := bitOutcome b, consumed := 2 } := by
  simp only [judgeSpace]
  split
  · exact .inr ⟨true, rfl⟩
  · split
    · exact .inr ⟨false, rfl⟩
    · exact .inl rfl

/-- Everything CLASSIFY2 can answer inside the capture memory. -/
theorem classify2_cases (c : Config) (m : Memory) (p : TwoSlot) {i : Nat} (hd : i + 1 < c.capDepth) :
    (∃ k, i ≤ k ∧ k < i + 2 ∧ capWritten m k = false ∧ classify2 c m p i = .error (.unwrittenCapture k))
      ∨ classify2 c m p i = .ok rejected
      ∨ ∃ b, classify2 c m p i = .ok { outcome := bitOutcome b, consumed := 2 } := by
  rcases memRead_cases (c := c) m (i := i) (by omega) with ⟨mark, _, e⟩ | ⟨hw, e⟩
  · by_cases hm : (windowsOf c p).markCeil ≤ mark.toNat
    · exact .inr (.inl (by simp [classify2, e, hm]))
    · rcases memRead_cases (c := c) m (i := i + 1) hd with ⟨sp, _, e'⟩ | ⟨hw', e'⟩
      · rcases judgeSpace_cases (windowsOf c p) sp with hj | ⟨b, hj⟩
        · exact .inr (.inl (by simp [classify2, e, hm, e', hj]))
        · exact .inr (.inr ⟨b, by simp [classify2, e, hm, e', hj]⟩)
      · exact .inl ⟨i + 1, by omega, by omega, hw', by simp [classify2, e, hm, e']⟩
  · exact .inl ⟨i, by omega, by omega, hw, by simp [classify2, e]⟩

/-- A pair that encodes a bit is classified as that bit. -/
theorem classify2_of_pairIs {c : Config} {m : Memory} {p : TwoSlot} {i : Nat} {b : Bool}
    (hd : i + 1 < c.capDepth) (hw : (windowsOf c p).zeroHi < (windowsOf c p).oneTh)
    (h : pairIs (windowsOf c p) m i b = true) :
    classify2 c m p i = .ok { outcome := bitOutcome b, consumed := 2 } := by
  simp only [pairIs] at h
  split at h
  · rename_i mark sp h1 h2
    simp only [Bool.and_eq_true, decide_eq_true_eq] at h
    have hm : ¬ (windowsOf c p).markCeil ≤ mark.toNat := by omega
    simp only [classify2, memRead_of_some (by omega : i < c.capDepth) h1, memRead_of_some hd h2, hm, if_false]
    cases b
    · simp at h
      have : ¬ (windowsOf c p).oneTh < sp.toNat := by omega
      simp [judgeSpace, this, h, bitOutcome]
    · simp at h
      simp [judgeSpace, h, bitOutcome]
  · simp at h

/-- A pair that fits no bit is a reject. -/
theorem classify2_of_pairBad {c : Config} {m : Memory} {p : TwoSlot} {i : Nat}
    (hd : i + 1 < c.capDepth) (h : pairBad (windowsOf c p) m i = true) : classify2 c m p i = .ok rejected := by
  simp only [pairBad] at h
  split at h
  · simp at h
  · rename_i mark h1
    simp only [classify2, memRead_of_some (by omega : i < c.capDepth) h1]
    by_cases hm : (windowsOf c p).markCeil ≤ mark.toNat
    · simp [hm]
    · simp only [hm, decide_false, Bool.false_or] at h
      split at h
      · simp at h
      · rename_i sp h2
        simp only [memRead_of_some hd h2, hm, if_false]
        simp only [Bool.and_eq_true, decide_eq_true_eq, Bool.not_eq_true', Bool.and_eq_false_iff,
          decide_eq_false_iff_not] at h
        have h3 : ¬ (windowsOf c p).oneTh < sp.toNat := by omega
        have h4 : ¬ ((windowsOf c p).zeroLo ≤ sp.toNat ∧ sp.toNat ≤ (windowsOf c p).zeroHi) := by omega
        simp [judgeSpace, h3, h4]

/-- CLASSIFY2 looks at its two slots only. -/
theorem classify2_congr {c : Config} {m m' : Memory} {p : TwoSlot} {i : Nat}
    (h : ∀ a, i ≤ a → a < i + 2 → capRead m' a = capRead m a) : classify2 c m' p i = classify2 c m p i := by
  simp only [classify2, memRead_congr (c := c) (h i (by omega) (by omega)),
    memRead_congr (c := c) (h (i + 1) (by omega) (by omega))]

/-! ## CLASSIFYC -/

theorem sumFour_cases (c : Config) (m : Memory) {i : Nat} (hd : i + 4 ≤ c.capDepth) :
    (∃ k, i ≤ k ∧ k < i + 4 ∧ capWritten m k = false ∧ sumFour c m i = .error (.unwrittenCapture k))
      ∨ ∃ n, sumFour c m i = .ok n := by
  rcases memRead_cases (c := c) m (i := i) (by omega) with ⟨d0, _, e0⟩ | ⟨hw, e⟩
  · rcases memRead_cases (c := c) m (i := i + 1) (by omega) with ⟨d1, _, e1⟩ | ⟨hw, e⟩
    · rcases memRead_cases (c := c) m (i := i + 2) (by omega) with ⟨d2, _, e2⟩ | ⟨hw, e⟩
      · rcases memRead_cases (c := c) m (i := i + 3) (by omega) with ⟨d3, _, e3⟩ | ⟨hw, e⟩
        · exact .inr ⟨d0.toNat + d1.toNat + d2.toNat + d3.toNat, by simp [sumFour, e0, e1, e2, e3]⟩
        · exact .inl ⟨i + 3, by omega, by omega, hw, by simp [sumFour, e0, e1, e2, e]⟩
      · exact .inl ⟨i + 2, by omega, by omega, hw, by simp [sumFour, e0, e1, e]⟩
    · exact .inl ⟨i + 1, by omega, by omega, hw, by simp [sumFour, e0, e]⟩
  · exact .inl ⟨i, by omega, by omega, hw, by simp [sumFour, e]⟩

/-- Four written slots have their exact sum. -/
theorem sumFour_of_sumIs {c : Config} {m : Memory} {i : Nat} {p : Nat → Bool} (hd : i + 4 ≤ c.capDepth)
    (h : sumIs m i p = true) : ∃ n, sumFour c m i = .ok n ∧ p n = true := by
  simp only [sumIs] at h
  split at h
  · rename_i d0 d1 d2 d3 h0 h1 h2 h3
    exact ⟨_, by simp [sumFour, memRead_of_some (by omega : i < c.capDepth) h0,
      memRead_of_some (by omega : i + 1 < c.capDepth) h1, memRead_of_some (by omega : i + 2 < c.capDepth) h2,
      memRead_of_some (by omega : i + 3 < c.capDepth) h3], h⟩
  · simp at h

theorem sumFour_congr {c : Config} {m m' : Memory} {i : Nat}
    (h : ∀ a, i ≤ a → a < i + 4 → capRead m' a = capRead m a) : sumFour c m' i = sumFour c m i := by
  simp only [sumFour, memRead_congr (c := c) (h i (by omega) (by omega)),
    memRead_congr (c := c) (h (i + 1) (by omega) (by omega)), memRead_congr (c := c) (h (i + 2) (by omega) (by omega)),
    memRead_congr (c := c) (h (i + 3) (by omega) (by omega))]

/-- The slots a bit takes in Protocol C's encoding. -/
def slotsC (b : Bool) : Nat := if b then 6 else 2

/-- Everything CLASSIFYC can answer inside the capture memory: every slot it reads lies strictly between the mark and
`stop`, and a bit it accepts ends at or below `stop`. -/
theorem classifyC_cases (c : Config) (m : Memory) {i stop : Nat} (ha : c.cAggOffset = 1 ∨ c.cAggOffset = 2)
    (hs : stop ≤ c.capDepth) (hi : i + 2 ≤ stop) :
    (∃ k, i < k ∧ k < stop ∧ capWritten m k = false ∧ classifyC c m i stop = .error (.unwrittenCapture k))
      ∨ classifyC c m i stop = .ok rejected
      ∨ ∃ b, i + slotsC b ≤ stop ∧ classifyC c m i stop = .ok { outcome := bitOutcome b, consumed := slotsC b } := by
  rcases memRead_cases (c := c) m (i := i + 1) (by omega) with ⟨sp, _, e⟩ | ⟨hw, e⟩
  · by_cases hz : c.cWindows.zeroLo ≤ sp.toNat ∧ sp.toNat ≤ c.cWindows.zeroHi
    · exact .inr (.inr ⟨false, by simpa [slotsC] using hi, by simp [classifyC, e, hz, bitOutcome, slotsC]⟩)
    · by_cases h6 : stop < i + 6
      · exact .inr (.inl (by simp [classifyC, e, hz, h6]))
      · rcases sumFour_cases c m (i := i + c.cAggOffset) (by omega) with ⟨k, h1, h2, hw, e'⟩ | ⟨n, e'⟩
        · exact .inl ⟨k, by omega, by omega, hw, by simp [classifyC, e, hz, h6, e']⟩
        · by_cases ho : c.cWindows.oneLo ≤ n ∧ n ≤ c.cWindows.oneHi
          · exact .inr (.inr ⟨true, by simp [slotsC]; omega,
              by simp [classifyC, e, hz, h6, e', judgeAggregate, ho, bitOutcome, slotsC]⟩)
          · exact .inr (.inl (by simp [classifyC, e, hz, h6, e', judgeAggregate, ho]))
  · exact .inl ⟨i + 1, by omega, by omega, hw, by simp [classifyC, e]⟩

/-- A form that encodes a bit is classified as that bit. -/
theorem classifyC_of_formIs {c : Config} {m : Memory} {i stop : Nat} {b : Bool}
    (ha : c.cAggOffset = 1 ∨ c.cAggOffset = 2) (hs : stop ≤ c.capDepth) (h : formIs c m stop i b = true) :
    i + slotsC b ≤ stop ∧ classifyC c m i stop = .ok { outcome := bitOutcome b, consumed := slotsC b } := by
  simp only [formIs] at h
  split at h
  · simp at h
  · rename_i sp h1
    cases b
    · simp [inZeroC] at h
      exact ⟨by simp [slotsC]; omega, by
        simp [classifyC, memRead_of_some (by omega : i + 1 < c.capDepth) h1, h, bitOutcome, slotsC]⟩
    · simp only [if_true, Bool.and_eq_true, decide_eq_true_eq, Bool.not_eq_true'] at h
      obtain ⟨⟨hz, h6⟩, hsum⟩ := h
      obtain ⟨n, hn, ho⟩ := sumFour_of_sumIs (c := c) (by omega) hsum
      have hz' : ¬ (c.cWindows.zeroLo ≤ sp.toNat ∧ sp.toNat ≤ c.cWindows.zeroHi) := by
        simp [inZeroC] at hz; omega
      have h6' : ¬ stop < i + 6 := by omega
      simp [inOneC] at ho
      exact ⟨by simp [slotsC]; omega, by
        simp [classifyC, memRead_of_some (by omega : i + 1 < c.capDepth) h1, hz', h6', hn, judgeAggregate, ho,
          bitOutcome, slotsC]⟩

/-- Slots that fit neither form are a reject. -/
theorem classifyC_of_formBad {c : Config} {m : Memory} {i stop : Nat}
    (ha : c.cAggOffset = 1 ∨ c.cAggOffset = 2) (hs : stop ≤ c.capDepth) (h : formBad c m stop i = true) :
    i + 2 ≤ stop ∧ classifyC c m i stop = .ok rejected := by
  simp only [formBad] at h
  split at h
  · simp at h
  · rename_i sp h1
    simp only [Bool.and_eq_true, Bool.or_eq_true, decide_eq_true_eq, Bool.not_eq_true'] at h
    obtain ⟨⟨h2, hz⟩, h6⟩ := h
    have hz' : ¬ (c.cWindows.zeroLo ≤ sp.toNat ∧ sp.toNat ≤ c.cWindows.zeroHi) := by
      simp [inZeroC] at hz; omega
    refine ⟨h2, ?_⟩
    by_cases hlt : stop < i + 6
    · simp [classifyC, memRead_of_some (by omega : i + 1 < c.capDepth) h1, hz', hlt]
    · obtain ⟨n, hn, ho⟩ := sumFour_of_sumIs (c := c) (by omega) (h6.resolve_left hlt)
      have ho' : ¬ (c.cWindows.oneLo ≤ n ∧ n ≤ c.cWindows.oneHi) := by
        simp [inOneC] at ho; omega
      simp [classifyC, memRead_of_some (by omega : i + 1 < c.capDepth) h1, hz', hlt, hn, judgeAggregate, ho']

/-- CLASSIFYC looks at slots strictly between the mark and `stop` only. -/
theorem classifyC_congr {c : Config} {m m' : Memory} {i stop : Nat} (ha : c.cAggOffset = 1 ∨ c.cAggOffset = 2)
    (hi : i + 2 ≤ stop) (h : ∀ a, i < a → a < stop → capRead m' a = capRead m a) :
    classifyC c m' i stop = classifyC c m i stop := by
  simp only [classifyC, memRead_congr (c := c) (h (i + 1) (by omega) (by omega))]
  by_cases h6 : stop < i + 6
  · simp [h6]
  · rw [sumFour_congr (c := c) (i := i + c.cAggOffset) fun a _ _ => h a (by omega) (by omega)]

/-! ## The loop of ASSEMBLE_FIXED -/

/-- Everything the fixed loop can do from a working state that holds the bits `bs`, with CURSOR at `i` and `n` bits to
go inside the capture memory: it ends with `n` more bits, or at the first reject with fewer, or faults at an unwritten
slot of its range. -/
theorem fixedLoop_cases {c : Config} {m : Memory} {p : TwoSlot} (n : Nat) {i : Nat} {bs : List Bool} {w : Work}
    (hd : i + 2 * n ≤ c.capDepth) (h16 : c.capDepth < 65536) (hw : Holds bs w) (hc : w.cursor.toNat = i)
    (hl : bs.length + n ≤ 40) :
    (∃ w' bs', fixedLoop c m p n w = .pass w' ∧ bs'.length = n ∧ Holds (bs ++ bs') w' ∧ w'.cursor.toNat = i + 2 * n)
      ∨ (∃ w' bs', fixedLoop c m p n w = .raise .timingOutOfTolerance w' ∧ bs'.length < n ∧ Holds (bs ++ bs') w'
          ∧ w'.cursor.toNat = i + 2 * bs'.length)
      ∨ ∃ k, i ≤ k ∧ k < i + 2 * n ∧ capWritten m k = false ∧ fixedLoop c m p n w = .fault (.unwrittenCapture k) := by
  induction n generalizing i bs w with
  | zero => exact .inl ⟨w, [], rfl, rfl, by simpa using hw, by simpa using hc⟩
  | succ n ih =>
    rcases classify2_cases c m p (i := i) (by omega) with ⟨k, h1, h2, hk, e⟩ | e | ⟨b, e⟩
    · exact .inr (.inr ⟨k, h1, by omega, hk, by simp [fixedLoop, hc, e]⟩)
    · exact .inr (.inl ⟨w, [], by simp [fixedLoop, hc, e], by simp, by simpa using hw, by simpa using hc⟩)
    · have hw1 : Holds (bs ++ [b]) (advance 2 (shiftBit b w)) := (hw.shift b (by omega)).advance 2
      have hc1 : (advance 2 (shiftBit b w)).cursor.toNat = i + 2 := by
        rw [advance_cursor (by rw [shiftBit_cursor]; omega), shiftBit_cursor, hc]
      have hstep : fixedLoop c m p (n + 1) w = fixedLoop c m p n (advance 2 (shiftBit b w)) := by
        simp [fixedLoop, hc, e]
      rw [hstep]
      rcases ih (by omega) hw1 hc1 (by simp; omega) with
        ⟨w', bs', e', hl', hh', hcur⟩ | ⟨w', bs', e', hl', hh', hcur⟩ | ⟨k, h1, h2, hk, e'⟩
      · exact .inl ⟨w', b :: bs', e', by simp [hl'], by simpa using hh', by omega⟩
      · exact .inr (.inl ⟨w', b :: bs', e', by simp [hl'], by simpa using hh', by simp; omega⟩)
      · exact .inr (.inr ⟨k, by omega, by omega, hk, e'⟩)

/-- On a capture that encodes the bits `b 0`, …, `b (n−1)` from CURSOR on, the loop takes those bits in and goes on with
what is left to do. -/
theorem fixedLoop_encodes {c : Config} {m : Memory} {p : TwoSlot} (n : Nat) {i : Nat} {bs : List Bool} {w : Work}
    {b : Nat → Bool} (hd : i + 2 * n ≤ c.capDepth) (h16 : c.capDepth < 65536)
    (hwin : (windowsOf c p).zeroHi < (windowsOf c p).oneTh) (hw : Holds bs w) (hc : w.cursor.toNat = i)
    (hl : bs.length + n ≤ 40) (henc : EncodesFixed (windowsOf c p) m i n b) :
    ∃ w', (∀ r, fixedLoop c m p (n + r) w = fixedLoop c m p r w') ∧ Holds (bs ++ (List.range n).map b) w'
      ∧ w'.cursor.toNat = i + 2 * n := by
  induction n with
  | zero => exact ⟨w, fun r => by simp, by simpa using hw, by simpa using hc⟩
  | succ n ih =>
    obtain ⟨w1, hr, hh, hcur⟩ := ih (by omega) (by omega) fun k hk => henc k (by omega)
    have e : classify2 c m p w1.cursor.toNat = .ok { outcome := bitOutcome (b n), consumed := 2 } := by
      rw [hcur]; exact classify2_of_pairIs (by omega) hwin (henc n (by omega))
    refine ⟨advance 2 (shiftBit (b n) w1), fun r => ?_, ?_, ?_⟩
    · rw [show n + 1 + r = n + (r + 1) by omega, hr (r + 1)]
      simp [fixedLoop, e]
    · rw [List.range_succ, List.map_append, ← List.append_assoc]
      exact (hh.shift (b n) (by simp; omega)).advance 2
    · rw [advance_cursor (by rw [shiftBit_cursor]; omega), shiftBit_cursor, hcur]; omega

/-- The fixed loop looks at its own slots only. -/
theorem fixedLoop_congr {c : Config} {m m' : Memory} {p : TwoSlot} (n : Nat) {i : Nat} {w : Work}
    (hd : i + 2 * n ≤ c.capDepth) (h16 : c.capDepth < 65536) (hc : w.cursor.toNat = i)
    (h : ∀ a, i ≤ a → a < i + 2 * n → capRead m' a = capRead m a) :
    fixedLoop c m' p n w = fixedLoop c m p n w := by
  induction n generalizing i w with
  | zero => rfl
  | succ n ih =>
    simp only [fixedLoop, hc, classify2_congr (c := c) (p := p) fun a h1 h2 => h a h1 (by omega)]
    rcases classify2_cases c m p (i := i) (by omega) with ⟨k, _, _, _, e⟩ | e | ⟨b, e⟩
    · simp [e]
    · simp [e]
    · simp only [e, takeBit_bit, Stage.andThen_pass]
      exact ih (i := i + 2) (by omega) (by rw [advance_cursor (by rw [shiftBit_cursor]; omega), shiftBit_cursor, hc])
        fun a h1 h2 => h a (by omega) (by omega)

/-! ## The loop of ASSEMBLE_VAR -/

/-- Everything the variable loop can do from a working state that holds the bits `bs`, with CURSOR at or below `stop`. -/
theorem varLoop_cases {c : Config} {m : Memory} (fuel : Nat) {stop : Nat} {bs : List Bool} {w : Work}
    (ha : c.cAggOffset = 1 ∨ c.cAggOffset = 2) (hs : stop ≤ c.capDepth) (h16 : c.capDepth < 65536) (hw : Holds bs w)
    (heven : w.cursor.toNat % 2 = 0) (hl : bs.length ≤ 32) :
    (∃ w' bs', varLoop c m stop fuel w = .pass w' ∧ bs'.length ≤ 32 ∧ Holds bs' w' ∧ w'.cursor.toNat % 2 = 0)
      ∨ (∃ w' bs', varLoop c m stop fuel w = .raise .timingOutOfTolerance w' ∧ bs'.length < 32 ∧ Holds bs' w'
          ∧ w'.cursor.toNat % 2 = 0)
      ∨ ∃ k, k < stop ∧ capWritten m k = false ∧ varLoop c m stop fuel w = .fault (.unwrittenCapture k) := by
  induction fuel generalizing bs w with
  | zero => exact .inl ⟨w, bs, rfl, hl, hw, heven⟩
  | succ fuel ih =>
    by_cases hg : moreBits stop w = true
    · have hg' := hg
      simp only [moreBits, Bool.and_eq_true, decide_eq_true_eq] at hg'
      have hlen : bs.length < 32 := by have h32 : w.bitcnt.toNat < 32 := hg'.1; rw [hw.count] at h32; exact h32
      rcases classifyC_cases c m ha hs hg'.2 with ⟨k, h1, h2, hk, e⟩ | e | ⟨b, hb, e⟩
      · exact .inr (.inr ⟨k, h2, hk, by simp [varLoop, hg, e]⟩)
      · exact .inr (.inl ⟨w, bs, by simp [varLoop, hg, e], hlen, hw, heven⟩)
      · have hstep : varLoop c m stop (fuel + 1) w = varLoop c m stop fuel (advance (slotsC b) (shiftBit b w)) := by
          simp [varLoop, hg, e]
        rw [hstep]
        refine ih ((hw.shift b (by omega)).advance _) ?_ (by simp; omega)
        rw [advance_cursor (by rw [shiftBit_cursor]; omega), shiftBit_cursor]
        cases b <;> simp [slotsC] <;> omega
    · exact .inl ⟨w, bs, by simp [varLoop, hg], hl, hw, heven⟩

/-- On a capture that encodes the bits `bs'` from CURSOR up to `j`, the loop takes those bits in and goes on with the
fuel that is left. -/
theorem varLoop_encodes {c : Config} {m : Memory} {stop : Nat} (bs' : List Bool) {i j : Nat} {bs : List Bool}
    {w : Work} (ha : c.cAggOffset = 1 ∨ c.cAggOffset = 2) (hs : stop ≤ c.capDepth) (h16 : c.capDepth < 65536)
    (hw : Holds bs w) (hc : w.cursor.toNat = i) (hl : bs.length + bs'.length ≤ 32)
    (henc : encodesC c m stop i bs' j = true) :
    ∃ w', (∀ r, varLoop c m stop (bs'.length + r) w = varLoop c m stop r w') ∧ Holds (bs ++ bs') w'
      ∧ w'.cursor.toNat = j ∧ j = i + 2 * bs'.count false + 6 * bs'.count true := by
  induction bs' generalizing i bs w with
  | nil =>
    simp [encodesC] at henc
    exact ⟨w, fun r => by simp, by simpa using hw, by omega, by simp; omega⟩
  | cons b rest ih =>
    simp only [encodesC, Bool.and_eq_true] at henc
    obtain ⟨hb, e⟩ := classifyC_of_formIs ha hs henc.1
    simp only [List.length_cons] at hl
    have hg : moreBits stop w = true := by
      have := hw.count
      have : 2 ≤ slotsC b := by cases b <;> simp [slotsC]
      simp only [moreBits, Bool.and_eq_true, decide_eq_true_eq, Param.cBitCap]
      omega
    have hc1 : (advance (slotsC b) (shiftBit b w)).cursor.toNat = i + slotsC b := by
      rw [advance_cursor (by rw [shiftBit_cursor]; omega), shiftBit_cursor, hc]
    obtain ⟨w', hr, hh, hcur, hj⟩ := ih ((hw.shift b (by omega)).advance (slotsC b)) hc1 (by simp; omega)
      (by simpa [slotsC] using henc.2)
    refine ⟨w', fun r => ?_, by simpa using hh, hcur, ?_⟩
    · rw [show (b :: rest).length + r = rest.length + r + 1 by simp; omega, ← hr r]
      simp [varLoop, hg, hc, e]
    · rw [hj]; cases b <;> simp [slotsC] <;> omega

/-- The variable loop looks at slots below `stop` only. -/
theorem varLoop_congr {c : Config} {m m' : Memory} (fuel : Nat) {stop : Nat} {w : Work}
    (ha : c.cAggOffset = 1 ∨ c.cAggOffset = 2) (h : ∀ a, a < stop → capRead m' a = capRead m a) :
    varLoop c m' stop fuel w = varLoop c m stop fuel w := by
  induction fuel generalizing w with
  | zero => rfl
  | succ fuel ih =>
    by_cases hg : moreBits stop w = true
    · have hg' := hg
      simp only [moreBits, Bool.and_eq_true, decide_eq_true_eq] at hg'
      simp only [varLoop, hg, if_true, classifyC_congr ha hg'.2 fun a _ h2 => h a h2]
      cases takeBit w (classifyC c m w.cursor.toNat stop) with
      | pass w' => exact ih
      | raise e w' => rfl
      | fault f => rfl
    · simp [varLoop, hg]

end Sys2Proof.Machine
end

