-- ==== Sys2Proof/Laws/Config.lean ====
section
/-! SUPPORT. What a well-formed configuration gives the proofs, as linear facts. -/

namespace Sys2Proof

variable {c : Config}

theorem Config.wf_aWindows (h : c.wf = true) : c.aWindows.zeroHi < c.aWindows.oneTh := by
  simp [Config.wf, FixedWindows.wf] at h; omega

theorem Config.wf_bWindows (h : c.wf = true) : c.bWindows.zeroHi < c.bWindows.oneTh := by
  simp [Config.wf, FixedWindows.wf] at h; omega

theorem Config.wf_capDepth (h : c.wf = true) : c.capDepth < 65536 := by
  simp [Config.wf, Config.depthAdmitted] at h; omega

theorem Config.wf_even (h : c.wf = true) : c.aFirstSlot % 2 = 0 ∧ c.bFirstSlot % 2 = 0 ∧ c.cFirstSlot % 2 = 0 := by
  simp [Config.wf, Config.firstSlotsEven] at h; omega

/-- The 72 slots DECODE.A classifies lie below A_LEN, and those below CAP_DEPTH. -/
theorem Config.wf_aFits (h : c.wf = true) :
    c.aFirstSlot + 2 * c.aUsedOffset + 72 ≤ c.aLen ∧ c.aLen ≤ c.capDepth := by
  simp [Config.wf, Config.aFits, Config.offsetsAdmitted, Param.aTransmitted] at h; omega

theorem Config.wf_bFits (h : c.wf = true) : c.bFirstSlot + 80 ≤ c.bLen ∧ c.bLen ≤ c.capDepth := by
  simp [Config.wf, Config.bFits, Param.bBits] at h; omega

theorem Config.wf_cFits (h : c.wf = true) :
    c.cFirstSlot + c.cStopSlots ≤ c.cLenMin ∧ c.cLenMin ≤ c.cLenMax ∧ c.cLenMax ≤ c.capDepth := by
  simp [Config.wf, Config.cFits] at h; omega

theorem Config.wf_cAggOffset (h : c.wf = true) : c.cAggOffset = 1 ∨ c.cAggOffset = 2 := by
  simp [Config.wf, Config.offsetsAdmitted] at h; omega

end Sys2Proof
end

