-- ==== Sys2Proof/Laws/Step.lean ====
section
/-! SUPPORT. Laws of the host's side: which offset is CMD, and everything one step can do. -/

namespace Sys2Proof.Machine

theorem ite_hostReg_ne {P : Prop} [Decidable P] {a b x : HostReg} (ha : a ≠ x) (hb : b ≠ x) :
    (if P then a else b) ≠ x := by
  split <;> assumption

/-- Offset 0 is CMD, and no other offset is. -/
theorem regAt_eq_cmd {c : Config} {offset : Nat} : regAt c offset = .cmd ↔ offset = 0 := by
  constructor
  · intro h
    by_contra hne
    unfold regAt at h
    rw [if_neg hne] at h
    revert h
    repeat' (refine ite_hostReg_ne (by simp) ?_)
    simp
  · rintro rfl; rfl

@[simp] theorem popEvent_cfg (rest : List HostEvent) (s : State) : (popEvent rest s).cfg = s.cfg := rfl

/-- Everything a step that goes on can have done: idled, reset, answered a read, stored a write, or run the word
written to CMD. -/
theorem step_next {s t : State} (h : step s = .next t) :
    s.cfg.wf = true ∧ ((s.pending = [] ∧ t = s) ∨ ∃ e rest, s.pending = e :: rest ∧
      ((e = .reset ∧ t = resetCore (popEvent rest s))
      ∨ (∃ o, e = .read 32 o ∧ o % 4 = 0
          ∧ t = (popEvent rest s).setBusData (some (loadReg (popEvent rest s) (regAt s.cfg o))))
      ∨ (∃ o v, e = .write 32 o v ∧ o % 4 = 0 ∧ o ≠ 0 ∧ t = storeReg (regAt s.cfg o) v (popEvent rest s))
      ∨ (∃ v, e = .write 32 0 v ∧ runWord v (popEvent rest s) = .next t))) := by
  by_cases hw : s.cfg.wf = true
  · refine ⟨hw, ?_⟩
    simp only [step, stepEvent, hw, if_true] at h
    cases hp : s.pending with
    | nil => rw [hp] at h; exact .inl ⟨rfl, by simpa using h.symm⟩
    | cons e rest =>
      rw [hp] at h
      refine .inr ⟨e, rest, rfl, ?_⟩
      cases e with
      | reset => exact .inl ⟨rfl, by simpa [perform] using h.symm⟩
      | read bits o =>
        by_cases ha : accessAdmitted bits o = true
        · have ha' := ha
          simp [accessAdmitted] at ha'
          exact .inr (.inl ⟨o, by rw [ha'.1], ha'.2, by simpa [perform, hostRead, ha] using h.symm⟩)
        · simp [perform, hostRead, ha] at h
      | write bits o v =>
        by_cases ha : accessAdmitted bits o = true
        · have ha' := ha
          simp [accessAdmitted] at ha'
          by_cases ho : o = 0
          · subst ho
            refine .inr (.inr (.inr ⟨v, by rw [ha'.1], ?_⟩))
            simpa [perform, hostWrite, ha, regAt_eq_cmd] using h
          · exact .inr (.inr (.inl ⟨o, v, by rw [ha'.1], ha'.2, ho,
              by simpa [perform, hostWrite, ha, regAt_eq_cmd, ho] using h.symm⟩))
        · simp [perform, hostWrite, ha] at h
  · simp [step, stepEvent, hw] at h

/-- A step whose oldest pending event is an admitted write to CMD runs the word written. -/
theorem step_cmdWrite {s : State} {v : Reg} {rest : List HostEvent} (h : s.cfg.wf = true)
    (hp : s.pending = cmdWrite v :: rest) : step s = runWord v (popEvent rest s) := by
  simp [step, stepEvent, h, hp, cmdWrite, perform, hostWrite, accessAdmitted, regAt_eq_cmd]

/-- A step whose oldest pending event is an admitted read. -/
theorem step_read {s : State} {o : Nat} {rest : List HostEvent} (h : s.cfg.wf = true) (ho : o % 4 = 0)
    (hp : s.pending = .read 32 o :: rest) :
    step s = .next ((popEvent rest s).setBusData (some (loadReg (popEvent rest s) (regAt s.cfg o)))) := by
  simp [step, stepEvent, h, hp, perform, hostRead, accessAdmitted, ho]

/-- A step whose oldest pending event is an admitted write to anything but CMD. -/
theorem step_write {s : State} {o : Nat} {v : Reg} {rest : List HostEvent} (h : s.cfg.wf = true) (ho : o % 4 = 0)
    (h0 : o ≠ 0) (hp : s.pending = .write 32 o v :: rest) :
    step s = .next (storeReg (regAt s.cfg o) v (popEvent rest s)) := by
  simp [step, stepEvent, h, hp, perform, hostWrite, accessAdmitted, ho, regAt_eq_cmd, h0]

end Sys2Proof.Machine
end

