-- ==== Sys2Proof/Laws/Host.lean ====
section
/-! SUPPORT. Laws of the register map and of host scripts: which register an offset names, and how a script runs one event after another. -/

namespace Sys2Proof.Machine

/-- The window of slot `i` (R52). -/
theorem regAt_slot {c : Config} {i : Nat} (h : i < c.capDepth) : regAt c (0x10000 + 4 * i) = .capSlot i := by
  unfold regAt capBase
  iterate 15 rw [if_neg (by omega)]
  rw [show (65536 + 4 * i - 65536) / 4 = i by omega, if_pos ⟨by omega, h⟩]

/-- Between the registers and the window, and above the window, every offset is reserved (R55). -/
theorem regAt_reserved {c : Config} {o : Nat} (ho : o % 4 = 0) (h1 : 0x38 < o)
    (h2 : o < 0x10000 ∨ 0x10000 + 4 * c.capDepth ≤ o) : regAt c o = .reserved := by
  unfold regAt capBase
  iterate 16 rw [if_neg (by omega)]

theorem ite_hostReg_eq {P : Prop} [Decidable P] {a b x : HostReg} (h : (if P then a else b) = x) (hne : a ≠ x) :
    b = x := by
  split at h
  · exact absurd h hne
  · exact h

/-- Only an offset of the window names a slot, and that slot exists. -/
theorem regAt_eq_slot {c : Config} {o i : Nat} (h : regAt c o = .capSlot i) :
    i < c.capDepth ∧ capBase ≤ o ∧ i = (o - capBase) / 4 := by
  unfold regAt at h
  iterate 15 replace h := ite_hostReg_eq h (by simp)
  split at h
  · rename_i hw; cases h; exact ⟨hw.2, hw.1, rfl⟩
  · cases h

/-- A write to a register the host may only read, or to a reserved offset, stores nothing (R55). -/
theorem storeReg_ignored {c : Config} {o : Nat} (ho : o % 4 = 0)
    (h : o = 4 ∨ 0x14 ≤ o ∧ o < 0x10000 ∨ 0x10000 + 4 * c.capDepth ≤ o) (v : Reg) (s : State) :
    storeReg (regAt c o) v s = s := by
  by_cases hlt : 0x38 < o
  · rw [regAt_reserved ho hlt (by omega)]; rfl
  · have : o = 4 ∨ o = 0x14 ∨ o = 0x18 ∨ o = 0x1C ∨ o = 0x20 ∨ o = 0x24 ∨ o = 0x28 ∨ o = 0x2C ∨ o = 0x30 ∨ o = 0x34
        ∨ o = 0x38 := by omega
    rcases this with rfl | rfl | rfl | rfl | rfl | rfl | rfl | rfl | rfl | rfl | rfl <;> rfl

@[simp] theorem goOn_next (t : State) (f : State → Answer State) : goOn (.next t) f = f t := rfl

/-- A script goes on from what its first event leaves. -/
theorem hostRun_next {e : HostEvent} {es : List HostEvent} {s t : State} (h : hostDo e s = .next t) :
    hostRun (e :: es) s = hostRun es t := by
  rw [hostRun, h]; rfl

/-- An admitted write to anything but CMD, done now. -/
theorem hostDo_write {s : State} {o : Nat} {v : Reg} (h : s.cfg.wf = true) (ho : o % 4 = 0) (h0 : o ≠ 0) :
    hostDo (.write 32 o v) s = .next (storeReg (regAt s.cfg o) v (s.setBusData none)) := by
  rw [hostDo, step_write (s := s.setPending (.write 32 o v :: s.pending)) h ho h0 rfl]; rfl

/-- An admitted read, done now. -/
theorem hostDo_read {s : State} {o : Nat} (h : s.cfg.wf = true) (ho : o % 4 = 0) :
    hostDo (.read 32 o) s = .next (s.setBusData (some (loadReg s (regAt s.cfg o)))) := by
  rw [hostDo, step_read (s := s.setPending (.read 32 o :: s.pending)) h ho rfl]
  have hl : ∀ r, loadReg (popEvent s.pending (s.setPending (.read 32 o :: s.pending))) r = loadReg s r := by
    intro r; cases r <;> rfl
  rw [hl]; rfl

/-- A word written to CMD now. -/
theorem hostDo_cmdWrite {s : State} {v : Reg} (h : s.cfg.wf = true) :
    hostDo (cmdWrite v) s = runWord v (s.setBusData none) := by
  rw [hostDo, step_cmdWrite (s := s.setPending (cmdWrite v :: s.pending)) h rfl]; rfl

end Sys2Proof.Machine
end

