-- ==== Sys2Proof/Laws/PerInstr.lean ====
section
/-! SUPPORT. Statements for all commands, one lemma per constructor of `Instr`. -/

namespace Sys2Proof.Laws.Encoding

open Sys2Proof

/-- A command is well-formed, its word is legal with the reserved bits 0 (spec 30_encoding.md R70), and the decoder
reads that word back, from CMD and from the opcode table's row. -/
def Statement (i : Instr) : Prop :=
  i.wf = true ∧ wordLegal (encode i) = true ∧ decode (encode i) = .ok i
    ∧ decodeTableWord 32 (encode i).toNat = some i

theorem nop : Statement .nop := by unfold Statement; decide
theorem decodeA : Statement .decodeA := by unfold Statement; decide
theorem decodeB : Statement .decodeB := by unfold Statement; decide
theorem decodeC : Statement .decodeC := by unfold Statement; decide
theorem dupclr : Statement .dupclr := by unfold Statement; decide

end Sys2Proof.Laws.Encoding
end

