-- ==== Sys2Proof/Laws/Pipeline.lean ====
section
/-! SUPPORT. Everything the two assemblers and the three pipelines can do on a well-formed configuration, one lemma each. -/

namespace Sys2Proof.Machine

open Sys2Proof.Safety

/-! ## The two assemblers from a cleared working state -/

/-- ASSEMBLE_FIXED: exactly `n` bits, or a timing abort with fewer, or a fault at an unwritten slot of its range. -/
theorem assembleFixed_cases {c : Config} {m : Memory} {p : TwoSlot} {n first : Nat}
    (hd : first + 2 * n ≤ c.capDepth) (h16 : c.capDepth < 65536) (hn : n ≤ 40) :
    (∃ w bs, assembleFixed c m p n first Work.clear = .pass (asmFlush w) ∧ bs.length = n ∧ Holds bs w
        ∧ w.cursor.toNat = first + 2 * n)
      ∨ (∃ w bs, assembleFixed c m p n first Work.clear = .raise .timingOutOfTolerance w ∧ bs.length < n ∧ Holds bs w
          ∧ w.cursor.toNat = first + 2 * bs.length)
      ∨ ∃ k, first ≤ k ∧ k < first + 2 * n ∧ capWritten m k = false
          ∧ assembleFixed c m p n first Work.clear = .fault (.unwrittenCapture k) := by
  rcases fixedLoop_cases (p := p) (m := m) n hd h16 (holds_nil (BitVec.ofNat 16 first))
      (setCursor_cursor Work.clear (by omega)) (by simpa using hn) with
    ⟨w, bs, e, hl, hh, hc⟩ | ⟨w, bs, e, hl, hh, hc⟩ | ⟨k, h1, h2, hk, e⟩
  · have e : fixedLoop c m p n (setCursor first Work.clear) = .pass w := e
    exact .inl ⟨w, bs, by simp only [assembleFixed, e, Stage.andThen_pass], hl, by simpa using hh, hc⟩
  · have e : fixedLoop c m p n (setCursor first Work.clear) = .raise .timingOutOfTolerance w := e
    exact .inr (.inl ⟨w, bs, by simp only [assembleFixed, e, Stage.andThen_raise], hl, by simpa using hh, hc⟩)
  · have e : fixedLoop c m p n (setCursor first Work.clear) = .fault (.unwrittenCapture k) := e
    exact .inr (.inr ⟨k, h1, h2, hk, by simp only [assembleFixed, e, Stage.andThen_fault]⟩)

/-- ASSEMBLE_FIXED on a capture that encodes `n` bits. -/
theorem assembleFixed_encodes {c : Config} {m : Memory} {p : TwoSlot} {n first : Nat} {b : Nat → Bool}
    (hd : first + 2 * n ≤ c.capDepth) (h16 : c.capDepth < 65536) (hn : n ≤ 40)
    (hwin : (windowsOf c p).zeroHi < (windowsOf c p).oneTh) (henc : EncodesFixed (windowsOf c p) m first n b) :
    ∃ w, assembleFixed c m p n first Work.clear = .pass (asmFlush w) ∧ Holds ((List.range n).map b) w
      ∧ w.cursor.toNat = first + 2 * n := by
  obtain ⟨w, hr, hh, hc⟩ := fixedLoop_encodes (p := p) n hd h16 hwin (holds_nil (BitVec.ofNat 16 first))
    (setCursor_cursor Work.clear (by omega)) (by simpa using hn) henc
  refine ⟨w, ?_, by simpa using hh, hc⟩
  have e : fixedLoop c m p n (setCursor first Work.clear) = .pass w := hr 0
  simp only [assembleFixed, e, Stage.andThen_pass]

/-- ASSEMBLE_FIXED on a capture that encodes `k` of its `n` bits and then a pair that fits no bit. -/
theorem assembleFixed_bad {c : Config} {m : Memory} {p : TwoSlot} {n k first : Nat} {b : Nat → Bool}
    (hd : first + 2 * n ≤ c.capDepth) (h16 : c.capDepth < 65536) (hn : n ≤ 40) (hk : k < n)
    (hwin : (windowsOf c p).zeroHi < (windowsOf c p).oneTh) (henc : EncodesFixed (windowsOf c p) m first k b)
    (hbad : pairBad (windowsOf c p) m (first + 2 * k) = true) :
    ∃ w, assembleFixed c m p n first Work.clear = .raise .timingOutOfTolerance w ∧ w.bitcnt.toNat = k := by
  obtain ⟨w, hr, hh, hc⟩ := fixedLoop_encodes (p := p) k (by omega) h16 hwin (holds_nil (BitVec.ofNat 16 first))
    (setCursor_cursor Work.clear (by omega)) (by simp; omega) henc
  refine ⟨w, ?_, by simpa using hh.count⟩
  have e : fixedLoop c m p n (setCursor first Work.clear) = fixedLoop c m p (n - k) w := by
    rw [← hr (n - k), show k + (n - k) = n by omega]; rfl
  have e' : fixedLoop c m p (n - k) w = .raise .timingOutOfTolerance w := by
    rw [show n - k = n - k - 1 + 1 by omega]
    simp [fixedLoop, hc, classify2_of_pairBad (by omega) hbad]
  simp only [assembleFixed, e, e', Stage.andThen_raise]

/-- ASSEMBLE_FIXED looks at its own slots only. -/
theorem assembleFixed_congr {c : Config} {m m' : Memory} {p : TwoSlot} {n first : Nat}
    (hd : first + 2 * n ≤ c.capDepth) (h16 : c.capDepth < 65536)
    (h : ∀ a, first ≤ a → a < first + 2 * n → capRead m' a = capRead m a) :
    assembleFixed c m' p n first Work.clear = assembleFixed c m p n first Work.clear := by
  simp only [assembleFixed]
  rw [fixedLoop_congr n hd h16 (setCursor_cursor Work.clear (by omega)) h]

/-- ASSEMBLE_VAR: 28 bits, or an abort with the count reached, or a fault at an unwritten slot below CAP_LEN. -/
theorem assembleVar_cases {c : Config} {m : Memory} {capLen : BitVec 16} (hwf : c.wf = true)
    (hlen : capLen.toNat ≤ c.cLenMax) :
    (∃ w bs, assembleVar c m capLen Work.clear = .pass (asmFlush w) ∧ bs.length = 28 ∧ Holds bs w
        ∧ w.cursor.toNat % 2 = 0)
      ∨ (∃ w bs, assembleVar c m capLen Work.clear = .raise .timingOutOfTolerance w ∧ bs.length < 32 ∧ Holds bs w
          ∧ w.cursor.toNat % 2 = 0)
      ∨ (∃ w bs, assembleVar c m capLen Work.clear = .raise .ambiguousOrShortFrame (asmFlush w) ∧ bs.length ≤ 32
          ∧ bs.length ≠ 28 ∧ Holds bs w ∧ w.cursor.toNat % 2 = 0)
      ∨ ∃ k, k < capLen.toNat ∧ capWritten m k = false
          ∧ assembleVar c m capLen Work.clear = .fault (.unwrittenCapture k) := by
  have hfit := Config.wf_cFits hwf
  have h16 := Config.wf_capDepth hwf
  have hstop : dataEndC c capLen ≤ capLen.toNat := Nat.sub_le _ _
  have hcur := setCursor_cursor Work.clear (i := c.cFirstSlot) (by omega)
  rcases varLoop_cases (c := c) (m := m) Param.cBitCap (stop := dataEndC c capLen) (bs := [])
      (w := setCursor c.cFirstSlot Work.clear) (Config.wf_cAggOffset hwf) (by omega) h16
      (holds_nil (BitVec.ofNat 16 c.cFirstSlot)) (by rw [hcur]; exact (Config.wf_even hwf).2.2) (by simp) with
    ⟨w, bs, e, hl, hh, hc⟩ | ⟨w, bs, e, hl, hh, hc⟩ | ⟨k, h1, hk, e⟩
  · by_cases h28 : bs.length = 28
    · exact .inl ⟨w, bs, by simp [assembleVar, e, countCheck, hh.count, h28], h28, hh, hc⟩
    · exact .inr (.inr (.inl ⟨w, bs, by simp [assembleVar, e, countCheck, hh.count, h28], hl, h28, hh, hc⟩))
  · exact .inr (.inl ⟨w, bs, by simp only [assembleVar, e, Stage.andThen_raise], hl, hh, hc⟩)
  · exact .inr (.inr (.inr ⟨k, by omega, hk, by simp only [assembleVar, e, Stage.andThen_fault]⟩))

/-- The variable loop on a capture that encodes the bits `bs` and then either ends or fits no form. -/
theorem varLoop_start {c : Config} {m : Memory} {capLen : BitVec 16} {bs : List Bool} {j : Nat} (hwf : c.wf = true)
    (hlen : capLen.toNat ≤ c.cLenMax) (hl : bs.length ≤ 32)
    (henc : encodesC c m (dataEndC c capLen) c.cFirstSlot bs j = true) :
    ∃ w, varLoop c m (dataEndC c capLen) Param.cBitCap (setCursor c.cFirstSlot Work.clear)
        = varLoop c m (dataEndC c capLen) (32 - bs.length) w
      ∧ Holds bs w ∧ w.cursor.toNat = j ∧ j = c.cFirstSlot + 2 * bs.count false + 6 * bs.count true := by
  have hfit := Config.wf_cFits hwf
  have hstop : dataEndC c capLen ≤ capLen.toNat := Nat.sub_le _ _
  obtain ⟨w, hr, hh, hc, hj⟩ := varLoop_encodes (m := m) bs (Config.wf_cAggOffset hwf) (by omega)
    (Config.wf_capDepth hwf) (holds_nil (BitVec.ofNat 16 c.cFirstSlot))
    (setCursor_cursor Work.clear (by have := Config.wf_capDepth hwf; omega)) (by simpa using hl) henc
  refine ⟨w, ?_, by simpa using hh, hc, hj⟩
  rw [← hr (32 - bs.length), show bs.length + (32 - bs.length) = Param.cBitCap by simp only [Param.cBitCap]; omega]
  rfl

/-- ASSEMBLE_VAR on a capture that encodes the bits `bs` and then ends, or fills the 32-bit buffer. -/
theorem assembleVar_encodes {c : Config} {m : Memory} {capLen : BitVec 16} {bs : List Bool} {j : Nat}
    (hwf : c.wf = true) (hlen : capLen.toNat ≤ c.cLenMax)
    (hend : bs.length = 32 ∨ bs.length < 32 ∧ dataEndC c capLen < j + 2)
    (henc : encodesC c m (dataEndC c capLen) c.cFirstSlot bs j = true) :
    ∃ w, assembleVar c m capLen Work.clear = countCheck (asmFlush w) ∧ Holds bs w ∧ w.cursor.toNat = j
      ∧ j = c.cFirstSlot + 2 * bs.count false + 6 * bs.count true := by
  obtain ⟨w, e, hh, hc, hj⟩ := varLoop_start (m := m) hwf hlen (by omega) henc
  refine ⟨w, ?_, hh, hc, hj⟩
  have e' : varLoop c m (dataEndC c capLen) (32 - bs.length) w = .pass w := by
    rcases hend with h | ⟨h, h2⟩
    · rw [show 32 - bs.length = 0 by omega]; rfl
    · rw [show 32 - bs.length = 32 - bs.length - 1 + 1 by omega]
      have hg : moreBits (dataEndC c capLen) w = false := by
        simp only [moreBits, Bool.and_eq_false_iff, decide_eq_false_iff_not]; right; omega
      simp [varLoop, hg]
  simp only [assembleVar, e, e', Stage.andThen_pass]

/-- ASSEMBLE_VAR on a capture that encodes the bits `bs` and then fits neither form. -/
theorem assembleVar_bad {c : Config} {m : Memory} {capLen : BitVec 16} {bs : List Bool} {j : Nat}
    (hwf : c.wf = true) (hlen : capLen.toNat ≤ c.cLenMax) (hl : bs.length < 32)
    (henc : encodesC c m (dataEndC c capLen) c.cFirstSlot bs j = true)
    (hbad : formBad c m (dataEndC c capLen) j = true) :
    ∃ w, assembleVar c m capLen Work.clear = .raise .timingOutOfTolerance w ∧ w.bitcnt.toNat = bs.length := by
  have hfit := Config.wf_cFits hwf
  have hstop : dataEndC c capLen ≤ capLen.toNat := Nat.sub_le _ _
  obtain ⟨w, e, hh, hc, _⟩ := varLoop_start (m := m) hwf hlen (by omega) henc
  obtain ⟨h2, hrej⟩ := classifyC_of_formBad (Config.wf_cAggOffset hwf) (by omega) hbad
  refine ⟨w, ?_, hh.count⟩
  have hg : moreBits (dataEndC c capLen) w = true := by
    have h32 : w.bitcnt.toNat < 32 := by rw [hh.count]; exact hl
    simp only [moreBits, Bool.and_eq_true, decide_eq_true_eq]; exact ⟨h32, by omega⟩
  have e' : varLoop c m (dataEndC c capLen) (32 - bs.length) w = .raise .timingOutOfTolerance w := by
    rw [show 32 - bs.length = 32 - bs.length - 1 + 1 by omega]
    simp [varLoop, hg, hc, hrej]
  simp only [assembleVar, e, e', Stage.andThen_raise]

/-- A capture that encodes at least one Protocol C bit has slots. -/
theorem capLen_pos_of_encodesC {c : Config} {m : Memory} {capLen : BitVec 16} {i j : Nat} {bs : List Bool}
    (hb : bs ≠ []) (h : encodesC c m (dataEndC c capLen) i bs j = true) : 0 < capLen.toNat := by
  have hstop : dataEndC c capLen ≤ capLen.toNat := Nat.sub_le _ _
  cases bs with
  | nil => exact absurd rfl hb
  | cons b rest =>
    simp only [encodesC, Bool.and_eq_true] at h
    have h := h.1
    unfold formIs at h
    split at h
    · simp at h
    · cases b <;> simp at h <;> omega

/-- A capture with room for a form that fits no bit has slots. -/
theorem capLen_pos_of_formBad {c : Config} {m : Memory} {capLen : BitVec 16} {i : Nat}
    (h : formBad c m (dataEndC c capLen) i = true) : 0 < capLen.toNat := by
  have hstop : dataEndC c capLen ≤ capLen.toNat := Nat.sub_le _ _
  unfold formBad at h
  split at h
  · simp at h
  · simp at h; omega

/-! ## The pipelines -/

/-- What the checks and the field decoder make of an assembled Protocol A frame. -/
def judgeA (c : Config) (w : Work) : Stage Decoded :=
  (Stage.check w (zeroCheck .a w)).andThen fun _ => decodeFields w (fieldA c w)

/-- What the checks and the field decoder make of an assembled Protocol B frame. -/
def judgeB (c : Config) (w : Work) : Stage Decoded :=
  (Stage.check w (zeroCheck .b w)).andThen fun _ => decodeFields w (fieldB c w)

/-- What the checks and the field decoder make of an assembled Protocol C frame. -/
def judgeC (c : Config) (w : Work) : Stage Decoded :=
  (Stage.check w (checksumC w)).andThen fun _ =>
  (Stage.check w (zeroCheck .c w)).andThen fun _ => decodeFields w (fieldC c w)

theorem pipelineA_eq (x : Capture) : pipelineA x =
    if x.capLen.toNat = x.cfg.aLen then
      (assembleFixed x.cfg x.mem .a 36 (firstUsedA x.cfg) Work.clear).andThen (judgeA x.cfg)
    else .raise .lengthMismatch Work.clear := by
  by_cases h : x.capLen.toNat = x.cfg.aLen
  · simp only [pipelineA, lengthCheck, h, decide_true, require_true, Stage.check_ok, Stage.andThen_pass, if_true]; rfl
  · simp only [pipelineA, lengthCheck, h, decide_false, require_false, Stage.check_error, Stage.andThen_raise, if_false]

theorem pipelineB_eq (x : Capture) : pipelineB x =
    if x.capLen.toNat = x.cfg.bLen then
      (assembleFixed x.cfg x.mem .b 40 x.cfg.bFirstSlot Work.clear).andThen (judgeB x.cfg)
    else .raise .lengthMismatch Work.clear := by
  by_cases h : x.capLen.toNat = x.cfg.bLen
  · simp only [pipelineB, lengthCheck, h, decide_true, require_true, Stage.check_ok, Stage.andThen_pass, if_true]; rfl
  · simp only [pipelineB, lengthCheck, h, decide_false, require_false, Stage.check_error, Stage.andThen_raise, if_false]

theorem pipelineC_eq (x : Capture) : pipelineC x =
    if 0 < x.capLen.toNat ∧ x.cfg.cLenMin ≤ x.capLen.toNat ∧ x.capLen.toNat ≤ x.cfg.cLenMax then
      (assembleVar x.cfg x.mem x.capLen Work.clear).andThen (judgeC x.cfg)
    else .raise .lengthMismatch Work.clear := by
  by_cases h : 0 < x.capLen.toNat ∧ x.cfg.cLenMin ≤ x.capLen.toNat ∧ x.capLen.toNat ≤ x.cfg.cLenMax
  · simp only [pipelineC, lengthCheck, h, decide_true, require_true, Stage.check_ok, Stage.andThen_pass, and_self,
      if_true]
    rfl
  · simp only [pipelineC, lengthCheck, h, decide_false, require_false, Stage.check_error, Stage.andThen_raise, if_false]

/-- Everything `judgeA` can answer. -/
theorem judgeA_cases (c : Config) (w : Work) :
    (field w 0 28 = 0 ∧ judgeA c w = .raise .zeroFrameArtifact w)
      ∨ (field w 0 28 ≠ 0 ∧ (600 < (sign12 (field w 16 12)).mag ∨ 99 < (field w 28 8).toNat)
          ∧ judgeA c w = .raise .rangeViolation w)
      ∨ (field w 0 28 ≠ 0 ∧ (sign12 (field w 16 12)).mag ≤ 600 ∧ (field w 28 8).toNat ≤ 99
          ∧ judgeA c w = .pass { work := w, reading := recordA w (sign12 (field w 16 12)) }) := by
  by_cases h0 : field w 0 28 = 0
  · exact .inl ⟨h0, by simp [judgeA, zeroCheck, h0]⟩
  · have hz : zeroCheck .a w = .ok () := by
      show require (decide (field w 0 28 ≠ 0)) _ = _
      rw [decide_eq_true h0]; rfl
    rcases fieldA_cases c w with ⟨⟨h1, h2⟩, e⟩ | ⟨h, e⟩
    · exact .inr (.inr ⟨h0, h1, h2, by simp [judgeA, hz, decodeFields, e]⟩)
    · exact .inr (.inl ⟨h0, h, by simp [judgeA, hz, decodeFields, e]⟩)

/-- Everything `judgeB` can answer. -/
theorem judgeB_cases (c : Config) (w : Work) :
    (field w 20 8 = 0 ∧ judgeB c w = .raise .zeroFrameArtifact w)
      ∨ (field w 20 8 ≠ 0 ∧ (c.bTempMax < (rescaleB (field w 8 12)).mag ∨ 0x99 < (field w 20 8).toNat)
          ∧ judgeB c w = .raise .rangeViolation w)
      ∨ (field w 20 8 ≠ 0 ∧ (rescaleB (field w 8 12)).mag ≤ c.bTempMax ∧ (field w 20 8).toNat ≤ 0x99
          ∧ judgeB c w = .pass { work := w, reading := recordB w (rescaleB (field w 8 12)) }) := by
  by_cases h0 : field w 20 8 = 0
  · exact .inl ⟨h0, by simp [judgeB, zeroCheck, h0]⟩
  · have hz : zeroCheck .b w = .ok () := by
      show require (decide (field w 20 8 ≠ 0)) _ = _
      rw [decide_eq_true h0]; rfl
    rcases fieldB_cases c w with ⟨⟨h1, h2⟩, e⟩ | ⟨h, e⟩
    · exact .inr (.inr ⟨h0, h1, h2, by simp [judgeB, hz, decodeFields, e]⟩)
    · exact .inr (.inl ⟨h0, h, by simp [judgeB, hz, decodeFields, e]⟩)

/-- Everything `judgeC` can answer. -/
theorem judgeC_cases (c : Config) (w : Work) :
    (foldNibbles (cell w 0 ^^^ cell w 1 ^^^ cell w 2) ≠ cell w 3 ∧ judgeC c w = .raise .checksumMismatch w)
      ∨ (foldNibbles (cell w 0 ^^^ cell w 1 ^^^ cell w 2) = cell w 3 ∧
        ((field w 0 28 = 0 ∧ judgeC c w = .raise .zeroFrameArtifact w)
        ∨ (field w 0 28 ≠ 0 ∧ c.cTempMax < (tempC w).mag ∧ judgeC c w = .raise .rangeViolation w)
        ∨ (field w 0 28 ≠ 0 ∧ (tempC w).mag ≤ c.cTempMax
            ∧ judgeC c w = .pass { work := w, reading := recordC w (tempC w) }))) := by
  by_cases hx : foldNibbles (cell w 0 ^^^ cell w 1 ^^^ cell w 2) = cell w 3
  · have hc : checksumC w = .ok () := by simp [checksumC, hx]
    refine .inr ⟨hx, ?_⟩
    by_cases h0 : field w 0 28 = 0
    · exact .inl ⟨h0, by simp [judgeC, hc, zeroCheck, h0]⟩
    · have hz : zeroCheck .c w = .ok () := by
        show require (decide (field w 0 28 ≠ 0)) _ = _
        rw [decide_eq_true h0]; rfl
      rcases fieldC_cases c w with ⟨h1, e⟩ | ⟨h, e⟩
      · exact .inr (.inr ⟨h0, h1, by simp [judgeC, hc, hz, decodeFields, e]⟩)
      · exact .inr (.inl ⟨h0, h, by simp [judgeC, hc, hz, decodeFields, e]⟩)
  · exact .inl ⟨hx, by simp [judgeC, checksumC, hx]⟩

/-- What a judge raises is one of the validator's errors, at the working state it judged; it never faults. -/
structure Judges (j : Work → Stage Decoded) : Prop where
  raise : ∀ w e w', j w = .raise e w' → w' = w ∧ e ≠ .illegalCommand
  pass  : ∀ w d, j w = .pass d → d.work = w
  fault : ∀ w f, j w ≠ .fault f

theorem judges_judgeA (c : Config) : Judges (judgeA c) := by
  refine ⟨fun w e w' h => ?_, fun w d h => ?_, fun w f h => ?_⟩ <;>
    rcases judgeA_cases c w with ⟨_, k⟩ | ⟨_, _, k⟩ | ⟨_, _, _, k⟩ <;> rw [k] at h <;> simp at h
  · exact ⟨h.2.symm, by rw [← h.1]; simp⟩
  · exact ⟨h.2.symm, by rw [← h.1]; simp⟩
  · rw [← h]

theorem judges_judgeB (c : Config) : Judges (judgeB c) := by
  refine ⟨fun w e w' h => ?_, fun w d h => ?_, fun w f h => ?_⟩ <;>
    rcases judgeB_cases c w with ⟨_, k⟩ | ⟨_, _, k⟩ | ⟨_, _, _, k⟩ <;> rw [k] at h <;> simp at h
  · exact ⟨h.2.symm, by rw [← h.1]; simp⟩
  · exact ⟨h.2.symm, by rw [← h.1]; simp⟩
  · rw [← h]

theorem judges_judgeC (c : Config) : Judges (judgeC c) := by
  refine ⟨fun w e w' h => ?_, fun w d h => ?_, fun w f h => ?_⟩ <;>
    rcases judgeC_cases c w with ⟨_, k⟩ | ⟨_, ⟨_, k⟩ | ⟨_, _, k⟩ | ⟨_, _, k⟩⟩ <;> rw [k] at h <;> simp at h
  · exact ⟨h.2.symm, by rw [← h.1]; simp⟩
  · exact ⟨h.2.symm, by rw [← h.1]; simp⟩
  · exact ⟨h.2.symm, by rw [← h.1]; simp⟩
  · rw [← h]

/-- A working state that holds at most 40 bits, with CURSOR even, is legal. -/
theorem Holds.workLegal {bs : List Bool} {w : Work} (h : Holds bs w) (hl : bs.length ≤ 40)
    (he : w.cursor.toNat % 2 = 0) : WorkLegal w := by
  refine ⟨he, by rw [h.count]; exact hl, ?_⟩
  rw [h.count]
  exact Nat.lt_pow_two_of_testBit _ fun i hi => h.high i hi

theorem workLegal_asmFlush {w : Work} (h : WorkLegal w) : WorkLegal (asmFlush w) := by
  simpa [WorkLegal] using h

theorem workLegal_clear : WorkLegal Work.clear := ⟨rfl, by decide, by decide⟩

/-- What one assembly may answer on the way into a pipeline, for the lemmas about all three at once: a legal working
state, an abort that is no IllegalCommand, or a fault at an unwritten slot below CAP_LEN. -/
structure Assembles (m : Memory) (capLen : BitVec 16) (a : Stage Work) : Prop where
  pass  : ∀ w, a = .pass w → WorkLegal w
  raise : ∀ e w, a = .raise e w → WorkLegal w ∧ e ≠ .illegalCommand
  fault : ∀ f, a = .fault f → ∃ k, k < capLen.toNat ∧ capWritten m k = false ∧ f = .unwrittenCapture k

theorem assembles_fixed {c : Config} {m : Memory} {p : TwoSlot} {n first : Nat} {capLen : BitVec 16}
    (hd : first + 2 * n ≤ c.capDepth) (h16 : c.capDepth < 65536) (hn : n ≤ 40) (he : first % 2 = 0)
    (hl : first + 2 * n ≤ capLen.toNat) : Assembles m capLen (assembleFixed c m p n first Work.clear) := by
  rcases assembleFixed_cases (p := p) (m := m) hd h16 hn with
    ⟨w, bs, e, hb, hh, hc⟩ | ⟨w, bs, e, hb, hh, hc⟩ | ⟨k, h1, h2, hk, e⟩ <;> rw [e] <;>
    refine ⟨fun _ h => ?_, fun _ _ h => ?_, fun _ h => ?_⟩ <;> simp at h
  · rw [← h]; exact workLegal_asmFlush (hh.workLegal (by omega) (by omega))
  · rw [← h.2, ← h.1]; exact ⟨hh.workLegal (by omega) (by omega), by simp⟩
  · exact ⟨k, by omega, hk, h.symm⟩

theorem assembles_var {c : Config} {m : Memory} {capLen : BitVec 16} (hwf : c.wf = true)
    (hl : capLen.toNat ≤ c.cLenMax) : Assembles m capLen (assembleVar c m capLen Work.clear) := by
  rcases assembleVar_cases (m := m) hwf hl with
    ⟨w, bs, e, hb, hh, hc⟩ | ⟨w, bs, e, hb, hh, hc⟩ | ⟨w, bs, e, hb, _, hh, hc⟩ | ⟨k, h1, hk, e⟩ <;> rw [e] <;>
    refine ⟨fun _ h => ?_, fun _ _ h => ?_, fun _ h => ?_⟩ <;> simp at h
  · rw [← h]; exact workLegal_asmFlush (hh.workLegal (by omega) hc)
  · rw [← h.2, ← h.1]; exact ⟨hh.workLegal (by omega) hc, by simp⟩
  · rw [← h.2, ← h.1]; exact ⟨workLegal_asmFlush (hh.workLegal (by omega) hc), by simp⟩
  · exact ⟨k, h1, hk, h.symm⟩

/-- Everything one of the three pipelines can do on a well-formed configuration. -/
structure Pipes (pipe : Capture → Stage Decoded) : Prop where
  pass  : ∀ x d, x.cfg.wf = true → pipe x = .pass d → WorkLegal d.work
  raise : ∀ x e w, x.cfg.wf = true → pipe x = .raise e w → WorkLegal w ∧ e ≠ .illegalCommand
  fault : ∀ x f, x.cfg.wf = true → pipe x = .fault f →
    ∃ k, k < x.capLen.toNat ∧ capWritten x.mem k = false ∧ f = .unwrittenCapture k

theorem pipes_of {pipe : Capture → Stage Decoded}
    (h : ∀ x, x.cfg.wf = true → pipe x = .raise .lengthMismatch Work.clear
      ∨ ∃ a j, pipe x = a.andThen j ∧ Assembles x.mem x.capLen a ∧ Judges j) : Pipes pipe := by
  refine ⟨fun x d hwf hp => ?_, fun x e w hwf hp => ?_, fun x f hwf hp => ?_⟩ <;>
    rcases h x hwf with k | ⟨a, j, k, ha, hj⟩ <;> rw [k] at hp
  · simp at hp
  · obtain ⟨w, h1, h2⟩ := Stage.andThen_eq_pass.1 hp
    rw [hj.pass w d h2]; exact ha.pass w h1
  · simp at hp
    rw [← hp.2, ← hp.1]; exact ⟨workLegal_clear, by simp⟩
  · rcases Stage.andThen_eq_raise.1 hp with h1 | ⟨w', h1, h2⟩
    · exact ha.raise e w h1
    · obtain ⟨rfl, he⟩ := hj.raise w' e w h2
      exact ⟨ha.pass _ h1, he⟩
  · simp at hp
  · rcases Stage.andThen_eq_fault.1 hp with h1 | ⟨w', _, h2⟩
    · exact ha.fault f h1
    · exact absurd h2 (hj.fault w' f)

theorem pipes_pipelineA : Pipes pipelineA := pipes_of fun x hwf => by
  have hfit := Config.wf_aFits hwf
  have he := (Config.wf_even hwf).1
  have hf : firstUsedA x.cfg = x.cfg.aFirstSlot + 2 * x.cfg.aUsedOffset := rfl
  rw [pipelineA_eq]
  split
  · exact .inr ⟨_, _, rfl, assembles_fixed (by omega) (Config.wf_capDepth hwf) (by omega) (by omega) (by omega),
      judges_judgeA _⟩
  · exact .inl rfl

theorem pipes_pipelineB : Pipes pipelineB := pipes_of fun x hwf => by
  have hfit := Config.wf_bFits hwf
  have he := (Config.wf_even hwf).2.1
  rw [pipelineB_eq]
  split
  · exact .inr ⟨_, _, rfl, assembles_fixed (by omega) (Config.wf_capDepth hwf) (by omega) (by omega) (by omega),
      judges_judgeB _⟩
  · exact .inl rfl

theorem pipes_pipelineC : Pipes pipelineC := pipes_of fun x hwf => by
  rw [pipelineC_eq]
  split
  · rename_i h; exact .inr ⟨_, _, rfl, assembles_var hwf h.2.2, judges_judgeC _⟩
  · exact .inl rfl

/-- Each DECODE command is `decodeCommand` of its pipeline. -/
theorem exec_of_isDecode {i : Instr} (h : isDecode i = true) :
    ∃ pipe, (∀ s, exec i s = decodeCommand pipe s) ∧ Pipes pipe := by
  cases i
  · simp [isDecode] at h
  · exact ⟨pipelineA, fun _ => rfl, pipes_pipelineA⟩
  · exact ⟨pipelineB, fun _ => rfl, pipes_pipelineB⟩
  · exact ⟨pipelineC, fun _ => rfl, pipes_pipelineC⟩
  · simp [isDecode] at h

/-! ## The gate -/

theorem emits_iff (d : Dup) (h n : BitVec 32) (sig : Sig) :
    emits d h n sig = true ↔ d.valid = false ∨ h ≠ d.hash ∨ 500 < (age n d.time).toNat ∨ sig ≠ d.sig := by
  simp only [emits, Param.dupWindow, Bool.or_eq_true, Bool.not_eq_true', decide_eq_true_eq, or_assoc]

/-- The age of an acceptance, without a word subtraction (R196). -/
theorem age_toNat (n t : BitVec 32) : (age n t).toNat = (n.toNat + 2 ^ 32 - t.toNat) % 2 ^ 32 := by
  simp only [age, BitVec.toNat_sub]; congr 1; omega

theorem emits_iff_gateOpen (s : State) (sig : Sig) : emits s.dup s.capHash s.now sig = true ↔ GateOpen s sig := by
  rw [emits_iff, age_toNat]

end Sys2Proof.Machine
end

