-- ==== Sys2Proof/Laws/Reading.lean ====
section
/-! SUPPORT. Laws of the reading record: the RD_* registers as numbers, and the record of a frame of known bits as the terms of Safety.lean. -/

namespace Sys2Proof.Machine

open Sys2Proof.Safety

/-- A concatenation as a number. -/
theorem toNat_append {a b : Nat} (x : BitVec a) (y : BitVec b) : (x ++ y).toNat = x.toNat * 2 ^ b + y.toNat := by
  rw [BitVec.toNat_append, ← Nat.shiftLeft_add_eq_or_of_lt y.isLt, Nat.shiftLeft_eq]

theorem toNat_zero {n : Nat} : BitVec.toNat (0 : BitVec n) = 0 := (BitVec.toNat_ofNat ..).trans (Nat.zero_mod _)

theorem toNat_bit (b : Bool) : (bit b).toNat = if b then 1 else 0 := by cases b <;> rfl

/-- SIGN12's sign and magnitude (R166). -/
theorem sign12_eq (t : BitVec 12) : sign12 t = { neg := decide (2048 ≤ t.toNat), mag := twosMag t } := by
  have e : t.getLsbD 11 = decide (2048 ≤ t.toNat) := by
    rw [show (11 : Nat) = 12 - 1 by rfl, ← BitVec.msb_eq_getLsbD_last, BitVec.msb_eq_decide]
  simp only [sign12, e, twosMag]
  by_cases h : 2048 ≤ t.toNat <;> simp [h]

/-- What RESCALE_B divides, as one product. -/
theorem rescaleDividend_eq (t : BitVec 12) : rescaleDividend t = ((t.toNat : Int) - 1220) * 5 := by
  simp only [rescaleDividend, fahrenheitTenths, Param.bBias, Param.bFOffset, Param.bRescaleNum]; omega

/-- The bounds of RESCALE_B's quotient. -/
theorem celsiusTenths_bounds (t : BitVec 12) : -700 ≤ celsiusTenths t ∧ celsiusTenths t ≤ 1600 := by
  have := t.isLt
  simp only [celsiusTenths, Param.bRescaleDen, rescaleDividend_eq]
  rcases le_or_gt 0 (((t.toNat : Int) - 1220) * 5) with h | h
  · rw [Int.tdiv_eq_ediv_of_nonneg h]; omega
  · obtain ⟨n, hn⟩ : ∃ n : Int, ((t.toNat : Int) - 1220) * 5 = -n := ⟨_, (neg_neg _).symm⟩
    rw [hn, Int.neg_tdiv, Int.tdiv_eq_ediv_of_nonneg (by omega)]; omega

/-- RESCALE_B's result is the sign and the magnitude of its quotient. -/
theorem rescaleB_eq (t : BitVec 12) :
    rescaleB t = { neg := decide (celsiusTenths t < 0), mag := (celsiusTenths t).natAbs } := by
  simp only [rescaleB]
  split <;> rename_i h <;> simp [h] <;> omega

/-- RESCALE_B's magnitude fits TEMP_MAG. -/
theorem rescaleB_mag_lt (t : BitVec 12) : (rescaleB t).mag < 2 ^ 15 := by
  have := celsiusTenths_bounds t
  simp only [rescaleB_eq]; omega

/-! ## The RD_* registers as numbers -/

theorem packProtoId_eq (r : Reading) :
    packProtoId r = BitVec.ofNat 32 ((protoCode r.proto).toNat * 2 ^ 16 + r.id.toNat) := by
  apply BitVec.eq_of_toNat_eq
  have := r.id.isLt; have := (protoCode r.proto).isLt
  simp only [packProtoId, toNat_append, toNat_zero, BitVec.toNat_ofNat]; omega

/-- TEMP_WORD is the sign bit above the magnitude (R168). -/
theorem tempWord_eq (r : Reading) : tempWord r = bit r.tempNeg ++ r.tempMag := by
  apply BitVec.eq_of_toNat_eq
  simp only [tempWord, Param.signMarkBit]
  rw [BitVec.toNat_or, BitVec.toNat_append, BitVec.toNat_shiftLeft, BitVec.toNat_setWidth, BitVec.toNat_setWidth]
  have := r.tempMag.isLt
  have k : ∀ b, ((bit b).toNat % 2 ^ 16) <<< 15 % 2 ^ 16 = (bit b).toNat <<< 15 := by decide
  rw [Nat.mod_eq_of_lt (show r.tempMag.toNat < 2 ^ 16 by omega), k]

theorem packTemp_eq {r : Reading} {m : Nat} (hm : m < 2 ^ 15) (h : r.tempMag = BitVec.ofNat 15 m) :
    packTemp r = BitVec.ofNat 32 ((if r.tempNeg then 2 ^ 15 else 0) + m) := by
  apply BitVec.eq_of_toNat_eq
  simp only [packTemp, tempWord_eq, toNat_append, toNat_zero, toNat_bit, h, BitVec.toNat_ofNat]
  split <;> omega

theorem packHum_eq (r : Reading) : packHum r =
    BitVec.ofNat 32 ((if r.humBcd then 2 ^ 9 else 0) + (if r.humValid then 2 ^ 8 else 0) + r.hum.toNat) := by
  apply BitVec.eq_of_toNat_eq
  have := r.hum.isLt
  simp only [packHum, toNat_append, toNat_zero, toNat_bit, BitVec.toNat_ofNat]
  split <;> split <;> omega

theorem packFrameLo_eq (r : Reading) : packFrameLo r = BitVec.ofNat 32 (r.frame.toNat % 2 ^ 32) := by
  apply BitVec.eq_of_toNat_eq
  simp only [packFrameLo, BitVec.extractLsb'_toNat, BitVec.toNat_ofNat, Nat.shiftRight_zero]; omega

theorem packFrameHi_eq (r : Reading) :
    packFrameHi r = BitVec.ofNat 32 (r.nbits.toNat * 2 ^ 8 + r.frame.toNat / 2 ^ 32) := by
  apply BitVec.eq_of_toNat_eq
  have := r.frame.isLt; have := r.nbits.isLt
  simp only [packFrameHi, toNat_append, toNat_zero, BitVec.extractLsb'_toNat, BitVec.toNat_ofNat,
    Nat.shiftRight_eq_div_pow]
  omega

/-- The reserved bits of the RD_* registers are 0 for every record (10_state.md R36 to R40). -/
theorem packReading_legal (r : Reading) : ResultsLegal (packReading r) := by
  refine ⟨?_, ?_, ?_, ?_, ?_⟩
  all_goals
    apply BitVec.eq_of_getLsbD_eq
    intro k hk
    simp only [packReading, packProtoId, packTemp, packHum, packMisc, packFrameHi, BitVec.getLsbD_append,
      BitVec.getLsbD_extractLsb', hk]
    simp
    try (repeat' rw [if_neg (by omega)])
    try simp
    try (intro; omega)

/-! ## The records of a frame of known bits -/

theorem toNat_setWidth_frame {n : Nat} (f : BitVec n) (h : n ≤ 40) : (f.setWidth 40).toNat = f.toNat := by
  rw [BitVec.toNat_setWidth]
  exact Nat.mod_eq_of_lt (lt_of_lt_of_le f.isLt (Nat.pow_le_pow_right (by omega) h))

/-- The RD_* registers and the signature of the Protocol A record of the frame `f`. -/
theorem recordA_of_frame {f : BitVec 36} {w : Work} (hb : ∀ k < 36, frameBit w k = f.getMsbD k) :
    packReading (recordA w (sign12 (aTemp f))) = aResults f
      ∧ ∀ c, signature c (recordA w (sign12 (aTemp f))) = sigOf c 1 (f.setWidth 40) 36 := by
  have hf : field w 0 36 = f := (field_of_frame hb (lo := 0) rfl).trans (by simp)
  have h12 : frameBit w 12 = f.getLsbD 23 := by rw [hb 12 (by omega)]; simp [BitVec.getMsbD]
  have hid := field_of_frame hb (k := 0) (n := 12) (lo := 24) rfl
  have hch := field_of_frame hb (k := 14) (n := 2) (lo := 20) rfl
  have hhu : field w 28 8 = aHum f := field_of_frame hb (lo := 0) rfl
  refine ⟨?_, fun c => by cases h : c.sigFn <;> simp [signature, sigOf, recordA, hf, protoCode, h]⟩
  have h1 : packProtoId (recordA w (sign12 (aTemp f))) = (aResults f).protoId := by
    have := (f.extractLsb' 24 12).isLt
    rw [packProtoId_eq]; simp only [recordA, protoCode, hid, aResults, BitVec.toNat_setWidth]
    congr 1; show 1 * 2 ^ 16 + _ % 2 ^ 16 = _; omega
  have hmag : twosMag (aTemp f) < 2 ^ 15 := by have := (aTemp f).isLt; simp only [twosMag]; split <;> omega
  have h2 : packTemp (recordA w (sign12 (aTemp f))) = (aResults f).temp := by
    rw [packTemp_eq hmag (by simp only [recordA, sign12_eq])]
    simp [recordA, sign12_eq, aResults]
  have h3 : packHum (recordA w (sign12 (aTemp f))) = (aResults f).hum := by
    rw [packHum_eq]; simp [recordA, hhu, aResults]
  have h4 : packMisc (recordA w (sign12 (aTemp f))) = (aResults f).misc := by
    simp only [packMisc, recordA, aResults, hch, h12]
    generalize f.getLsbD 23 = b
    generalize f.extractLsb' 20 2 = x
    revert b x; decide
  have h5 : packFrameLo (recordA w (sign12 (aTemp f))) = (aResults f).frameLo := by
    rw [packFrameLo_eq]; simp only [recordA, hf, toNat_setWidth_frame f (by omega), aResults]
  have h6 : packFrameHi (recordA w (sign12 (aTemp f))) = (aResults f).frameHi := by
    rw [packFrameHi_eq]; simp only [recordA, hf, toNat_setWidth_frame f (by omega), aResults]; rfl
  simp only [packReading, h1, h2, h3, h4, h5, h6]

/-- The RD_* registers and the signature of the Protocol B record of the frame `f`. -/
theorem recordB_of_frame {f : BitVec 40} {w : Work} (hb : ∀ k < 40, frameBit w k = f.getMsbD k) :
    packReading (recordB w (rescaleB (bTemp f))) = bResults f (rescaleB (bTemp f))
      ∧ ∀ c, signature c (recordB w (rescaleB (bTemp f))) = sigOf c 2 f 40 := by
  have hf : field w 0 40 = f := (field_of_frame hb (lo := 0) rfl).trans (by simp)
  have hid := field_of_frame hb (k := 0) (n := 8) (lo := 32) rfl
  have hhu : field w Param.bHumPos 8 = bHum f := field_of_frame hb (lo := 12) rfl
  refine ⟨?_, fun c => by cases h : c.sigFn <;> simp [signature, sigOf, recordB, hf, protoCode, h]⟩
  have h1 : packProtoId (recordB w (rescaleB (bTemp f))) = (bResults f (rescaleB (bTemp f))).protoId := by
    have := (f.extractLsb' 32 8).isLt
    rw [packProtoId_eq]; simp only [recordB, protoCode, hid, bResults, BitVec.toNat_setWidth]
    congr 1; show 2 * 2 ^ 16 + _ % 2 ^ 16 = _; omega
  have h2 : packTemp (recordB w (rescaleB (bTemp f))) = (bResults f (rescaleB (bTemp f))).temp := by
    rw [packTemp_eq (rescaleB_mag_lt _) rfl]; rfl
  have h3 : packHum (recordB w (rescaleB (bTemp f))) = (bResults f (rescaleB (bTemp f))).hum := by
    rw [packHum_eq]; simp [recordB, hhu, bResults]
  have h4 : packMisc (recordB w (rescaleB (bTemp f))) = (bResults f (rescaleB (bTemp f))).misc := by
    simp only [packMisc, recordB, bResults]; decide
  have h5 : packFrameLo (recordB w (rescaleB (bTemp f))) = (bResults f (rescaleB (bTemp f))).frameLo := by
    rw [packFrameLo_eq]; simp only [recordB, hf, bResults]
  have h6 : packFrameHi (recordB w (rescaleB (bTemp f))) = (bResults f (rescaleB (bTemp f))).frameHi := by
    rw [packFrameHi_eq]; simp only [recordB, hf, bResults]; rfl
  simp only [packReading, h1, h2, h3, h4, h5, h6]

/-- The magnitude, the RD_* registers and the signature of the Protocol C record of the frame `f`. -/
theorem recordC_of_frame {f : BitVec 28} {w : Work} (hb : ∀ k < 28, frameBit w k = f.getMsbD k) :
    (tempC w).mag = cMag f ∧ packReading (recordC w (tempC w)) = cResults f
      ∧ ∀ c, signature c (recordC w (tempC w)) = sigOf c 3 (f.setWidth 40) 28 := by
  have hf : field w 0 28 = f := (field_of_frame hb (lo := 0) rfl).trans (by simp)
  have hid := field_of_frame hb (k := 0) (n := 8) (lo := 20) rfl
  have h8 : frameBit w Param.cSignPos = f.getLsbD 19 := by
    rw [show Param.cSignPos = 8 from rfl, hb 8 (by omega)]; simp [BitVec.getMsbD]
  have hm : (tempC w).mag = cMag f := by
    simp only [tempC, bcd3, cMag, field_of_frame hb (k := 12) (n := 4) (lo := 12) rfl,
      field_of_frame hb (k := 16) (n := 4) (lo := 8) rfl, field_of_frame hb (k := 20) (n := 4) (lo := 4) rfl]
  refine ⟨hm, ?_, fun c => by cases h : c.sigFn <;> simp [signature, sigOf, recordC, hf, protoCode, h]⟩
  have hlt : cMag f < 2 ^ 15 := by simp only [cMag]; omega
  have h1 : packProtoId (recordC w (tempC w)) = (cResults f).protoId := by
    have := (f.extractLsb' 20 8).isLt
    rw [packProtoId_eq]; simp only [recordC, protoCode, hid, cResults, BitVec.toNat_setWidth]
    congr 1; show 3 * 2 ^ 16 + _ % 2 ^ 16 = _; omega
  have h2 : packTemp (recordC w (tempC w)) = (cResults f).temp := by
    rw [packTemp_eq hlt (by simp only [recordC, hm])]
    simp only [recordC, tempC, h8, cResults]
  have h3 : packHum (recordC w (tempC w)) = (cResults f).hum := by simp only [packHum, recordC, cResults]; decide
  have h4 : packMisc (recordC w (tempC w)) = (cResults f).misc := by simp only [packMisc, recordC, cResults]; decide
  have hlt28 : f.toNat < 2 ^ 28 := f.isLt
  have h5 : packFrameLo (recordC w (tempC w)) = (cResults f).frameLo := by
    rw [packFrameLo_eq]; simp only [recordC, hf, toNat_setWidth_frame f (by omega), cResults]; congr 1; omega
  have h6 : packFrameHi (recordC w (tempC w)) = (cResults f).frameHi := by
    rw [packFrameHi_eq]; simp only [recordC, hf, toNat_setWidth_frame f (by omega), cResults]
    rw [Nat.div_eq_of_lt (by omega)]; rfl
  simp only [packReading, h1, h2, h3, h4, h5, h6]

/-- CHECKSUM_C on a working state whose cells hold the 28 bits of the frame `f` (42_validator.md R142). -/
theorem checksum_of_frame {f : BitVec 28} {w : Work} (hb : ∀ k < 28, frameBit w k = f.getMsbD k)
    (h0 : cell w 0 = field w 0 8) (h1 : cell w 1 = field w 8 8) (h2 : cell w 2 = field w 16 8)
    (h3 : (cell w 3).toNat = (field w 24 4).toNat) :
    (foldNibbles (cell w 0 ^^^ cell w 1 ^^^ cell w 2) = cell w 3) ↔ cChecksum f = f.extractLsb' 0 4 := by
  have e0 : field w 0 8 = f.extractLsb' 20 8 := field_of_frame hb rfl
  have e1 : field w 8 8 = f.extractLsb' 12 8 := field_of_frame hb rfl
  have e2 : field w 16 8 = f.extractLsb' 4 8 := field_of_frame hb rfl
  have e3 : field w 24 4 = f.extractLsb' 0 4 := field_of_frame hb rfl
  have k3 : cell w 3 = (f.extractLsb' 0 4).setWidth 8 := by
    apply BitVec.eq_of_toNat_eq
    have := (f.extractLsb' 0 4).isLt
    rw [h3, e3, BitVec.toNat_setWidth]; omega
  have halves : ∀ lo, f.extractLsb' lo 8 = f.extractLsb' (lo + 4) 4 ++ f.extractLsb' lo 4 := by
    intro lo
    apply BitVec.eq_of_toNat_eq
    simp only [toNat_append, BitVec.extractLsb'_toNat, Nat.shiftRight_eq_div_pow, Nat.pow_add, ← Nat.div_div_eq_div_mul]
    omega
  have fold : ∀ p q z : BitVec 4, foldNibbles (p ++ q) = z.setWidth 8 ↔ p ^^^ q = z := by decide +kernel
  rw [h0, h1, h2, e0, e1, e2, k3, halves 20, halves 12, halves 4, cChecksum, BitVec.xor_append, BitVec.xor_append, fold]
  have : ∀ a b c d e g : BitVec 4, a ^^^ c ^^^ e ^^^ (b ^^^ d ^^^ g) = a ^^^ b ^^^ (c ^^^ d) ^^^ (e ^^^ g) := by
    intros; ac_rfl
  rw [this]

end Sys2Proof.Machine
end

