-- ==== Sys2Proof/Laws/Reset.lean ====
section
/-! SUPPORT. The machine right after reset: what an idle step does, and that the very next step runs a command put before it, although the configuration of this build is not known (assumption log 1 and 4). -/

namespace Sys2Proof.Machine

theorem reset_cfg_wf : State.reset.cfg.wf = true := Config.built.ok

/-- The decoder reads each command back from its word. -/
theorem decode_encode (i : Instr) : decode (encode i) = .ok i := by cases i <;> decide

/-- The step after `withFetchWord` is the execution of that command in the reset state, and nothing else. -/
theorem step_reset_withFetchWord (i : Instr) :
    step (State.reset.withFetchWord 32 (encode i).toNat) = exec i State.reset := by
  have h := step_cmdWrite (s := State.reset.withFetchWord 32 (encode i).toNat) (v := encode i)
    (rest := State.reset.pending) reset_cfg_wf (by simp [State.withFetchWord, State.setPending])
  rw [h, runWord, decode_encode]
  rfl

/-- With no slot below CAP_LEN unwritten, a DECODE goes on. -/
theorem decodeCommand_completes {pipe : Capture → Stage Decoded} (hp : Pipes pipe) {s : State}
    (h : s.cfg.wf = true) (hc : Safety.CaptureWritten s) : ∃ t, decodeCommand pipe s = .next t := by
  cases hx : pipe s.capture with
  | fault f =>
    obtain ⟨k, hk, hw, _⟩ := hp.fault s.capture f h hx
    exact absurd hw (by simp [show capWritten s.capture.mem k = true from hc k hk])
  | raise e w => exact ⟨_, decodeCommand_raise h hx⟩
  | pass d =>
    cases he : emits s.dup s.capHash s.now (signature s.cfg d.reading) with
    | true => exact ⟨_, decodeCommand_accept h hx he⟩
    | false => exact ⟨_, decodeCommand_suppress h hx he⟩

/-- Every command put before the machine at reset runs as its first step, whatever the build's configuration. -/
theorem reset_runs (i : Instr) : ∃ t, step (State.reset.withFetchWord 32 (encode i).toNat) = .next t := by
  rw [step_reset_withFetchWord]
  have hw := reset_cfg_wf
  have hc : Safety.CaptureWritten State.reset := fun k hk => absurd hk (Nat.not_lt_zero k)
  cases i with
  | nop => exact ⟨_, plainCommand_of_wf hw _⟩
  | decodeA => exact decodeCommand_completes pipes_pipelineA hw hc
  | decodeB => exact decodeCommand_completes pipes_pipelineB hw hc
  | decodeC => exact decodeCommand_completes pipes_pipelineC hw hc
  | dupclr => exact ⟨_, plainCommand_of_wf hw _⟩

end Sys2Proof.Machine
end

