-- ==== Sys2Proof/Tests/Slice0.lean ====
section
/-! SUPPORT. The model's own tests, in the illustrative configuration E of spec 95_test_vectors.md section 1. Expected values are that file's, or written out by hand from the rule a test names. A theorem `witness_…` shows concrete values that meet the hypotheses of one statement. -/

namespace Sys2Proof.Tests

-- One theorem at a time: each evaluation by the kernel waits for the ones before it, and holds a thread while it waits.
set_option Elab.async false

open Sys2Proof Sys2Proof.Machine Sys2Proof.Safety

/-! ## Helpers -/

/-- Configuration E. -/
abbrev cfgE : Config := Config.exampleE

/-- Slots from `i` on, all written. -/
def slotsFrom (i : Nat) (vs : List Dur) : Memory :=
  match vs with
  | [] => []
  | v :: rest => (i, v) :: slotsFrom (i + 1) rest

/-- A CORE of configuration E right after reset, with the capture `vs` loaded and NOW and CAP_HASH written. -/
def loaded (vs : List Dur) (now hash : BitVec 32) : State :=
  { State.resetOf cfgE with capMem := slotsFrom 0 vs, capLen := BitVec.ofNat 16 vs.length, now := now, capHash := hash }

/-- The two-slot patterns of the vectors: (20, 100) and (20, 200). -/
def pairOf (b : Bool) : List Dur := if b then [20, 200] else [20, 100]

/-- Protocol C's patterns of the vectors: (20, 100) and (20, 70, 50, 70, 50, 70). -/
def formOf (b : Bool) : List Dur := if b then [20, 70, 50, 70, 50, 70] else [20, 100]

/-- 36 bits and the unused transmitted one. -/
def captureA (f : BitVec 36) : List Dur := (frameBits f).flatMap pairOf ++ [20, 100]
/-- 40 bits. -/
def captureB (f : BitVec 40) : List Dur := (frameBits f).flatMap pairOf
/-- Bits, and the stop marker. -/
def captureC (bs : List Bool) : List Dur := bs.flatMap formOf ++ [20, 5000]

/-- P1 from step 2 on: only b[27] set. -/
def stateA : State := loaded (captureA 0x000000100) 1000 0xABCD
/-- P3. -/
def stateB : State := loaded (captureB 0xA546A45000) 5000 0x1234
/-- P2. -/
def stateC : State := loaded (captureC (frameBits (0x1202155 : BitVec 28))) 3000 0x5A5A

/-- The next state, if there is one. -/
def nextOf (x : Answer State) : Option State :=
  match x with
  | .next t => some t
  | .fault _ => none
  | .refused _ => none

theorem next_of_isSome {x : Answer State} {s : State} (h : (nextOf x).isSome = true) : x = .next ((nextOf x).getD s) := by
  cases x <;> simp [nextOf] at h ⊢

/-- The state a command leaves. -/
def after (i : Instr) (s : State) : State := (nextOf (exec i s)).getD s

/-- STATUS after a command. -/
def statusAfter (i : Instr) (s : State) : Option Reg := (nextOf (exec i s)).map (·.status)

/-- Has the machine stopped with the fault that names slot `k`? -/
def faultsAt (k : Nat) (x : Answer State) : Bool :=
  match x with
  | .next _ => false
  | .fault f => decide (f = .unwrittenCapture k)
  | .refused _ => false

/-- Configuration E with one field changed for the worse is refused. -/
theorem test_wf_exampleE : cfgE.wf = true := by decide

/-! ## One ill-formed term for each check of WellFormed.lean and of `Config.wf` (R10) -/

theorem test_illformed_a_zeroLo : ({ cfgE with aWindows := { cfgE.aWindows with zeroLo := 121 } } : Config).wf = false := by decide
theorem test_illformed_a_oneTh : ({ cfgE with aWindows := { cfgE.aWindows with oneTh := 120 } } : Config).wf = false := by decide
theorem test_illformed_a_durMax : ({ cfgE with aWindows := { cfgE.aWindows with oneTh := 65536 } } : Config).wf = false := by decide
theorem test_illformed_a_markCeil : ({ cfgE with aWindows := { cfgE.aWindows with markCeil := 65536 } } : Config).wf = false := by decide
theorem test_illformed_b_windows : ({ cfgE with bWindows := { cfgE.bWindows with zeroHi := 160 } } : Config).wf = false := by decide
theorem test_illformed_c_zero : ({ cfgE with cWindows := { cfgE.cWindows with zeroLo := 121 } } : Config).wf = false := by decide
theorem test_illformed_c_zeroHi : ({ cfgE with cWindows := { cfgE.cWindows with zeroHi := 65536 } } : Config).wf = false := by decide
theorem test_illformed_c_one : ({ cfgE with cWindows := { cfgE.cWindows with oneLo := 281 } } : Config).wf = false := by decide
theorem test_illformed_c_oneHi : ({ cfgE with cWindows := { cfgE.cWindows with oneHi := 262141 } } : Config).wf = false := by decide
theorem test_illformed_odd_a : ({ cfgE with aFirstSlot := 1, aLen := 76 } : Config).wf = false := by decide
theorem test_illformed_odd_b : ({ cfgE with bFirstSlot := 1, bLen := 82 } : Config).wf = false := by decide
theorem test_illformed_odd_c : ({ cfgE with cFirstSlot := 1 } : Config).wf = false := by decide
theorem test_illformed_aLen_short : ({ cfgE with aLen := 73 } : Config).wf = false := by decide
theorem test_illformed_aLen_deep : ({ cfgE with aLen := 257 } : Config).wf = false := by decide
theorem test_illformed_bLen_short : ({ cfgE with bLen := 79 } : Config).wf = false := by decide
theorem test_illformed_bLen_deep : ({ cfgE with bLen := 257 } : Config).wf = false := by decide
theorem test_illformed_cLenMin : ({ cfgE with cStopSlots := 59 } : Config).wf = false := by decide
theorem test_illformed_cLenMax : ({ cfgE with cLenMax := 57 } : Config).wf = false := by decide
theorem test_illformed_cLen_deep : ({ cfgE with cLenMax := 257 } : Config).wf = false := by decide
theorem test_illformed_usedOffset : ({ cfgE with aUsedOffset := 2 } : Config).wf = false := by decide
theorem test_illformed_aggOffset : ({ cfgE with cAggOffset := 0 } : Config).wf = false := by decide
theorem test_illformed_capDepth : ({ cfgE with capDepth := 65536 } : Config).wf = false := by decide
/-- The bounds themselves are admitted: windows that touch DUR_MAX, the other offsets, the deepest memory. -/
theorem test_wellformed_bounds :
    ({ cfgE with
        capDepth := 65535, aUsedOffset := 1, cAggOffset := 2
        aWindows := { markCeil := 65535, zeroLo := 0, zeroHi := 65534, oneTh := 65535 }
        cWindows := { zeroLo := 65535, zeroHi := 65535, oneLo := 0, oneHi := 262140 } } : Config).wf = true := by decide
theorem test_illformed_word_reserved : wordLegal 0x00000009 = false := by decide
theorem test_illformed_word_op : wordLegal 0x00000005 = false := by decide
theorem test_illformed_access_width : (HostEvent.write 16 0 0).wf = false := by decide
theorem test_illformed_access_align : (HostEvent.read 32 2).wf = false := by decide

/-! ## Decoding: the words of R71's table, bit by bit: RSV in bits 31:3, OP in bits 2:0 -/

theorem test_decode_nop : decode 0b00000000000000000000000000000000 = .ok .nop := by decide
theorem test_decode_decodeA : decode 0b00000000000000000000000000000001 = .ok .decodeA := by decide
theorem test_decode_decodeB : decode 0b00000000000000000000000000000010 = .ok .decodeB := by decide
theorem test_decode_decodeC : decode 0b00000000000000000000000000000011 = .ok .decodeC := by decide
theorem test_decode_dupclr : decode 0b00000000000000000000000000000100 = .ok .dupclr := by decide
theorem test_decode_op7 : decode 0b00000000000000000000000000000111 = .error .reservedOp := by decide
theorem test_decode_high_bit : decode 0b10000000000000000000000000000100 = .error .reservedBitsSet := by decide
theorem test_tableWord : decodeTableWord 32 3 = some .decodeC ∧ decodeTableWord 3 4 = some .dupclr
    ∧ decodeTableWord 32 8 = none ∧ decodeTableWord 33 3 = none := by decide

/-! ## One step of each command (section 4 of the vectors, and section 3.3) -/

/-- P4: NOP leaves STATUS 1, whatever STATUS held. -/
theorem test_nop : statusAfter .nop (stateA.setStatus 0x24C3) = some 0x00000001 := by decide +kernel

/-- P4: DUPCLR, then DUP_VALID reads 0. -/
theorem test_dupclr :
    (nextOf (exec .dupclr (stateA.setDup { valid := true, sig := 5, hash := 6, time := 7 }))).map
      (fun t => (t.status, loadReg t .duprSigHi, loadReg t .duprHash)) = some (0x00000001, 0, 0) := by decide +kernel

/-- P1, step 3: STATUS 0x24C3, RD_TEMP 1, RD_MISC 0x39, RD_FRAME_HI 0x2400, DUPR_SIG_HI 0x80000100. -/
theorem test_decodeA_accepts :
    (nextOf (exec .decodeA stateA)).map (fun t =>
      (t.status, t.rd.protoId, t.rd.temp, t.rd.hum, t.rd.misc, t.rd.frameLo, t.rd.frameHi, loadReg t .duprSigHi, t.dup.time))
      = some (0x000024C3, 0x00010000, 0x00000001, 0x00000100, 0x00000039, 0x00000100, 0x00002400, 0x80000100, 1000) := by
  decide +kernel

/-- Section 3.3: the space of bit 5 is 130: TimingOutOfTolerance, BITCNT 5. -/
theorem test_decodeA_times_out :
    statusAfter .decodeA (stateA.setCapMem (capWrite stateA.capMem 11 130)) = some 0x00000517 := by decide +kernel

/-- P3: STATUS 0x28C3, RD_PROTO_ID 0x200A5, RD_TEMP 0x8032, RD_HUM 0x345, RD_MISC 0, frame 0xA546A45000. -/
theorem test_decodeB_accepts :
    (nextOf (exec .decodeB stateB)).map (fun t =>
      (t.status, t.rd.protoId, t.rd.temp, t.rd.hum, t.rd.misc, t.rd.frameLo, t.rd.frameHi, loadReg t .duprSigHi))
      = some (0x000028C3, 0x000200A5, 0x00008032, 0x00000345, 0x00000000, 0x46A45000, 0x000028A5, 0x800002A5) := by
  decide +kernel

/-- Section 3.4: humidity 0x9A is a RangeViolation. -/
theorem test_decodeB_rejects_humidity :
    statusAfter .decodeB (loaded (captureB 0xA546A9A000) 0 0) = some 0x0000282F := by decide +kernel

/-- P2: STATUS 0x1CC3, RD_PROTO_ID 0x30012, RD_TEMP 0xD7, RD_MISC 0x40; W10: CURSOR ends at 88. -/
theorem test_decodeC_accepts :
    (nextOf (exec .decodeC stateC)).map (fun t =>
      (t.status, t.rd.protoId, t.rd.temp, t.rd.hum, t.rd.misc, t.rd.frameLo, t.rd.frameHi, t.work.cursor))
      = some (0x00001CC3, 0x00030012, 0x000000D7, 0x00000000, 0x00000040, 0x01202155, 0x00001C00, 88) := by
  decide +kernel

/-- P5: 29 bits are AmbiguousOrShortFrame with BITCNT 29. -/
theorem test_decodeC_long :
    statusAfter .decodeC (loaded (captureC (frameBits (0x1202155 : BitVec 28) ++ [false])) 0 0) = some 0x00001D1F := by
  decide +kernel

/-- A build with C_LEN_MIN = 0, which R10 admits. -/
def cfgZero : Config := { cfgE with cLenMin := 0, cStopSlots := 0 }
/-- CAP_LEN = 0 is LengthMismatch for every protocol (R140's corner cases, R263), in a build with C_LEN_MIN = 0 too; CAP_LEN = 1 is no
longer that, but holds no bit. -/
theorem test_empty_capture :
    cfgZero.wf = true
      ∧ [Instr.decodeA, .decodeB, .decodeC].map (fun i => statusAfter i (State.resetOf cfgZero))
        = [some 0x0000000F, some 0x0000000F, some 0x0000000F]
      ∧ statusAfter .decodeC ((State.resetOf cfgZero).setCapLen 1) = some 0x0000001F := by decide +kernel

/-- P4: WR CMD, 9 is IllegalCommand. -/
theorem test_illegal_word :
    (nextOf (step (stateB.setPending [.write 32 0 9]))).map (fun t => (t.status, t.capLen)) = some (0x0000003F, 80) := by
  decide +kernel

/-- P1, steps 3 to 6: the duplicate window, through NOW. -/
theorem test_duplicate_window :
    statusAfter .decodeA ((after .decodeA stateA).setNow 1500) = some 0x00002405
      ∧ statusAfter .decodeA ((after .decodeA stateA).setNow 1501) = some 0x000024C3 := by decide +kernel

/-- Section 3.6: the age across the wrap of NOW. -/
theorem test_age_wraps : age 0x000000F3 0xFFFFFF00 = 499 ∧ age 0x000000F5 0xFFFFFF00 = 501 := by decide

/-- Section 3.5: RESCALE_B truncates toward zero. -/
theorem test_rescaleB : rescaleB 900 = ⟨true, 177⟩ ∧ rescaleB 1219 = ⟨false, 0⟩ ∧ rescaleB 0 = ⟨true, 677⟩
    ∧ rescaleB 4095 = ⟨false, 1597⟩ := by decide +kernel

/-- Section 3.5: SIGN12 at its corners. -/
theorem test_sign12 : sign12 0xFF6 = ⟨true, 10⟩ ∧ sign12 0x800 = ⟨true, 2048⟩ ∧ sign12 0x7FF = ⟨false, 2047⟩ := by decide

/-- Section 3.1: a mark at the ceiling is a reject though the space is unwritten; a missing space after a good mark is a
model fault. -/
theorem test_classify2_unwritten :
    classify2 cfgE [(0, 40)] .a 0 = .ok rejected ∧ classify2 cfgE [(0, 39)] .a 0 = .error (.unwrittenCapture 1) := by
  constructor <;> rfl

/-- Section 3.2: the zero form wins (R105), the bounds of the one window, and the mark unread. -/
theorem test_classifyC :
    classifyC cfgE (slotsFrom 0 [20, 110, 100, 40, 30, 0]) 0 6 = .ok { outcome := .zero, consumed := 2 }
      ∧ classifyC cfgE (slotsFrom 1 [70, 90, 70, 50]) 0 6 = .ok { outcome := .one, consumed := 6 }
      ∧ classifyC cfgE (slotsFrom 1 [70, 91, 70, 50]) 0 6 = .ok rejected
      ∧ classifyC cfgE (slotsFrom 1 [70, 90, 70, 50]) 0 5 = .ok rejected := by
  refine ⟨?_, ?_, ?_, ?_⟩ <;> rfl

/-- The host's read of CAP[i] above CAP_DEPTH is reserved (R55), and of a written slot its value. -/
theorem test_host_reads :
    (nextOf (step (stateA.setPending [.read 32 0x100DC]))).map (·.busData) = some (some 200)
      ∧ (nextOf (step (stateA.setPending [.read 32 0x10400]))).map (·.busData) = some (some 0) := by decide +kernel

/-! ## Witnesses: reset, idling, configuration -/

/-- The reset state of configuration E meets the invariant. -/
theorem legal_resetE : StateLegal (State.resetOf cfgE) where
  config  := by decide
  memory  := ⟨rfl, fun _ _ => rfl⟩
  status  := (by unfold StatusLegal; decide : StatusLegal 0)
  results := (by unfold ResultsLegal; decide : ResultsLegal ReadRegs.zero)
  dup     := fun _ => rfl
  work    := workLegal_clear

theorem witness_ResetHoldsTheTabledValues :
    (State.reset = State.reset ∨ ∃ c : Config, State.reset = State.resetOf c)
      ∧ (State.resetOf cfgE = State.reset ∨ ∃ c : Config, State.resetOf cfgE = State.resetOf c)
      ∧ 255 < (State.resetOf cfgE).cfg.capDepth := ⟨.inl rfl, .inr ⟨cfgE, rfl⟩, by decide⟩
theorem witness_InvariantHoldsAtReset : cfgE.wf = true := by decide
theorem witness_EveryStepKeepsTheInvariant :
    StateLegal (State.resetOf cfgE) ∧ step (State.resetOf cfgE) = .next (State.resetOf cfgE) := ⟨legal_resetE, rfl⟩
theorem witness_ResetEventClearsTheState :
    (stateA.setPending [.reset, .read 32 4]).cfg.wf = true
      ∧ (stateA.setPending [.reset, .read 32 4]).pending = .reset :: [.read 32 4] := by decide +kernel
theorem witness_ResetAndDupclrClearTheDuplicateStateAlike : stateA.cfg.wf = true := by decide +kernel
theorem witness_IdleStepHoldsTheState : stateA.cfg.wf = true ∧ stateA.pending = [] := by decide +kernel
theorem witness_IllFormedConfigurationIsRefused :
    cfgE.wf = true ∧ (State.resetOf { cfgE with aLen := 73 }).cfg.wf = false := by decide
theorem witness_NoStepChangesTheConfiguration : step stateA = .next stateA := rfl

/-! ## Witnesses: command words -/

theorem witness_StepRunsTheDecodedCommand :
    stateA.cfg.wf = true ∧ (stateA.setPending [.write 32 0 1]).pending = .write 32 0 1 :: [] ∧ decode 1 = .ok .decodeA
      ∧ Instr.decodeA.wf = true := by decide +kernel
theorem witness_IllegalWordIsRejected :
    stateA.cfg.wf = true ∧ (stateA.setPending [.write 32 0 8]).pending = .write 32 0 8 :: []
      ∧ (∀ i : Instr, (8 : Reg) ≠ encode i) ∧ (∀ i : Instr, (5 : Reg) ≠ encode i) := by
  refine ⟨by decide +kernel, rfl, fun i => ?_, fun i => ?_⟩ <;> cases i <;> decide
theorem witness_NopOnlyCompletes : stateA.cfg.wf = true := by decide +kernel
theorem witness_DupclrClearsTheDuplicateState : stateA.cfg.wf = true := by decide +kernel

/-! ## Witnesses: every DECODE -/

/-- A command that completes on a test state, as an equation. -/
theorem exec_next {i : Instr} {s : State} (h : (nextOf (exec i s)).isSome = true) : exec i s = .next (after i s) :=
  next_of_isSome h

/-- The accepted, the suppressed and the rejected outcome. -/
theorem witness_DecodeFrameByOutcome :
    isDecode .decodeA = true ∧ exec .decodeA stateA = .next (after .decodeA stateA)
      ∧ statusResult (after .decodeA stateA).status = resultCode .accepted
      ∧ statusResult (after .decodeA (after .decodeA stateA)).status = resultCode .suppressed
      ∧ statusResult (after .decodeA stateC).status = resultCode .rejected :=
  ⟨rfl, exec_next (by decide +kernel), by decide +kernel, by decide +kernel, by decide +kernel⟩
theorem witness_PlainCommandsFrame :
    exec .nop stateA = .next (after .nop stateA) ∧ exec .dupclr stateA = .next (after .dupclr stateA) :=
  ⟨exec_next (by decide +kernel), exec_next (by decide +kernel)⟩
theorem witness_AcceptedSignatureIsTheReportedFrame :
    isDecode .decodeB = true ∧ exec .decodeB stateB = .next (after .decodeB stateB)
      ∧ statusResult (after .decodeB stateB).status = resultCode .accepted ∧ stateB.cfg.sigFn = .standard :=
  ⟨rfl, exec_next (by decide +kernel), by decide +kernel, rfl⟩
/-- A written capture, and one with a slot missing, on which DECODE.A faults. -/
theorem witness_EveryCommandCompletesOnAWrittenCapture :
    stateA.cfg.wf = true ∧ CaptureWritten stateA
      ∧ faultsAt 0 (exec .decodeA ((State.resetOf cfgE).setCapLen 74)) = true :=
  ⟨by decide +kernel, by decide +kernel, by decide +kernel⟩
/-- A memory that agrees below CAP_LEN = 74 and differs above. -/
theorem witness_NoCommandReadsAtOrAboveCapLen :
    stateA.cfg.wf = true
      ∧ (∀ a < stateA.capLen.toNat, capRead (capWrite stateA.capMem 74 9) a = capRead stateA.capMem a)
      ∧ capRead (capWrite stateA.capMem 74 9) 74 ≠ capRead stateA.capMem 74 := by
  refine ⟨by decide +kernel, by decide +kernel, by decide +kernel⟩
/-- A memory that differs in the unused transmitted bit of A (slots 72 and 73), and one that differs above B's slots. -/
theorem witness_FixedDecodersReadOnlyTheirBits :
    stateA.cfg.wf = true
      ∧ (∀ a, stateA.cfg.aFirstSlot + 2 * stateA.cfg.aUsedOffset ≤ a →
          a < stateA.cfg.aFirstSlot + 2 * stateA.cfg.aUsedOffset + 72 →
          capRead (capWrite stateA.capMem 72 9) a = capRead stateA.capMem a)
      ∧ ∀ a, stateB.cfg.bFirstSlot ≤ a → a < stateB.cfg.bFirstSlot + 80 →
          capRead (capWrite stateB.capMem 80 9) a = capRead stateB.capMem a := by
  refine ⟨by decide +kernel, fun a _ h => capRead_capWrite_other _ _ ?_, fun a _ h => capRead_capWrite_other _ _ ?_⟩
  · have : a < 72 := h
    omega
  · have : a < 80 := h
    omega
theorem witness_NoCommandSeesEarlierStatusOrWorkingState : isDecode .decodeC = true := rfl
theorem witness_RejectedDecodeIsInvisibleToTheNextDecode :
    isDecode .decodeA = true ∧ isDecode .decodeC = true ∧ exec .decodeA stateC = .next (after .decodeA stateC)
      ∧ statusResult (after .decodeA stateC).status = resultCode .rejected :=
  ⟨rfl, rfl, exec_next (by decide +kernel), by decide +kernel⟩
/-- Ages 500 and 501, the two sides of the window, and the third feeding. -/
theorem witness_RepeatedReadingIsSuppressedThenAccepted :
    isDecode .decodeA = true ∧ exec .decodeA stateA = .next (after .decodeA stateA)
      ∧ statusResult (after .decodeA stateA).status = resultCode .accepted
      ∧ ((1500 : BitVec 32) - stateA.now).toNat ≤ 500 ∧ 500 < ((1501 : BitVec 32) - stateA.now).toNat :=
  ⟨rfl, exec_next (by decide +kernel), by decide +kernel, by decide +kernel, by decide +kernel⟩

/-! ## Witnesses: length, unwritten slots, timing aborts -/

/-- CAP_LEN 73, 79 and 57, with no slot written (W1); the upper side of C's range, 171; and CAP_LEN = 0. -/
theorem witness_WrongLengthIsLengthMismatch :
    (State.resetOf cfgE).cfg.wf = true
      ∧ ((State.resetOf cfgE).setCapLen 73).capLen.toNat ≠ cfgE.aLen
      ∧ ((State.resetOf cfgE).setCapLen 79).capLen.toNat ≠ cfgE.bLen
      ∧ ¬ (cfgE.cLenMin ≤ ((State.resetOf cfgE).setCapLen 57).capLen.toNat
          ∧ ((State.resetOf cfgE).setCapLen 57).capLen.toNat ≤ cfgE.cLenMax)
      ∧ ¬ (cfgE.cLenMin ≤ ((State.resetOf cfgE).setCapLen 171).capLen.toNat
          ∧ ((State.resetOf cfgE).setCapLen 171).capLen.toNat ≤ cfgE.cLenMax)
      ∧ (State.resetOf cfgZero).cfg.wf = true ∧ (State.resetOf cfgZero).capLen = 0 ∧ isDecode .decodeC = true := by
  decide
theorem witness_UnwrittenFirstSlotFaults :
    (State.resetOf cfgE).cfg.wf = true
      ∧ (((State.resetOf cfgE).setCapLen 74).capLen.toNat = cfgE.aLen
          ∧ capWritten ((State.resetOf cfgE).setCapLen 74).capMem (firstUsedA cfgE) = false)
      ∧ (((State.resetOf cfgE).setCapLen 80).capLen.toNat = cfgE.bLen
          ∧ capWritten ((State.resetOf cfgE).setCapLen 80).capMem cfgE.bFirstSlot = false)
      ∧ (cfgE.cLenMin ≤ ((State.resetOf cfgE).setCapLen 58).capLen.toNat
          ∧ ((State.resetOf cfgE).setCapLen 58).capLen.toNat ≤ cfgE.cLenMax
          ∧ cfgE.cFirstSlot + 2 ≤ dataEndC cfgE 58
          ∧ capWritten ((State.resetOf cfgE).setCapLen 58).capMem (cfgE.cFirstSlot + 1) = false) := by decide
/-- The first pair of A bad (a mark at the ceiling, its space unwritten), and the last pair of B bad. -/
theorem witness_FirstBadPairAbortsFixedDecode :
    (stateA.cfg.wf = true ∧ stateA.capLen.toNat = stateA.cfg.aLen ∧ (0 : Nat) < 36
        ∧ EncodesFixed cfgE.aWindows [(0, 40)] (firstUsedA cfgE) 0 (fun _ => false)
        ∧ pairBad cfgE.aWindows [(0, 40)] (firstUsedA cfgE + 2 * 0) = true)
      ∧ (stateB.capLen.toNat = stateB.cfg.bLen ∧ (39 : Nat) < 40
        ∧ EncodesFixed cfgE.bWindows (capWrite stateB.capMem 79 160) cfgE.bFirstSlot 39
            (fun k => (0xA546A45000 : BitVec 40).getMsbD k)
        ∧ pairBad cfgE.bWindows (capWrite stateB.capMem 79 160) (cfgE.bFirstSlot + 2 * 39) = true) := by decide +kernel
/-- Section 3.3: bit 3 of the P2 capture with aggregate 281; and a six-slot bit that does not fit before the end. -/
theorem witness_FirstBadFormAbortsVariableDecode :
    stateC.cfg.wf = true ∧ cfgE.cLenMin ≤ stateC.capLen.toNat ∧ stateC.capLen.toNat ≤ cfgE.cLenMax
      ∧ [false, false, false].length < 32
      ∧ encodesC cfgE (capWrite stateC.capMem 8 91) (dataEndC cfgE stateC.capLen) cfgE.cFirstSlot
          [false, false, false] 6 = true
      ∧ formBad cfgE (capWrite stateC.capMem 8 91) (dataEndC cfgE stateC.capLen) 6 = true
      ∧ formBad cfgE stateC.capMem 10 6 = true := by decide +kernel
/-- P5's 27 bits, and the 32-bit end of the buffer with input left over. -/
theorem witness_WrongBitCountIsAmbiguousOrShort :
    (let bs := (frameBits (0x1202155 : BitVec 28)).take 27
     let s := loaded (captureC bs) 0 0
     s.cfg.wf = true ∧ s.capLen ≠ 0 ∧ cfgE.cLenMin ≤ s.capLen.toNat ∧ s.capLen.toNat ≤ cfgE.cLenMax
      ∧ encodesC cfgE s.capMem (dataEndC cfgE s.capLen) cfgE.cFirstSlot bs 82 = true
      ∧ bs.length ≠ 28 ∧ (bs.length < 32 ∧ dataEndC cfgE s.capLen < 82 + 2))
    ∧ (let s := loaded (captureC (List.replicate 33 false)) 0 0
       s.capLen ≠ 0
        ∧ encodesC cfgE s.capMem (dataEndC cfgE s.capLen) cfgE.cFirstSlot (List.replicate 32 false) 64 = true
        ∧ (List.replicate 32 false).length = 32) := by decide +kernel

/-! ## Witnesses: the three decoders on a frame -/

theorem witness_DecodeAAcceptsAValidFrame :
    stateA.cfg.wf = true ∧ stateA.capLen.toNat = stateA.cfg.aLen
      ∧ EncodesFixed stateA.cfg.aWindows stateA.capMem (firstUsedA stateA.cfg) 36
          (fun k => (0x000000100 : BitVec 36).getMsbD k)
      ∧ aMain 0x000000100 ≠ 0 ∧ twosMag (aTemp 0x000000100) ≤ 600 ∧ (aHum 0x000000100).toNat ≤ 99
      ∧ GateOpen stateA (sigOf stateA.cfg 1 ((0x000000100 : BitVec 36).setWidth 40) 36) := by decide +kernel
/-- The zero main frame, temperature 601, humidity 100, and a closed gate. -/
theorem witness_DecodeATurnsAwayOtherFrames :
    (let s := loaded (captureA 0x000000005) 0 0
     s.cfg.wf = true ∧ s.capLen.toNat = s.cfg.aLen
      ∧ EncodesFixed s.cfg.aWindows s.capMem (firstUsedA s.cfg) 36 (fun k => (0x000000005 : BitVec 36).getMsbD k)
      ∧ aMain 0x000000005 = 0)
    ∧ (EncodesFixed cfgE.aWindows (loaded (captureA 0x000025900) 0 0).capMem (firstUsedA cfgE) 36
          (fun k => (0x000025900 : BitVec 36).getMsbD k)
        ∧ aMain 0x000025900 ≠ 0 ∧ 600 < twosMag (aTemp 0x000025900))
    ∧ (EncodesFixed cfgE.aWindows (loaded (captureA 0x000000164) 0 0).capMem (firstUsedA cfgE) 36
          (fun k => (0x000000164 : BitVec 36).getMsbD k)
        ∧ aMain 0x000000164 ≠ 0 ∧ 99 < (aHum 0x000000164).toNat)
    ∧ ((after .decodeA stateA).capLen.toNat = cfgE.aLen
        ∧ ¬ GateOpen (after .decodeA stateA) (sigOf cfgE 1 ((0x000000100 : BitVec 36).setWidth 40) 36)) := by
  decide +kernel
theorem witness_DecodeBAcceptsAValidFrame :
    stateB.cfg.wf = true ∧ stateB.capLen.toNat = stateB.cfg.bLen
      ∧ EncodesFixed stateB.cfg.bWindows stateB.capMem stateB.cfg.bFirstSlot 40
          (fun k => (0xA546A45000 : BitVec 40).getMsbD k)
      ∧ bHum 0xA546A45000 ≠ 0 ∧ (rescaleB (bTemp 0xA546A45000)).mag ≤ stateB.cfg.bTempMax
      ∧ (bHum 0xA546A45000).toNat ≤ 0x99 ∧ GateOpen stateB (sigOf stateB.cfg 2 0xA546A45000 40) := by decide +kernel
/-- Humidity 0, tcode 0 (magnitude 677), humidity 0x9A, and a closed gate. -/
theorem witness_DecodeBTurnsAwayOtherFrames :
    (let s := loaded (captureB 0xA546A00000) 0 0
     s.cfg.wf = true ∧ s.capLen.toNat = s.cfg.bLen
      ∧ EncodesFixed s.cfg.bWindows s.capMem s.cfg.bFirstSlot 40 (fun k => (0xA546A00000 : BitVec 40).getMsbD k)
      ∧ bHum 0xA546A00000 = 0)
    ∧ (EncodesFixed cfgE.bWindows (loaded (captureB 0xA500045000) 0 0).capMem cfgE.bFirstSlot 40
          (fun k => (0xA500045000 : BitVec 40).getMsbD k)
        ∧ bHum 0xA500045000 ≠ 0 ∧ cfgE.bTempMax < (rescaleB (bTemp 0xA500045000)).mag)
    ∧ (EncodesFixed cfgE.bWindows (loaded (captureB 0xA546A9A000) 0 0).capMem cfgE.bFirstSlot 40
          (fun k => (0xA546A9A000 : BitVec 40).getMsbD k)
        ∧ bHum 0xA546A9A000 ≠ 0 ∧ 0x99 < (bHum 0xA546A9A000).toNat)
    ∧ ((after .decodeB stateB).capLen.toNat = cfgE.bLen
        ∧ ¬ GateOpen (after .decodeB stateB) (sigOf cfgE 2 0xA546A45000 40)) := by decide +kernel
theorem witness_DecodeCAcceptsAValidFrame :
    stateC.cfg.wf = true ∧ stateC.cfg.cLenMin ≤ stateC.capLen.toNat ∧ stateC.capLen.toNat ≤ stateC.cfg.cLenMax
      ∧ encodesC stateC.cfg stateC.capMem (dataEndC stateC.cfg stateC.capLen) stateC.cfg.cFirstSlot
          (frameBits (0x1202155 : BitVec 28)) 88 = true
      ∧ dataEndC stateC.cfg stateC.capLen < 88 + 2
      ∧ cChecksum 0x1202155 = (0x1202155 : BitVec 28).extractLsb' 0 4 ∧ (0x1202155 : BitVec 28) ≠ 0
      ∧ cMag 0x1202155 ≤ stateC.cfg.cTempMax
      ∧ GateOpen stateC (sigOf stateC.cfg 3 ((0x1202155 : BitVec 28).setWidth 40) 28) := by decide +kernel
/-- W7's flipped frame, the zero frame, magnitude 601 with its checksum right, and a closed gate. -/
theorem witness_DecodeCTurnsAwayOtherFrames :
    (let s := loaded (captureC (frameBits (0x1302155 : BitVec 28))) 0 0
     s.cfg.wf = true ∧ cfgE.cLenMin ≤ s.capLen.toNat ∧ s.capLen.toNat ≤ cfgE.cLenMax
      ∧ encodesC cfgE s.capMem (dataEndC cfgE s.capLen) cfgE.cFirstSlot (frameBits (0x1302155 : BitVec 28)) 92 = true
      ∧ dataEndC cfgE s.capLen < 92 + 2 ∧ cChecksum 0x1302155 ≠ (0x1302155 : BitVec 28).extractLsb' 0 4)
    ∧ (let s := loaded (captureC (frameBits (0 : BitVec 28))) 0 0
       cfgE.cLenMin ≤ s.capLen.toNat
        ∧ encodesC cfgE s.capMem (dataEndC cfgE s.capLen) cfgE.cFirstSlot (frameBits (0 : BitVec 28)) 56 = true
        ∧ dataEndC cfgE s.capLen < 56 + 2)
    ∧ (let s := loaded (captureC (frameBits (0x1206014 : BitVec 28))) 0 0
       encodesC cfgE s.capMem (dataEndC cfgE s.capLen) cfgE.cFirstSlot (frameBits (0x1206014 : BitVec 28)) 80 = true
        ∧ dataEndC cfgE s.capLen < 80 + 2
        ∧ cChecksum 0x1206014 = (0x1206014 : BitVec 28).extractLsb' 0 4 ∧ (0x1206014 : BitVec 28) ≠ 0
        ∧ cfgE.cTempMax < cMag 0x1206014)
    ∧ ¬ GateOpen (after .decodeC stateC) (sigOf cfgE 3 ((0x1202155 : BitVec 28).setWidth 40) 28) := by decide +kernel

/-! ## Witnesses: the sub-blocks -/

/-- One slot pair for each clause, at the edges of the windows. -/
theorem witness_ClassifyTwoJudgesThePair :
    (0 + 1 < cfgE.capDepth ∧ capRead [(0, 40)] 0 = some 40 ∧ (windowsOf cfgE .a).markCeil ≤ (40 : Dur).toNat)
      ∧ (capRead [(0, 39), (1, 161)] 1 = some 161 ∧ (39 : Dur).toNat < (windowsOf cfgE .a).markCeil
        ∧ (windowsOf cfgE .a).oneTh < (161 : Dur).toNat)
      ∧ ((120 : Dur).toNat ≤ (windowsOf cfgE .b).oneTh ∧ (windowsOf cfgE .b).zeroLo ≤ (120 : Dur).toNat
        ∧ (120 : Dur).toNat ≤ (windowsOf cfgE .b).zeroHi)
      ∧ ((160 : Dur).toNat ≤ (windowsOf cfgE .b).oneTh
        ∧ ¬ ((windowsOf cfgE .b).zeroLo ≤ (160 : Dur).toNat ∧ (160 : Dur).toNat ≤ (windowsOf cfgE .b).zeroHi)) := by
  decide
/-- Section 1's midpoints 100 and 32848, and spaces 79, 121 and 160. -/
theorem witness_TwoSlotWindowsMidpointsAndEdges :
    cfgE.aWindows.wf = true ∧ (100 : Dur).toNat = (cfgE.aWindows.zeroLo + cfgE.aWindows.zeroHi) / 2
      ∧ cfgE.aWindows.oneTh < 65535 ∧ (32848 : Dur).toNat = (cfgE.aWindows.oneTh + 1 + 65535) / 2
      ∧ (79 : Dur).toNat + 1 = cfgE.aWindows.zeroLo ∧ (121 : Dur).toNat = cfgE.aWindows.zeroHi + 1
      ∧ (160 : Dur).toNat = cfgE.aWindows.oneTh := by decide
/-- A zero at its bound, a form with no room, and an aggregate at the bound of the one window. -/
theorem witness_ClassifyCJudgesTheForm :
    254 + 1 < cfgE.capDepth ∧ capRead (slotsFrom 255 [120]) (254 + 1) = some 120
      ∧ (cfgE.cWindows.zeroLo ≤ (120 : Dur).toNat ∧ (120 : Dur).toNat ≤ cfgE.cWindows.zeroHi)
      ∧ ¬ (cfgE.cWindows.zeroLo ≤ (70 : Dur).toNat ∧ (70 : Dur).toNat ≤ cfgE.cWindows.zeroHi)
      ∧ 255 < 254 + 6 ∧ 0 + 6 ≤ 6 ∧ 6 ≤ cfgE.capDepth ∧ (cfgE.cAggOffset = 1 ∨ cfgE.cAggOffset = 2)
      ∧ capRead (slotsFrom 1 [70, 90, 70, 50]) (0 + cfgE.cAggOffset) = some 70
      ∧ capRead (slotsFrom 1 [70, 90, 70, 50]) (0 + cfgE.cAggOffset + 3) = some 50 := by decide
theorem witness_ClassifyCNeverReadsTheMark :
    cfgE.wf = true ∧ (∀ a, a ≠ 0 → capRead (slotsFrom 1 [100]) a = capRead (slotsFrom 0 [20, 100]) a)
      ∧ capRead (slotsFrom 1 [100]) 0 ≠ capRead (slotsFrom 0 [20, 100]) 0 := by
  refine ⟨by decide, fun a h => ?_, by decide⟩
  simp [slotsFrom, capRead, h]
theorem witness_ShiftRegisterHoldsTheBitsInOrder :
    (frameBits (0xA546A45000 : BitVec 40)).length ≤ 40 ∧ 39 < (frameBits (0xA546A45000 : BitVec 40)).length
      ∧ (4 : Fin 5).val < (frameBits (0xA546A45000 : BitVec 40)).length / 8
      ∧ (frameBits (0x1202155 : BitVec 28)).length / 8 ≤ (3 : Fin 5).val := by decide
/-- 28 bits (a partial cell) and 40 bits (none). -/
theorem witness_FlushStoresThePartialCellRightAligned :
    (shiftAll (frameBits (0x1202155 : BitVec 28))).bitcnt.toNat ≤ 40
      ∧ (shiftAll (frameBits (0x1202155 : BitVec 28))).bitcnt.toNat % 8 ≠ 0
      ∧ (shiftAll (frameBits (0xA546A45000 : BitVec 40))).bitcnt.toNat ≤ 40
      ∧ (shiftAll (frameBits (0xA546A45000 : BitVec 40))).bitcnt.toNat % 8 = 0 := by decide +kernel

/-- How an assembly ends: 0 passed, 1 raised, 2 faulted, and its BITCNT. -/
def ends (x : Stage Work) : Nat × Nat :=
  match x with
  | .pass w => (0, w.bitcnt.toNat)
  | .raise _ w => (1, w.bitcnt.toNat)
  | .fault _ => (2, 0)

/-- Assemblies that pass and that raise, both kinds. -/
theorem witness_AssemblyIsNeverPartial :
    ends (assembleFixed cfgE stateA.capMem .a 36 0 Work.clear) = (0, 36)
      ∧ ends (assembleFixed cfgE (capWrite stateA.capMem 11 130) .a 36 0 Work.clear) = (1, 5)
      ∧ ends (assembleVar cfgE stateC.capMem 90 Work.clear) = (0, 28)
      ∧ ends (assembleVar cfgE stateC.capMem 60 Work.clear) = (1, 21) := by decide +kernel
theorem witness_VariableAndFixedAssemblyAgree :
    cfgE.wf = true ∧ cfgE.cLenMin ≤ (90 : BitVec 16).toNat ∧ (90 : BitVec 16).toNat ≤ cfgE.cLenMax
      ∧ (frameBits (0x1202155 : BitVec 28)).length = 28
      ∧ encodesC cfgE stateC.capMem (dataEndC cfgE 90) cfgE.cFirstSlot (frameBits (0x1202155 : BitVec 28)) 88 = true
      ∧ dataEndC cfgE 90 < 88 + 2 ∧ 0 + 2 * 28 ≤ cfgE.capDepth
      ∧ EncodesFixed (windowsOf cfgE .a) (slotsFrom 0 ((frameBits (0x1202155 : BitVec 28)).flatMap pairOf)) 0 28
          (fun k => (frameBits (0x1202155 : BitVec 28)).getD k false) := by decide +kernel
theorem witness_ChecksumCatchesASingleFlippedBit :
    checksumC { Work.clear with fb := #v[0x12, 0x02, 0x15, 0x05, 0x00] } = .ok () := by rfl
/-- −60.0 and 0 for A, −21.5 and 60.0 for C in configuration E. -/
theorem witness_TemperatureRoundTrips :
    |(-600 : Int)| ≤ 600 ∧ (-215 : Int).natAbs ≤ cfgE.cTempMax ∧ (-215 : Int).natAbs ≤ 999
      ∧ (let w := shiftAll (frameBits (0x1282155 : BitVec 28))
         field w 12 4 = BitVec.ofNat 4 ((-215 : Int).natAbs / 100)
          ∧ field w 16 4 = BitVec.ofNat 4 ((-215 : Int).natAbs / 10 % 10)
          ∧ field w 20 4 = BitVec.ofNat 4 ((-215 : Int).natAbs % 10)
          ∧ frameBit w 8 = decide ((-215 : Int) < 0)) := by decide +kernel
theorem witness_SignTwelveRecoversSignAndMagnitude : (sign12 0x800).neg = true := by decide
theorem witness_FieldDecoderStaysInRange :
    (sign12 0xFFF).neg = true ∧ (sign12 0x800).neg = true ∧ (sign12 0x7FF).neg = false ∧ (rescaleB 0).neg = true := by
  decide +kernel
/-- Section 3.4's frame 0x128000B. -/
theorem witness_NegativeZeroIsReportedAsSuch :
    (let w := shiftAll (frameBits (0x128000B : BitVec 28))
     frameBit w 8 = true ∧ field w 12 4 = 0 ∧ field w 16 4 = 0 ∧ field w 20 4 = 0) := by decide +kernel
/-- Section 3.6: each disjunct alone, and none. -/
theorem witness_GateEmitsExactlyWhenTheRuleSays :
    (let d : Dup := { valid := true, sig := 5, hash := 0xABCD, time := 1000 }
     emits d 0xABCD 1500 5 = false ∧ emits d 0xABCD 1501 5 = true ∧ emits d 0xABCE 1200 5 = true
      ∧ emits d 0xABCD 1200 6 = true ∧ emits d 0xABCD 999 5 = true
      ∧ emits { d with valid := false } 0xABCD 1200 5 = true) := by decide

/-! ## Witnesses: the host's side -/

theorem witness_DebugRegistersReadBackTheDuplicateState :
    stateA.cfg.wf = true ∧ (stateA.setPending [.read 32 0x02C]).pending = .read 32 0x02C :: []
      ∧ (stateA.setPending [.read 32 0x030]).pending = .read 32 0x030 :: []
      ∧ (stateA.setPending [.read 32 0x034]).pending = .read 32 0x034 :: []
      ∧ (stateA.setPending [.read 32 0x038]).pending = .read 32 0x038 :: [] := by decide +kernel
/-- The first and last registers of the map, the last slot of the window, written and unwritten, and the offsets on both
sides of it. -/
theorem witness_HostReadsAnswerTheRegisterMap :
    stateA.cfg.wf = true ∧ 0x103FC % 4 = 0 ∧ (stateA.setPending [.read 32 0x103FC]).pending = .read 32 0x103FC :: []
      ∧ 255 < stateA.cfg.capDepth ∧ 0x103FC = 0x10000 + 4 * 255
      ∧ capRead (capWrite stateA.capMem 255 7) 255 = some 7 ∧ capRead stateA.capMem 255 = none
      ∧ 0x000 % 4 = 0 ∧ (stateA.setPending [.read 32 0x000]).pending = .read 32 0x000 :: []
      ∧ 0x038 % 4 = 0 ∧ (stateA.setPending [.read 32 0x038]).pending = .read 32 0x038 :: []
      ∧ 0x038 < 0x03C ∧ 0x03C < 0x10000 ∧ 0x10000 + 4 * stateA.cfg.capDepth ≤ 0x10400 := by decide +kernel
theorem witness_HostWritesStoreOnlyWhatIsWritable :
    stateA.cfg.wf = true ∧ 0x10400 % 4 = 0 ∧ (stateA.setPending [.write 32 0x10400 9]).pending = .write 32 0x10400 9 :: []
      ∧ 0 < stateA.cfg.capDepth ∧ 0x10000 + 4 * stateA.cfg.capDepth ≤ 0x10400
      ∧ (0x014 ≤ 0xFFFC ∧ 0xFFFC < 0x10000) := by decide +kernel
/-- A narrow access, and a misaligned one. -/
theorem witness_OtherAccessesAreRefused :
    stateA.cfg.wf = true ∧ ((16 : Nat) ≠ 32 ∨ 4 % 4 ≠ 0) ∧ ((32 : Nat) ≠ 32 ∨ 6 % 4 ≠ 0)
      ∧ (stateA.setPending [.read 16 4]).pending = .read 16 4 :: []
      ∧ (stateA.setPending [.write 32 6 0]).pending = .write 32 6 0 :: [] := by decide +kernel
/-- The empty capture and a full one. -/
theorem witness_LoadcapLoadsTheCapture :
    (State.resetOf cfgE).cfg.wf = true ∧ ([] : List Dur).length ≤ cfgE.capDepth
      ∧ (List.replicate 256 (20 : Dur)).length ≤ cfgE.capDepth := by decide +kernel
/-- A capture that A takes, one that B takes, and P2's, which A and B reject. -/
theorem witness_DispatchTakesTheFirstDecoderThatDoesNotReject :
    (stateA.busData = none ∧ exec .decodeA stateA = .next (after .decodeA stateA)
        ∧ statusResult (after .decodeA stateA).status ≠ resultCode .rejected)
      ∧ (stateB.busData = none ∧ exec .decodeA stateB = .next (after .decodeA stateB)
        ∧ statusResult (after .decodeA stateB).status = resultCode .rejected
        ∧ exec .decodeB stateB = .next (after .decodeB stateB)
        ∧ statusResult (after .decodeB stateB).status ≠ resultCode .rejected)
      ∧ (stateC.busData = none ∧ exec .decodeA stateC = .next (after .decodeA stateC)
        ∧ exec .decodeB stateC = .next (after .decodeB stateC)
        ∧ statusResult (after .decodeB stateC).status = resultCode .rejected
        ∧ exec .decodeC stateC = .next (after .decodeC stateC)) := by
  refine ⟨⟨rfl, exec_next ?_, ?_⟩, ⟨rfl, exec_next ?_, ?_, exec_next ?_, ?_⟩, ⟨rfl, exec_next ?_, exec_next ?_, ?_, exec_next ?_⟩⟩ <;>
    decide +kernel

end Sys2Proof.Tests
end

/-! PROOF. The family 00_scope.md: the parameters of R9 and R10. What well-formedness says item by item, that an
ill-formed configuration runs nothing, and that no step touches the configuration. -/

namespace Sys2Proof

/-! ## R10, item by item -/

/-- R10 item 1. -/
theorem FixedWindows.wf_iff (w : FixedWindows) : w.wf = true ↔
    w.zeroLo ≤ w.zeroHi ∧ w.zeroHi < w.oneTh ∧ w.oneTh ≤ 65535 ∧ w.markCeil ≤ 65535 := by
  simp [FixedWindows.wf, and_assoc]

/-- R10 item 2. -/
theorem CompositeWindows.wf_iff (w : CompositeWindows) : w.wf = true ↔
    w.zeroLo ≤ w.zeroHi ∧ w.zeroHi ≤ 65535 ∧ w.oneLo ≤ w.oneHi ∧ w.oneHi ≤ 4 * 65535 := by
  simp [CompositeWindows.wf, Param.durMax, and_assoc]

/-- R10 item 3. -/
theorem Config.firstSlotsEven_iff (c : Config) : c.firstSlotsEven = true ↔
    2 ∣ c.aFirstSlot ∧ 2 ∣ c.bFirstSlot ∧ 2 ∣ c.cFirstSlot := by
  simp [Config.firstSlotsEven, Nat.dvd_iff_mod_eq_zero, and_assoc]

/-- R10 item 4. -/
theorem Config.aFits_iff (c : Config) : c.aFits = true ↔ c.aFirstSlot + 74 ≤ c.aLen ∧ c.aLen ≤ c.capDepth := by
  simp [Config.aFits, Param.aTransmitted]

/-- R10 item 5. -/
theorem Config.bFits_iff (c : Config) : c.bFits = true ↔ c.bFirstSlot + 80 ≤ c.bLen ∧ c.bLen ≤ c.capDepth := by
  simp [Config.bFits, Param.bBits]

/-- R10 item 6. -/
theorem Config.cFits_iff (c : Config) : c.cFits = true ↔
    c.cFirstSlot + c.cStopSlots ≤ c.cLenMin ∧ c.cLenMin ≤ c.cLenMax ∧ c.cLenMax ≤ c.capDepth := by
  simp [Config.cFits, and_assoc]

/-- R10 item 7. -/
theorem Config.offsetsAdmitted_iff (c : Config) : c.offsetsAdmitted = true ↔
    (c.aUsedOffset = 0 ∨ c.aUsedOffset = 1) ∧ (c.cAggOffset = 1 ∨ c.cAggOffset = 2) := by
  simp [Config.offsetsAdmitted]

/-- R9's bound on CAP_DEPTH. -/
theorem Config.depthAdmitted_iff (c : Config) : c.depthAdmitted = true ↔ c.capDepth ≤ 65535 := by
  simp [Config.depthAdmitted]

/-- Well-formedness is the conjunction of its nine parts. -/
theorem Config.wf_iff (c : Config) : c.wf = true ↔
    c.aWindows.wf = true ∧ c.bWindows.wf = true ∧ c.cWindows.wf = true ∧ c.firstSlotsEven = true ∧ c.aFits = true
      ∧ c.bFits = true ∧ c.cFits = true ∧ c.offsetsAdmitted = true ∧ c.depthAdmitted = true := by
  simp only [Config.wf, Bool.and_eq_true, and_assoc]

namespace Machine

/-! ## An ill-formed configuration runs nothing -/

theorem plainCommand_of_not_wf {s : State} (h : s.cfg.wf = false) (effect : State → State) :
    plainCommand effect s = .refused .illFormedConfig := by
  rw [plainCommand, command_of_not_wf h]

theorem decodeCommand_of_not_wf {s : State} (h : s.cfg.wf = false) (pipe : Capture → Stage Decoded) :
    decodeCommand pipe s = .refused .illFormedConfig := by
  rw [decodeCommand, command_of_not_wf h]

theorem execIllegal_of_not_wf {s : State} (h : s.cfg.wf = false) : execIllegal s = .refused .illFormedConfig := by
  rw [execIllegal, command_of_not_wf h]

theorem exec_of_not_wf {s : State} (h : s.cfg.wf = false) (i : Instr) : exec i s = .refused .illFormedConfig := by
  cases i with
  | nop => exact plainCommand_of_not_wf h id
  | decodeA => exact decodeCommand_of_not_wf h pipelineA
  | decodeB => exact decodeCommand_of_not_wf h pipelineB
  | decodeC => exact decodeCommand_of_not_wf h pipelineC
  | dupclr => exact plainCommand_of_not_wf h fun s => s.setDup Dup.empty

theorem step_of_not_wf {s : State} (h : s.cfg.wf = false) : step s = .refused .illFormedConfig := by
  simp [step, stepEvent, h]

/-- Settles O7: R10's items are put together from one equivalence each; every command and ILLEGAL is refused where it
enters, by `command`, and every step by `stepEvent`, before either looks at anything else. -/
theorem illFormedConfigurationIsRefused : Obligations.IllFormedConfigurationIsRefused := by
  refine ⟨fun c => ?_, fun s i h => ⟨exec_of_not_wf h i, execIllegal_of_not_wf h, step_of_not_wf h⟩⟩
  rw [Config.wf_iff, FixedWindows.wf_iff, FixedWindows.wf_iff, CompositeWindows.wf_iff, Config.firstSlotsEven_iff,
    Config.aFits_iff, Config.bFits_iff, Config.cFits_iff, Config.offsetsAdmitted_iff, Config.depthAdmitted_iff]

/-! ## Nothing writes the configuration -/

@[simp] theorem prologue_cfg (s : State) : (prologue s).cfg = s.cfg := rfl

@[simp] theorem epilogue_cfg (n : BitVec 6) (s : State) : (epilogue n s).cfg = s.cfg := rfl

@[simp] theorem abort_cfg (e : ErrorCode) (n : BitVec 6) (s : State) : (abort e n s).cfg = s.cfg := rfl

@[simp] theorem resetCore_cfg (s : State) : (resetCore s).cfg = s.cfg := rfl

@[simp] theorem storeReg_cfg (r : HostReg) (v : Reg) (s : State) : (storeReg r v s).cfg = s.cfg := by
  cases r <;> rfl

/-- A command keeps the configuration if its body does. -/
theorem command_next_cfg {s t : State} {body : State → Answer State}
    (hb : ∀ u v, body u = .next v → v.cfg = u.cfg) (h : command s body = .next t) : t.cfg = s.cfg :=
  hb (prologue s) t (command_next h).2

theorem plainCommand_next_cfg {s t : State} {effect : State → State} (he : ∀ u, (effect u).cfg = u.cfg)
    (h : plainCommand effect s = .next t) : t.cfg = s.cfg :=
  command_next_cfg (fun u v hv => by cases hv; simp [he]) h

theorem decodeCommand_next_cfg {s t : State} {pipe : Capture → Stage Decoded} (h : decodeCommand pipe s = .next t) :
    t.cfg = s.cfg := by
  obtain ⟨-, ⟨e, w, -, rfl⟩ | ⟨d, -, ⟨-, rfl⟩ | ⟨-, rfl⟩⟩⟩ := decodeCommand_next h
  · rfl
  · rfl
  · rfl

/-- No command changes the configuration (R9). -/
theorem exec_next_cfg {i : Instr} {s t : State} (h : exec i s = .next t) : t.cfg = s.cfg := by
  cases i with
  | nop => exact plainCommand_next_cfg (effect := id) (fun _ => rfl) h
  | decodeA => exact decodeCommand_next_cfg h
  | decodeB => exact decodeCommand_next_cfg h
  | decodeC => exact decodeCommand_next_cfg h
  | dupclr => exact plainCommand_next_cfg (effect := fun s => s.setDup Dup.empty) (fun _ => rfl) h

theorem execIllegal_next_cfg {s t : State} (h : execIllegal s = .next t) : t.cfg = s.cfg :=
  command_next_cfg (fun u v hv => by cases hv; simp) h

theorem runWord_next_cfg {w : Reg} {s t : State} (h : runWord w s = .next t) : t.cfg = s.cfg := by
  unfold runWord at h
  split at h
  · exact exec_next_cfg h
  · exact execIllegal_next_cfg h

/-- Settles O8, by the cases of a step that goes on: it idles, resets, answers a read, stores a write, or runs the
word written to CMD. -/
theorem noStepChangesTheConfiguration : Obligations.NoStepChangesTheConfiguration := by
  intro s t h
  obtain ⟨-, ⟨-, rfl⟩ | ⟨e, rest, -, ⟨-, rfl⟩ | ⟨o, -, -, rfl⟩ | ⟨o, v, -, -, -, rfl⟩ | ⟨v, -, hrun⟩⟩⟩ := step_next h
  · rfl
  · simp
  · simp
  · simp
  · simpa using runWord_next_cfg hrun

end Machine
end Sys2Proof

/-! PROOF. The family 10_state.md: the values after reset, the invariant every step keeps, what a DECODE changes and
what it can see, the fault of an unwritten slot, and the debug registers. -/

namespace Sys2Proof.Machine

open Sys2Proof.Safety

/-! ## STATUS as a finished command leaves it -/

theorem resultCode_inj {r r' : Result} : resultCode r = resultCode r' ↔ r = r' := by
  cases r <;> cases r' <;> simp [resultCode]

theorem errorCode_inj {e e' : ErrorCode} : errorCode e = errorCode e' ↔ e = e' := by
  cases e <;> cases e' <;> simp [errorCode]

theorem errorCode_ne_zero (e : ErrorCode) : errorCode e ≠ 0 := by cases e <;> decide

/-- The fields of the STATUS `w` a finished command leaves: DONE, the result `r`, ERR `e`, both request bits `q`, and
`n` in BITCNT. -/
structure Finished (w : Reg) (r : Result) (e : BitVec 3) (q : Bool) (n : BitVec 6) : Prop where
  done         : statusDone w = true
  reserved     : statusReserved w = 0
  bitcnt       : statusBitcnt w = n
  result       : statusResult w = resultCode r
  err          : statusErr w = e
  ignoreRepeat : statusReqIgnoreRepeats w = q
  resetCount   : statusReqResetCount w = q

theorem finished_abortStatus (e : ErrorCode) (n : BitVec 6) :
    Finished (abortStatus e n) .rejected (errorCode e) false n := by
  constructor <;> simp [abortStatus]

theorem finished_acceptStatus (n : BitVec 6) : Finished (acceptStatus n) .accepted 0 true n := by
  constructor <;> simp [acceptStatus]

theorem finished_suppressStatus (n : BitVec 6) : Finished (suppressStatus n) .suppressed 0 false n := by
  constructor <;> simp [suppressStatus]

theorem finished_plainStatus : Finished (setDone (setBitcnt 0 (setResult .none 0))) .none 0 false 0 := by
  constructor <;> simp

/-- A finished STATUS is legal if ERR tells a rejection, the request bits tell an acceptance, and BITCNT is at most
40. -/
theorem Finished.statusLegal {w : Reg} {r : Result} {e : BitVec 3} {q : Bool} {n : BitVec 6} (h : Finished w r e q n)
    (he : e ≠ 0 ↔ r = .rejected) (hq : q = true ↔ r = .accepted) (hn : n.toNat ≤ 40) : StatusLegal w := by
  refine ⟨h.reserved, ?_, ?_, ?_, by rw [h.bitcnt]; exact hn, fun hd => absurd (h.done.symm.trans hd) (by simp)⟩
  · rw [h.err, h.result, resultCode_inj]; exact he
  · rw [h.ignoreRepeat, h.result, resultCode_inj]; exact hq
  · rw [h.resetCount, h.result, resultCode_inj]; exact hq

theorem statusLegal_zero : StatusLegal 0 := by simp [StatusLegal, resultCode]

theorem statusLegal_abortStatus (e : ErrorCode) {n : BitVec 6} (hn : n.toNat ≤ 40) : StatusLegal (abortStatus e n) :=
  (finished_abortStatus e n).statusLegal (iff_of_true (errorCode_ne_zero e) rfl) (by simp) hn

theorem statusLegal_acceptStatus {n : BitVec 6} (hn : n.toNat ≤ 40) : StatusLegal (acceptStatus n) :=
  (finished_acceptStatus n).statusLegal (by simp) (by simp) hn

theorem statusLegal_suppressStatus {n : BitVec 6} (hn : n.toNat ≤ 40) : StatusLegal (suppressStatus n) :=
  (finished_suppressStatus n).statusLegal (by simp) (by simp) hn

theorem statusLegal_plainStatus : StatusLegal (setDone (setBitcnt 0 (setResult .none 0))) :=
  finished_plainStatus.statusLegal (by simp) (by simp) (by decide)

/-! ## The invariant under each update of the state -/

theorem dupLegal_empty : DupLegal Dup.empty := fun _ => rfl

theorem dupLegal_dupOf (sig : Sig) (capHash now : BitVec 32) : DupLegal (dupOf sig capHash now) := fun h => by
  simp [dupOf] at h

theorem resultsLegal_zero : ResultsLegal ReadRegs.zero := by simp [ResultsLegal, ReadRegs.zero]

theorem bitcnt_le_of_workLegal {w : Work} (h : WorkLegal w) : w.bitcnt.toNat ≤ 40 := by
  obtain ⟨-, hcount, -⟩ := h
  exact hcount

theorem stateLegal_resetOf {c : Config} (h : c.wf = true) : StateLegal (State.resetOf c) :=
  ⟨h, ⟨rfl, fun _ _ => rfl⟩, statusLegal_zero, resultsLegal_zero, dupLegal_empty, workLegal_clear⟩

section
variable {s : State} (h : StateLegal s)
include h

theorem stateLegal_setStatus {w : Reg} (hw : StatusLegal w) : StateLegal (s.setStatus w) :=
  ⟨h.config, h.memory, hw, h.results, h.dup, h.work⟩

theorem stateLegal_setDup {d : Dup} (hd : DupLegal d) : StateLegal (s.setDup d) :=
  ⟨h.config, h.memory, h.status, h.results, hd, h.work⟩

theorem stateLegal_setRd {r : ReadRegs} (hr : ResultsLegal r) : StateLegal (s.setRd r) :=
  ⟨h.config, h.memory, h.status, hr, h.dup, h.work⟩

theorem stateLegal_setWork {w : Work} (hw : WorkLegal w) : StateLegal (s.setWork w) :=
  ⟨h.config, h.memory, h.status, h.results, h.dup, hw⟩

theorem stateLegal_setBusData (v : Option Reg) : StateLegal (s.setBusData v) :=
  ⟨h.config, h.memory, h.status, h.results, h.dup, h.work⟩

theorem stateLegal_popEvent (rest : List HostEvent) : StateLegal (popEvent rest s) :=
  ⟨h.config, h.memory, h.status, h.results, h.dup, h.work⟩

theorem stateLegal_resetCore : StateLegal (resetCore s) :=
  have hr := stateLegal_resetOf h.config
  ⟨hr.config, hr.memory, hr.status, hr.results, hr.dup, hr.work⟩

theorem stateLegal_prologue : StateLegal (prologue s) := stateLegal_setStatus h statusLegal_zero

/-- A write to a slot below CAP_DEPTH keeps the memory legal (R50). -/
theorem stateLegal_capWrite {i : Nat} (hi : i < s.cfg.capDepth) (v : Dur) :
    StateLegal (s.setCapMem (capWrite s.capMem i v)) := by
  obtain ⟨hwf, hhigh⟩ := h.memory
  refine ⟨h.config, ⟨wf_capWrite i v hwf, fun j (hj : s.cfg.capDepth ≤ j) => ?_⟩, h.status, h.results, h.dup, h.work⟩
  have hne : j ≠ i := by omega
  rw [State.setCapMem_capMem, capRead_capWrite_other _ v hne]
  exact hhigh j hj

/-- A host write to anything but CMD: the only register the invariant speaks of is a capture slot. -/
theorem stateLegal_storeReg (o : Nat) (v : Reg) : StateLegal (storeReg (regAt s.cfg o) v s) := by
  cases hr : regAt s.cfg o with
  | capSlot i => exact stateLegal_capWrite h (regAt_eq_slot hr).1 _
  | capLen | now | capHash => exact ⟨h.config, h.memory, h.status, h.results, h.dup, h.work⟩
  | _ => exact h

end

/-! ## The invariant under each command -/

section
variable {s t : State} (hs : StateLegal s)
include hs

/-- NOP and DUPCLR: the effect keeps the invariant, and STATUS as the prologue cleared it. -/
theorem stateLegal_plainCommand {effect : State → State} (he : ∀ u, StateLegal u → StateLegal (effect u))
    (hst : ∀ u, (effect u).status = u.status) (h : plainCommand effect s = .next t) : StateLegal t := by
  have hz : (effect (prologue s)).status = 0 := hst _
  rw [plainCommand_of_wf hs.config, hz] at h
  cases h
  exact stateLegal_setStatus (he _ (stateLegal_prologue hs)) statusLegal_plainStatus

/-- DECODE: whichever way it ends, the working state is the pipeline's, and STATUS and the RD_* registers are
packed. -/
theorem stateLegal_decodeCommand {pipe : Capture → Stage Decoded} (hp : Pipes pipe)
    (h : decodeCommand pipe s = .next t) : StateLegal t := by
  obtain ⟨hwf, ⟨e, w, hx, rfl⟩ | ⟨d, hx, ⟨-, rfl⟩ | ⟨-, rfl⟩⟩⟩ := decodeCommand_next h
  · obtain ⟨hw, -⟩ := hp.raise s.capture e w hwf hx
    exact stateLegal_setStatus (stateLegal_setWork hs hw) (statusLegal_abortStatus e (bitcnt_le_of_workLegal hw))
  · have hw := hp.pass s.capture d hwf hx
    exact stateLegal_setDup (stateLegal_setRd (stateLegal_setStatus (stateLegal_setWork hs hw)
      (statusLegal_acceptStatus (bitcnt_le_of_workLegal hw))) (packReading_legal d.reading)) (dupLegal_dupOf _ _ _)
  · have hw := hp.pass s.capture d hwf hx
    exact stateLegal_setStatus (stateLegal_setWork hs hw) (statusLegal_suppressStatus (bitcnt_le_of_workLegal hw))

theorem stateLegal_exec {i : Instr} (h : exec i s = .next t) : StateLegal t := by
  cases i with
  | nop => exact stateLegal_plainCommand hs (effect := id) (fun _ hu => hu) (fun _ => rfl) h
  | decodeA => exact stateLegal_decodeCommand hs pipes_pipelineA h
  | decodeB => exact stateLegal_decodeCommand hs pipes_pipelineB h
  | decodeC => exact stateLegal_decodeCommand hs pipes_pipelineC h
  | dupclr =>
    exact stateLegal_plainCommand hs (effect := fun u => u.setDup Dup.empty)
      (fun _ hu => stateLegal_setDup hu dupLegal_empty) (fun _ => rfl) h

theorem stateLegal_execIllegal (h : execIllegal s = .next t) : StateLegal t := by
  obtain ⟨-, h⟩ := command_next h
  cases h
  exact stateLegal_setStatus hs (statusLegal_abortStatus .illegalCommand (n := 0) (by decide))

theorem stateLegal_runWord {v : Reg} (h : runWord v s = .next t) : StateLegal t := by
  unfold runWord at h
  split at h
  · exact stateLegal_exec hs h
  · exact stateLegal_execIllegal hs h

end

/-- Settles O3, by the cases of a step that goes on: it idles, resets, answers a read, stores a write, or runs the
word written to CMD. -/
theorem everyStepKeepsTheInvariant : Obligations.EveryStepKeepsTheInvariant := by
  intro s t hs h
  obtain ⟨-, ⟨-, rfl⟩ | ⟨e, rest, -, hcase⟩⟩ := step_next h
  · exact hs
  have hpop := stateLegal_popEvent hs rest
  obtain ⟨-, rfl⟩ | ⟨o, -, -, rfl⟩ | ⟨o, v, -, -, -, rfl⟩ | ⟨v, -, hrun⟩ := hcase
  · exact stateLegal_resetCore hpop
  · exact stateLegal_setBusData hpop _
  · exact stateLegal_storeReg hpop o v
  · exact stateLegal_runWord hpop hrun

/-! ## What a DECODE changes -/

/-- Settles O15, by the three ways a DECODE goes on: it aborts, accepts or suppresses. -/
theorem decodeFrameByOutcome : Obligations.DecodeFrameByOutcome := by
  intro i s t hi h
  obtain ⟨pipe, hexec, hp⟩ := exec_of_isDecode hi
  rw [hexec] at h
  obtain ⟨hwf, ⟨e, w, hx, rfl⟩ | ⟨d, hx, ⟨-, rfl⟩ | ⟨-, rfl⟩⟩⟩ := decodeCommand_next h
  · have he : e ≠ .illegalCommand := (hp.raise s.capture e w hwf hx).2
    have f := finished_abortStatus e w.bitcnt
    refine ⟨fun _ => rfl, f.done, f.reserved, f.bitcnt, .inl ⟨f.result, ?_, ?_, f.ignoreRepeat, f.resetCount, rfl⟩⟩
    · rw [f.err]; exact errorCode_ne_zero e
    · rw [f.err, Ne, errorCode_inj]; exact he
  · have f := finished_acceptStatus d.work.bitcnt
    exact ⟨fun _ => rfl, f.done, f.reserved, f.bitcnt,
      .inr (.inr ⟨f.result, f.err, f.ignoreRepeat, f.resetCount, rfl, rfl, rfl, rfl⟩)⟩
  · have f := finished_suppressStatus d.work.bitcnt
    exact ⟨fun _ => rfl, f.done, f.reserved, f.bitcnt,
      .inr (.inl ⟨f.result, f.err, f.ignoreRepeat, f.resetCount, rfl⟩)⟩

/-! ## An unwritten first slot -/

theorem memRead_of_not_capWritten {c : Config} {m : Memory} {i : Nat} (hi : i < c.capDepth)
    (h : capWritten m i = false) : memRead c m i = .error (.unwrittenCapture i) :=
  memRead_of_none hi (capWritten_eq_false.1 h)

/-- CLASSIFY2 reads its mark first. -/
theorem classify2_of_unwritten {c : Config} {m : Memory} {p : TwoSlot} {i : Nat} (hi : i < c.capDepth)
    (h : capWritten m i = false) : classify2 c m p i = .error (.unwrittenCapture i) := by
  simp [classify2, memRead_of_not_capWritten hi h]

/-- CLASSIFYC reads its space first (R107). -/
theorem classifyC_of_unwritten {c : Config} {m : Memory} {i stop : Nat} (hi : i + 1 < c.capDepth)
    (h : capWritten m (i + 1) = false) : classifyC c m i stop = .error (.unwrittenCapture (i + 1)) := by
  simp [classifyC, memRead_of_not_capWritten hi h]

theorem assembleFixed_of_unwritten {c : Config} {m : Memory} {p : TwoSlot} {n first : Nat} (w : Work) (hn : 0 < n)
    (hf : first < c.capDepth) (h16 : c.capDepth < 65536) (h : capWritten m first = false) :
    assembleFixed c m p n first w = .fault (.unwrittenCapture first) := by
  obtain ⟨n, rfl⟩ : ∃ k, n = k + 1 := ⟨n - 1, by omega⟩
  have hc := setCursor_cursor w (by omega : first < 65536)
  simp [assembleFixed, fixedLoop, hc, classify2_of_unwritten hf h]

theorem assembleVar_of_unwritten {c : Config} {m : Memory} {capLen : BitVec 16}
    (hroom : c.cFirstSlot + 2 ≤ dataEndC c capLen) (hd : dataEndC c capLen ≤ c.capDepth) (h16 : c.capDepth < 65536)
    (h : capWritten m (c.cFirstSlot + 1) = false) :
    assembleVar c m capLen Work.clear = .fault (.unwrittenCapture (c.cFirstSlot + 1)) := by
  have hc := setCursor_cursor Work.clear (by omega : c.cFirstSlot < 65536)
  have hcount : (setCursor c.cFirstSlot Work.clear).bitcnt.toNat = 0 := rfl
  have hg : moreBits (dataEndC c capLen) (setCursor c.cFirstSlot Work.clear) = true := by
    simp [moreBits, hc, hcount, hroom]
  simp [assembleVar, varLoop, hg, hc, classifyC_of_unwritten (by omega : c.cFirstSlot + 1 < c.capDepth) h]

theorem pipelineA_of_unwritten {x : Capture} (hwf : x.cfg.wf = true) (hl : x.capLen.toNat = x.cfg.aLen)
    (h : capWritten x.mem (firstUsedA x.cfg) = false) :
    pipelineA x = .fault (.unwrittenCapture (firstUsedA x.cfg)) := by
  have hfit := Config.wf_aFits hwf
  have hfirst : firstUsedA x.cfg < x.cfg.capDepth := by simp only [firstUsedA]; omega
  rw [pipelineA_eq, if_pos hl, assembleFixed_of_unwritten _ (by omega) hfirst (Config.wf_capDepth hwf) h,
    Stage.andThen_fault]

theorem pipelineB_of_unwritten {x : Capture} (hwf : x.cfg.wf = true) (hl : x.capLen.toNat = x.cfg.bLen)
    (h : capWritten x.mem x.cfg.bFirstSlot = false) : pipelineB x = .fault (.unwrittenCapture x.cfg.bFirstSlot) := by
  have hfit := Config.wf_bFits hwf
  have hfirst : x.cfg.bFirstSlot < x.cfg.capDepth := by omega
  rw [pipelineB_eq, if_pos hl, assembleFixed_of_unwritten _ (by omega) hfirst (Config.wf_capDepth hwf) h,
    Stage.andThen_fault]

theorem pipelineC_of_unwritten {x : Capture} (hwf : x.cfg.wf = true) (hlo : x.cfg.cLenMin ≤ x.capLen.toNat)
    (hhi : x.capLen.toNat ≤ x.cfg.cLenMax) (hroom : x.cfg.cFirstSlot + 2 ≤ dataEndC x.cfg x.capLen)
    (h : capWritten x.mem (x.cfg.cFirstSlot + 1) = false) :
    pipelineC x = .fault (.unwrittenCapture (x.cfg.cFirstSlot + 1)) := by
  have hfit := Config.wf_cFits hwf
  have hstop : dataEndC x.cfg x.capLen ≤ x.capLen.toNat := Nat.sub_le _ _
  have hpos : 0 < x.capLen.toNat := by omega
  rw [pipelineC_eq, if_pos ⟨hpos, hlo, hhi⟩, assembleVar_of_unwritten hroom (by omega) (Config.wf_capDepth hwf) h,
    Stage.andThen_fault]

/-- Settles O25: the length is right, so each assembler starts, and its first read is of the slot named. -/
theorem unwrittenFirstSlotFaults : Obligations.UnwrittenFirstSlotFaults := fun s hwf =>
  ⟨fun hl hu => decodeCommand_fault hwf (pipelineA_of_unwritten (x := s.capture) hwf hl hu),
    fun hl hu => decodeCommand_fault hwf (pipelineB_of_unwritten (x := s.capture) hwf hl hu),
    fun hlo hhi hroom hu =>
      decodeCommand_fault hwf (pipelineC_of_unwritten (x := s.capture) hwf hlo hhi hroom hu)⟩

/-! ## Reset, the command written, and what a command can see -/

/-- Settles O1: a CORE at reset, of this build or of another, is `State.resetOf` some configuration. -/
theorem resetHoldsTheTabledValues : Obligations.ResetHoldsTheTabledValues := by
  refine ⟨fun s hs => ?_, fun _ => rfl⟩
  obtain ⟨c, rfl⟩ : ∃ c, s = State.resetOf c := hs.elim (fun h => ⟨_, h⟩) id
  exact ⟨capWritten_nil, fun i hi => memRead_of_none hi rfl, rfl, rfl, rfl, rfl, rfl, rfl, rfl, rfl⟩

theorem runWord_of_decode {v : Reg} {i : Instr} (h : decode v = .ok i) (s : State) : runWord v s = exec i s := by
  simp only [runWord, h]

/-- Settles O11: the write takes effect through CMD, which runs the command its word decodes to. -/
theorem stepRunsTheDecodedCommand : Obligations.StepRunsTheDecodedCommand := by
  intro s v rest i hwf hp hd _
  rw [step_cmdWrite hwf hp, runWord_of_decode hd]
  rfl

theorem plainCommand_setStatus (effect : State → State) (s : State) (v : Reg) :
    plainCommand effect (s.setStatus v) = plainCommand effect s := rfl

/-- Settles O21: the prologue overwrites STATUS, and a DECODE overwrites the working state too, before either is
read. -/
theorem noCommandSeesEarlierStatusOrWorkingState : Obligations.NoCommandSeesEarlierStatusOrWorkingState := by
  intro i s w v
  constructor
  · cases i with
    | nop => exact plainCommand_setStatus id s v
    | decodeA => exact decodeCommand_setStatus pipelineA s v
    | decodeB => exact decodeCommand_setStatus pipelineB s v
    | decodeC => exact decodeCommand_setStatus pipelineC s v
    | dupclr => exact plainCommand_setStatus (fun s => s.setDup Dup.empty) s v
  · intro hi
    obtain ⟨pipe, hexec, -⟩ := exec_of_isDecode hi
    rw [hexec, hexec, decodeCommand_setWork]

/-! ## The debug registers -/

/-- DUPR_SIG_LO holds the low 32 bits of DUP_SIG (R41). -/
theorem loadReg_duprSigLo (s : State) : loadReg s .duprSigLo = BitVec.ofNat 32 (s.dup.sig.toNat % 2 ^ 32) := by
  apply BitVec.eq_of_toNat_eq
  simp [loadReg]

/-- DUPR_SIG_HI holds the high 10 bits of DUP_SIG, with DUP_VALID in bit 31 (R41). -/
theorem loadReg_duprSigHi (s : State) : loadReg s .duprSigHi =
    BitVec.ofNat 32 ((if s.dup.valid then 2 ^ 31 else 0) + s.dup.sig.toNat / 2 ^ 32) := by
  apply BitVec.eq_of_toNat_eq
  have hsig := s.dup.sig.isLt
  simp only [loadReg, toNat_append, toNat_zero, toNat_bit, BitVec.extractLsb'_toNat, BitVec.toNat_ofNat,
    Nat.shiftRight_eq_div_pow]
  split <;> omega

/-- Settles O50: each offset names its debug register, and the read answers that register's value. -/
theorem debugRegistersReadBackTheDuplicateState : Obligations.DebugRegistersReadBackTheDuplicateState := by
  intro s rest hwf
  refine ⟨fun hp => ?_, fun hp => ?_, fun hp => ?_, fun hp => ?_⟩ <;> rw [step_read hwf (by decide) hp]
  · rw [show regAt s.cfg 0x02C = .duprSigLo from rfl, loadReg_duprSigLo]; rfl
  · rw [show regAt s.cfg 0x030 = .duprSigHi from rfl, loadReg_duprSigHi]; rfl
  · rfl
  · rfl

end Sys2Proof.Machine

/-! PROOF. The family 20_memory.md: what a command can see of the capture memory, and the register map as the host reads
and writes it. -/

namespace Sys2Proof.Machine

open Sys2Proof.Safety

/-! ## What a pipeline sees of the capture memory -/

/-- DECODE.A's pipeline looks at the 72 slots of its usable bits, and only when the length is right (R76). -/
theorem pipelineA_congr {x : Capture} {m : Memory} (hwf : x.cfg.wf = true)
    (h : x.capLen.toNat = x.cfg.aLen → ∀ a, firstUsedA x.cfg ≤ a → a < firstUsedA x.cfg + 72 →
      capRead m a = capRead x.mem a) : pipelineA { x with mem := m } = pipelineA x := by
  rw [pipelineA_eq, pipelineA_eq]
  by_cases hl : x.capLen.toNat = x.cfg.aLen
  · have hfit : firstUsedA x.cfg + 72 ≤ x.cfg.capDepth := by
      have := Config.wf_aFits hwf; simp only [firstUsedA]; omega
    simp only [hl, if_true, assembleFixed_congr (p := .a) (n := 36) hfit (Config.wf_capDepth hwf) (h hl)]
  · simp only [hl, if_false]

/-- DECODE.B's pipeline looks at its 80 slots, and only when the length is right (R77). -/
theorem pipelineB_congr {x : Capture} {m : Memory} (hwf : x.cfg.wf = true)
    (h : x.capLen.toNat = x.cfg.bLen → ∀ a, x.cfg.bFirstSlot ≤ a → a < x.cfg.bFirstSlot + 80 →
      capRead m a = capRead x.mem a) : pipelineB { x with mem := m } = pipelineB x := by
  rw [pipelineB_eq, pipelineB_eq]
  by_cases hl : x.capLen.toNat = x.cfg.bLen
  · have hfit : x.cfg.bFirstSlot + 80 ≤ x.cfg.capDepth := by
      have := Config.wf_bFits hwf; omega
    simp only [hl, if_true, assembleFixed_congr (p := .b) (n := 40) hfit (Config.wf_capDepth hwf) (h hl)]
  · simp only [hl, if_false]

/-- ASSEMBLE_VAR looks at slots below the data's end only (R125). -/
theorem assembleVar_congr {c : Config} {m m' : Memory} {capLen : BitVec 16} {w : Work} (hwf : c.wf = true)
    (h : ∀ a, a < dataEndC c capLen → capRead m' a = capRead m a) :
    assembleVar c m' capLen w = assembleVar c m capLen w := by
  simp only [assembleVar, varLoop_congr Param.cBitCap (Config.wf_cAggOffset hwf) h]

/-- DECODE.C's pipeline looks at slots below the data's end only. -/
theorem pipelineC_congr {x : Capture} {m : Memory} (hwf : x.cfg.wf = true)
    (h : ∀ a, a < dataEndC x.cfg x.capLen → capRead m a = capRead x.mem a) :
    pipelineC { x with mem := m } = pipelineC x := by
  simp only [pipelineC_eq, assembleVar_congr hwf h]

/-! ## A command with another capture memory in place -/

theorem dupCheck_setCapMem (now : BitVec 32) (r : Reading) (s : State) (m : Memory) :
    dupCheck now r (s.setCapMem m) = (dupCheck now r s).setCapMem m := by
  by_cases he : emits s.dup s.capHash now (signature s.cfg r) = true
  · rw [dupCheck, dupCheck, if_pos he]; exact if_pos he
  · rw [dupCheck, dupCheck, if_neg he]; exact if_neg he

theorem finishDecode_setCapMem (now : BitVec 32) (s : State) (m : Memory) (x : Stage Decoded) :
    finishDecode now (s.setCapMem m) x = withCapture m (finishDecode now s x) := by
  cases x with
  | fault f => rfl
  | raise e w => rfl
  | pass d =>
    have hdup := dupCheck_setCapMem now d.reading (s.setWork d.work) m
    exact congrArg (fun t => Host.Outcome.next (epilogue d.work.bitcnt t)) hdup

/-- A DECODE whose pipeline does not tell `m` from the capture memory it has. -/
theorem decodeCommand_setCapMem {pipe : Capture → Stage Decoded} {s : State} {m : Memory} (hwf : s.cfg.wf = true)
    (h : pipe { s.capture with mem := m } = pipe s.capture) :
    decodeCommand pipe (s.setCapMem m) = withCapture m (decodeCommand pipe s) := by
  rw [decodeCommand_of_wf hwf, decodeCommand_of_wf (s := s.setCapMem m) hwf, ← finishDecode_setCapMem, ← h]
  rfl

theorem plainCommand_setCapMem {effect : State → State} {s : State} {m : Memory} (hwf : s.cfg.wf = true)
    (he : ∀ u : State, effect (u.setCapMem m) = (effect u).setCapMem m) :
    plainCommand effect (s.setCapMem m) = withCapture m (plainCommand effect s) := by
  have hp : effect (prologue (s.setCapMem m)) = (effect (prologue s)).setCapMem m := he (prologue s)
  rw [plainCommand_of_wf hwf, plainCommand_of_wf (s := s.setCapMem m) hwf, hp]
  rfl

/-- Settles O19: a DECODE whose length is right reads inside CAP_LEN, any other reads nothing, and the rest of a command
carries the capture memory along. -/
theorem noCommandReadsAtOrAboveCapLen : Obligations.NoCommandReadsAtOrAboveCapLen := by
  intro i s m hwf hm
  cases i with
  | nop => exact plainCommand_setCapMem (effect := id) hwf fun _ => rfl
  | decodeA =>
    refine decodeCommand_setCapMem hwf (pipelineA_congr hwf fun hl a _ ha => hm a ?_)
    have hl : s.capLen.toNat = s.cfg.aLen := hl
    have ha : a < s.cfg.aFirstSlot + 2 * s.cfg.aUsedOffset + 72 := ha
    have hfit := Config.wf_aFits hwf
    omega
  | decodeB =>
    refine decodeCommand_setCapMem hwf (pipelineB_congr hwf fun hl a _ ha => hm a ?_)
    have hl : s.capLen.toNat = s.cfg.bLen := hl
    have ha : a < s.cfg.bFirstSlot + 80 := ha
    have hfit := Config.wf_bFits hwf
    omega
  | decodeC =>
    exact decodeCommand_setCapMem hwf (pipelineC_congr hwf fun a ha => hm a (lt_of_lt_of_le ha (Nat.sub_le _ _)))
  | dupclr => exact plainCommand_setCapMem (effect := fun s => s.setDup Dup.empty) hwf fun _ => rfl

/-! ## Host reads -/

@[simp] theorem loadReg_popEvent (rest : List HostEvent) (s : State) (r : HostReg) :
    loadReg (popEvent rest s) r = loadReg s r := by
  cases r <;> rfl

theorem loadReg_capSlot_of_some {s : State} {i : Nat} {d : Dur} (h : capRead s.capMem i = some d) :
    loadReg s (.capSlot i) = d.setWidth 32 := by
  simp only [loadReg, hostSlot, h]

/-- An unwritten slot answers the free value of assumption log 7. -/
theorem loadReg_capSlot_of_none {s : State} {i : Nat} (h : capRead s.capMem i = none) :
    loadReg s (.capSlot i) = (Config.unwrittenSlot s.epoch i).setWidth 32 := by
  simp only [loadReg, hostSlot, h]

/-- Settles O51: the read answers the register its offset names, clause by clause of the map. -/
theorem hostReadsAnswerTheRegisterMap : Obligations.HostReadsAnswerTheRegisterMap := by
  intro s offset rest hwf ho hp
  refine ⟨loadReg s (regAt s.cfg offset), by rw [step_read hwf ho hp, loadReg_popEvent]; rfl, ?_⟩
  refine ⟨?cmd, ?status, ?capLen, ?now, ?capHash, ?rdProtoId, ?rdTemp, ?rdHum, ?rdMisc, ?rdFrameLo, ?rdFrameHi,
    ?duprSigLo, ?duprSigHi, ?duprHash, ?duprTime, ?written, ?unwritten, ?reserved⟩
  case duprSigLo => rintro rfl; exact loadReg_duprSigLo s
  case duprSigHi => rintro rfl; exact loadReg_duprSigHi s
  case written => rintro i d hi rfl hd; rw [regAt_slot hi, loadReg_capSlot_of_some hd]
  case unwritten => rintro i hi rfl hn; rw [regAt_slot hi, loadReg_capSlot_of_none hn]
  case reserved => intro hlo hout; rw [regAt_reserved ho hlo hout]; rfl
  all_goals rintro rfl; rfl

/-! ## Host writes -/

/-- Settles O52: the write stores what the register its offset names takes. -/
theorem hostWritesStoreOnlyWhatIsWritable : Obligations.HostWritesStoreOnlyWhatIsWritable := by
  intro s offset v rest hwf ho hp
  refine ⟨?capLen, ?now, ?capHash, ?slot, fun hign => ?ignored⟩
  case slot =>
    rintro i hi rfl
    refine ⟨capWrite s.capMem i (v.setWidth 16), ?_, fun a => capRead_capWrite s.capMem i a _⟩
    rw [step_write hwf ho (by omega) hp, regAt_slot hi]
    rfl
  case ignored =>
    rw [step_write hwf ho (by omega) hp, storeReg_ignored ho hign]
    rfl
  all_goals rintro rfl; exact step_write hwf ho (by decide) hp

/-! ## Accesses the bus does not admit -/

theorem accessAdmitted_eq_false {bits offset : Nat} :
    accessAdmitted bits offset = false ↔ bits ≠ 32 ∨ offset % 4 ≠ 0 := by
  simp only [accessAdmitted, Bool.and_eq_false_iff, decide_eq_false_iff_not]

theorem hostRead_of_not_admitted {bits offset : Nat} (h : accessAdmitted bits offset = false) (s : State) :
    hostRead bits offset s = .refused (.accessNotAdmitted bits offset) := by
  simp [hostRead, h]

theorem hostWrite_of_not_admitted {bits offset : Nat} (h : accessAdmitted bits offset = false) (v : Reg) (s : State) :
    hostWrite bits offset v s = .refused (.accessNotAdmitted bits offset) := by
  simp [hostWrite, h]

/-- A step whose oldest pending event is `e` performs it. -/
theorem step_of_pending {s : State} {e : HostEvent} {rest : List HostEvent} (hwf : s.cfg.wf = true)
    (hp : s.pending = e :: rest) : step s = perform e (popEvent rest s) := by
  simp only [step, stepEvent, hwf, if_true, hp]

/-- Settles O53: the bus checks width and alignment before anything else (R55). -/
theorem otherAccessesAreRefused : Obligations.OtherAccessesAreRefused := by
  intro s bits offset v rest hwf hbad
  have hna := accessAdmitted_eq_false.2 hbad
  refine ⟨fun hp => ?_, fun hp => ?_⟩ <;> rw [step_of_pending hwf hp]
  · exact hostRead_of_not_admitted hna (popEvent rest s)
  · exact hostWrite_of_not_admitted hna v (popEvent rest s)

end Sys2Proof.Machine

/-! PROOF. The family 30_encoding.md: the command word, which words are commands, the slots a two-slot frame takes, and
the host's pseudo-instructions LOADCAP and DISPATCH. -/

namespace Sys2Proof.Machine

open Sys2Proof.Safety

/-! ## The command word -/

theorem wordReservedClear_iff {w : Reg} : wordReservedClear w = true ↔ w.extractLsb' 3 29 = 0 := by
  simp only [wordReservedClear, decide_eq_true_eq]

/-- RSV of a command's word is 0 (R70). -/
theorem encode_rsv (i : Instr) : (encode i).extractLsb' 3 29 = 0 := BitVec.extractLsb'_append_eq_left

/-- OP of a command's word selects that command (R71). -/
theorem encode_op (i : Instr) : (encode i).extractLsb' 0 3 = opOf i := BitVec.extractLsb'_append_eq_right

/-- A word is its RSV above its OP, so a command's word is known by the two fields (R70). -/
theorem eq_encode_iff {w : Reg} {i : Instr} :
    w = encode i ↔ w.extractLsb' 3 29 = 0 ∧ w.extractLsb' 0 3 = opOf i := by
  constructor
  · rintro rfl
    exact ⟨encode_rsv i, encode_op i⟩
  · rintro ⟨hrsv, hop⟩
    have hw : w.extractLsb' 3 29 ++ w.extractLsb' 0 3 = w := BitVec.extractLsb'_append_extractLsb'
    rw [← hw, hrsv, hop, encode]

/-- The values of OP that R71 assigns. -/
theorem exists_opOf_iff (op : BitVec 3) : (∃ i, op = opOf i) ↔ op.toNat ≤ 4 := by
  constructor
  · rintro ⟨i, rfl⟩
    cases i <;> decide
  · intro h
    have hop : op = 0 ∨ op = 1 ∨ op = 2 ∨ op = 3 ∨ op = 4 := by
      revert op
      decide
    obtain rfl | rfl | rfl | rfl | rfl := hop
    · exact ⟨.nop, rfl⟩
    · exact ⟨.decodeA, rfl⟩
    · exact ⟨.decodeB, rfl⟩
    · exact ⟨.decodeC, rfl⟩
    · exact ⟨.dupclr, rfl⟩

/-- The decoder answers a command only after both fields of its word. -/
theorem fields_of_decode {w : Reg} {i : Instr} (h : decode w = .ok i) :
    w.extractLsb' 3 29 = 0 ∧ w.extractLsb' 0 3 = opOf i := by
  unfold decode at h
  split at h
  · rename_i hrsv
    refine ⟨wordReservedClear_iff.1 hrsv, BitVec.eq_of_toNat_eq ?_⟩
    split at h <;> cases h <;> assumption
  · cases h

/-- The round trip of R71: a word selects a command exactly if it is that command's word. -/
theorem decode_eq_ok_iff {w : Reg} {i : Instr} : decode w = .ok i ↔ w = encode i := by
  constructor
  · exact fun h => eq_encode_iff.2 (fields_of_decode h)
  · rintro rfl
    exact decode_encode i

/-- Settles O9: the five words are the table's, and decoder and encoder are inverse. -/
theorem onlyTheFiveWordsSelectACommand : Obligations.OnlyTheFiveWordsSelectACommand :=
  ⟨⟨rfl, rfl, rfl, rfl, rfl⟩, fun _ _ => decode_eq_ok_iff⟩

/-- Settles O10: the legal words are the words of their commands; the illegal ones are stopped by the field each of
them breaks. -/
theorem tabledWordsDecode : Obligations.TabledWordsDecode := by
  refine ⟨decode_encode .nop, decode_encode .decodeA, decode_encode .decodeB, decode_encode .decodeC,
    decode_encode .dupclr, ?_, ?_, ?_⟩ <;> rfl

/-! ## Illegal words -/

/-- The words of no command (R72). -/
theorem forall_ne_encode_iff (v : Reg) :
    (∀ i : Instr, v ≠ encode i) ↔ (5 ≤ (v.extractLsb' 0 3).toNat ∨ v.extractLsb' 3 29 ≠ 0) := by
  have hword : (∃ i, v = encode i) ↔ v.extractLsb' 3 29 = 0 ∧ (v.extractLsb' 0 3).toNat ≤ 4 := by
    simp only [eq_encode_iff, exists_and_left, exists_opOf_iff]
  rw [← not_exists, hword, not_and_or, not_le, or_comm]
  rfl

theorem runWord_of_forall_ne_encode {v : Reg} (h : ∀ i : Instr, v ≠ encode i) (s : State) :
    runWord v s = execIllegal s := by
  cases hd : decode v with
  | ok i => exact absurd (decode_eq_ok_iff.1 hd) (h i)
  | error e => simp only [runWord, hd]

/-- ILLEGAL leaves DONE, REJECTED and IllegalCommand in STATUS and touches nothing else (R215). -/
theorem execIllegal_of_wf {s : State} (h : s.cfg.wf = true) :
    execIllegal s = .next { s with status := 0x0000003F } := by
  have hstatus : abortStatus .illegalCommand 0 = 0x0000003F := by rw [abortStatus_eq]; rfl
  rw [execIllegal, command_of_wf h, ← hstatus]
  rfl

/-- Settles O12: a word whose fields are no command's decodes to nothing, so CMD runs ILLEGAL. -/
theorem illegalWordIsRejected : Obligations.IllegalWordIsRejected := by
  refine ⟨forall_ne_encode_iff, fun s v rest hwf hp hill => ?_⟩
  rw [step_cmdWrite hwf hp, runWord_of_forall_ne_encode hill]
  exact execIllegal_of_wf (s := popEvent rest s) hwf

/-! ## The slots of the two-slot protocols -/

/-- Settles O20: each pipeline looks at its own slots only, and the rest of a DECODE carries the capture memory
along. -/
theorem fixedDecodersReadOnlyTheirBits : Obligations.FixedDecodersReadOnlyTheirBits := fun _ _ hwf =>
  ⟨fun hm => decodeCommand_setCapMem hwf (pipelineA_congr hwf fun _ => hm),
    fun hm => decodeCommand_setCapMem hwf (pipelineB_congr hwf fun _ => hm)⟩

/-! ## A Protocol B frame -/

/-- A working state that holds the bits `b 0`, …, `b (n−1)` has `b k` at frame position `k`. -/
theorem Holds.frameBit_of_range {n k : Nat} {b : Nat → Bool} {w : Work} (h : Holds ((List.range n).map b) w)
    (hk : k < n) : frameBit w k = b k := by
  rw [h.bits k (by simpa using hk), List.getElem_map, List.getElem_range]

/-- DECODE.B's pipeline on a capture of its length that encodes the frame `f`: the frame is assembled whole, and its
checks and fields decide the rest (R77, R84). -/
theorem pipelineB_encodes {x : Capture} {f : BitVec 40} (hwf : x.cfg.wf = true) (hl : x.capLen.toNat = x.cfg.bLen)
    (henc : EncodesFixed x.cfg.bWindows x.mem x.cfg.bFirstSlot 40 fun k => f.getMsbD k) :
    ∃ w, pipelineB x = judgeB x.cfg w ∧ w.bitcnt = 40 ∧ ∀ k < 40, frameBit w k = f.getMsbD k := by
  have hfit := Config.wf_bFits hwf
  obtain ⟨w, hw, hh, -⟩ := assembleFixed_encodes (p := .b) (by omega) (Config.wf_capDepth hwf) le_rfl
    (Config.wf_bWindows hwf) henc
  refine ⟨asmFlush w, ?_, BitVec.eq_of_toNat_eq ?_, fun k hk => ?_⟩
  · rw [pipelineB_eq, if_pos hl, hw, Stage.andThen_pass]
  · rw [asmFlush_bitcnt, hh.count, List.length_map, List.length_range]; rfl
  · rw [frameBit_asmFlush, hh.frameBit_of_range hk]

/-- A Protocol B frame that passes its three checks yields its reading. -/
theorem judgeB_of_valid {c : Config} {w : Work} {f : BitVec 40} (hb : ∀ k < 40, frameBit w k = f.getMsbD k)
    (h0 : bHum f ≠ 0) (ht : (rescaleB (bTemp f)).mag ≤ c.bTempMax) (hh : (bHum f).toNat ≤ 0x99) :
    judgeB c w = .pass { work := w, reading := recordB w (rescaleB (bTemp f)) } := by
  have htemp : field w 8 12 = bTemp f := field_of_frame hb rfl
  have hhum : field w 20 8 = bHum f := field_of_frame hb rfl
  rcases judgeB_cases c w with ⟨hz, -⟩ | ⟨-, hr, -⟩ | ⟨-, -, -, e⟩
  · exact absurd (hhum ▸ hz) h0
  · rw [htemp, hhum] at hr
    omega
  · rw [e, htemp]

/-- Settles O31: the capture is assembled to the frame, the frame passes its checks, and the open gate lets its
reading through. -/
theorem decodeBAcceptsAValidFrame : Obligations.DecodeBAcceptsAValidFrame := by
  intro s f hwf hl henc h0 ht hh hgate
  obtain ⟨w, hpipe, hcount, hb⟩ := pipelineB_encodes (x := s.capture) hwf hl henc
  have hpass := hpipe.trans (judgeB_of_valid hb h0 ht hh)
  obtain ⟨hregs, hsig⟩ := recordB_of_frame hb
  have hemit : emits s.dup s.capHash s.now (signature s.cfg (recordB w (rescaleB (bTemp f)))) = true := by
    rw [hsig]; exact (emits_iff_gateOpen s _).2 hgate
  have hstatus : acceptStatus 40 = 0x000028C3 := by rw [acceptStatus_eq]; rfl
  refine ⟨w, ?_⟩
  rw [show exec .decodeB s = decodeCommand pipelineB s from rfl, decodeCommand_accept hwf hpass hemit, hregs, hsig,
    hcount, hstatus]
  rfl

/-! ## LOADCAP -/

/-- The capture memory after the values `vs` have been written to the slots from `i` on, in order. -/
def writeSlots (m : Memory) (i : Nat) (vs : List Dur) : Memory :=
  match vs with
  | [] => m
  | v :: rest => writeSlots (capWrite m i v) (i + 1) rest

theorem capRead_writeSlots_outside (m : Memory) {i a : Nat} (vs : List Dur) (h : a < i ∨ i + vs.length ≤ a) :
    capRead (writeSlots m i vs) a = capRead m a := by
  induction vs generalizing m i with
  | nil => rfl
  | cons v rest ih =>
    rw [List.length_cons] at h
    rw [writeSlots, ih _ (by omega), capRead_capWrite_other _ _ (by omega)]

theorem capRead_writeSlots_inside (m : Memory) (i : Nat) {vs : List Dur} {k : Nat} (h : k < vs.length) :
    capRead (writeSlots m i vs) (i + k) = some vs[k] := by
  induction vs generalizing m i k with
  | nil => exact absurd h (Nat.not_lt_zero k)
  | cons v rest ih =>
    cases k with
    | zero =>
      rw [writeSlots, capRead_writeSlots_outside _ _ (by omega)]
      exact capRead_capWrite_same m i v
    | succ k =>
      rw [writeSlots, show i + (k + 1) = i + 1 + k by omega, ih _ _ (Nat.lt_of_succ_lt_succ h), List.getElem_cons_succ]

/-- `WR CAP[i], v`, done now. -/
theorem hostDo_slotWrite {s : State} {i : Nat} (v : Dur) (hwf : s.cfg.wf = true) (hi : i < s.cfg.capDepth) :
    hostDo (.write 32 (capBase + 4 * i) (v.setWidth 32)) s =
      .next ((s.setBusData none).setCapMem (capWrite s.capMem i v)) := by
  have hslot : regAt s.cfg (capBase + 4 * i) = .capSlot i := regAt_slot hi
  rw [hostDo_write hwf (by simp only [capBase]; omega) (by simp only [capBase]; omega), hslot, storeReg,
    BitVec.setWidth_setWidth_of_le v (by decide), BitVec.setWidth_eq]
  rfl

/-- `WR CAP_LEN, n`, done now. -/
theorem hostDo_capLenWrite {s : State} (n : Nat) (hwf : s.cfg.wf = true) :
    hostDo (.write 32 0x008 (BitVec.ofNat 32 n)) s =
      .next ((s.setBusData none).setCapLen (BitVec.ofNat 16 n)) := by
  rw [hostDo_write hwf (by decide) (by decide), show regAt s.cfg 0x008 = .capLen from rfl, storeReg,
    BitVec.setWidth_ofNat_of_le (by decide)]

/-- The slot writes of LOADCAP from slot `i` on, then its write of CAP_LEN (R81). -/
theorem hostRun_slotWrites {s : State} {i : Nat} (n : Nat) (vs : List Dur) (hwf : s.cfg.wf = true)
    (hfit : i + vs.length ≤ s.cfg.capDepth) :
    hostRun (slotWrites i vs ++ [.write 32 0x008 (BitVec.ofNat 32 n)]) s =
      .next { s with capMem := writeSlots s.capMem i vs, capLen := BitVec.ofNat 16 n, busData := none } := by
  induction vs generalizing s i with
  | nil => exact hostRun_next (hostDo_capLenWrite n hwf)
  | cons v rest ih =>
    rw [List.length_cons] at hfit
    rw [slotWrites, List.cons_append, hostRun_next (hostDo_slotWrite v hwf (by omega)),
      ih (s := (s.setBusData none).setCapMem (capWrite s.capMem i v)) hwf (by simp; omega)]
    rfl

/-- Settles O54, by induction on the values: each goes to the next slot, and a later write leaves it there. -/
theorem loadcapLoadsTheCapture : Obligations.LoadcapLoadsTheCapture := by
  intro s vs hwf hfit
  refine ⟨writeSlots s.capMem 0 vs, hostRun_slotWrites vs.length vs hwf (by omega), fun i h => ?_, fun i h => ?_⟩
  · simpa using capRead_writeSlots_inside s.capMem 0 h
  · exact capRead_writeSlots_outside s.capMem vs (.inr (by omega))

/-! ## DISPATCH -/

/-- A command goes on only under a well-formed configuration. -/
theorem wf_of_exec_next {i : Instr} {s t : State} (h : exec i s = .next t) : s.cfg.wf = true := by
  by_contra hwf
  rw [exec_of_not_wf (by simpa using hwf)] at h
  cases h

/-- `CMD <mnemonic>` and `RD STATUS`: the command runs with no bus answer left over, and its STATUS is answered
(R80). -/
theorem hostRun_cmd_rdStatus {i : Instr} {s t : State} (h : exec i (s.setBusData none) = .next t) :
    hostRun [cmd i, rdStatus] s = .next (t.setBusData (some t.status)) := by
  have hwf : s.cfg.wf = true := wf_of_exec_next (s := s.setBusData none) h
  have hcfg : t.cfg = s.cfg := exec_next_cfg (s := s.setBusData none) h
  have hcmd : hostDo (cmd i) s = .next t := by
    rw [cmd, hostDo_cmdWrite hwf, runWord_of_decode (decode_encode i), h]
  have hread : hostDo rdStatus t = .next (t.setBusData (some t.status)) :=
    hostDo_read (by rw [hcfg]; exact hwf) (by decide)
  rw [hostRun_next hcmd, hostRun_next hread]
  rfl

/-- One offer of DISPATCH: the next decoder is tried only if this one rejects (R82). -/
theorem offer_cons {i : Instr} {rest : List Instr} {s t : State} (h : exec i (s.setBusData none) = .next t) :
    offer (i :: rest) s =
      if statusResult t.status = resultCode .rejected then offer rest (t.setBusData (some t.status))
      else .next (t.setBusData (some t.status)) := by
  rw [offer, hostRun_cmd_rdStatus h]
  rfl

/-- A rejected DECODE leaves everything but the working state and STATUS as it was (R232). -/
theorem eq_of_rejected {i : Instr} {s t : State} (hi : isDecode i = true) (h : exec i s = .next t)
    (hrej : statusResult t.status = resultCode .rejected) : ∃ w v, t = (s.setWork w).setStatus v := by
  obtain ⟨-, -, -, -, ⟨-, -, -, -, -, ht⟩ | ⟨hres, -⟩ | ⟨hres, -⟩⟩ := decodeFrameByOutcome i s t hi h
  · exact ⟨t.work, t.status, ht⟩
  · exact absurd (resultCode_inj.1 (hrej.symm.trans hres)) (by simp)
  · exact absurd (resultCode_inj.1 (hrej.symm.trans hres)) (by simp)

/-- A DECODE offered after a rejected one runs as on the state before that one: neither the working state, nor STATUS,
nor the bus answer left behind can be seen in it (R232). -/
theorem exec_after_rejected {i j : Instr} {s t : State} (hi : isDecode i = true) (hj : isDecode j = true)
    (hbus : s.busData = none) (h : exec i s = .next t) (hrej : statusResult t.status = resultCode .rejected)
    (v : Option Reg) : exec j ((t.setBusData v).setBusData none) = exec j s := by
  obtain ⟨w, st, rfl⟩ := eq_of_rejected hi h hrej
  have hs : s.setBusData none = s := by rw [← hbus]; rfl
  calc exec j ((((s.setWork w).setStatus st).setBusData v).setBusData none)
      = exec j (((s.setBusData none).setWork w).setStatus st) := rfl
    _ = exec j ((s.setWork w).setStatus st) := by rw [hs]
    _ = exec j (s.setWork w) := (noCommandSeesEarlierStatusOrWorkingState j (s.setWork w) w st).1
    _ = exec j s := (noCommandSeesEarlierStatusOrWorkingState j s w st).2 hj

/-- Settles O55: each decoder that is reached runs as on the starting state, because those before it rejected. -/
theorem dispatchTakesTheFirstDecoderThatDoesNotReject : Obligations.DispatchTakesTheFirstDecoderThatDoesNotReject := by
  intro s ta hbus ha
  have hA : exec .decodeA (s.setBusData none) = .next ta := by rw [← ha, ← hbus]; rfl
  refine ⟨fun hne => by rw [dispatch, offer_cons hA, if_neg hne]; rfl, fun hrejA tb hb => ?_⟩
  have hB := (exec_after_rejected (j := .decodeB) rfl rfl hbus ha hrejA (some ta.status)).trans hb
  rw [dispatch, offer_cons hA, if_pos hrejA, offer_cons hB]
  refine ⟨fun hne => by rw [if_neg hne]; rfl, fun hrejB tc hc => ?_⟩
  have hC := (exec_after_rejected (j := .decodeC) rfl rfl hbus hb hrejB (some tb.status)).trans hc
  rw [if_pos hrejB, offer_cons hC, offer]
  exact ite_self _

end Sys2Proof.Machine

/-! PROOF. The family 40_classifier.md: how CLASSIFYC tells its two forms apart and why it cannot see the mark, and how
CLASSIFY2 judges a mark/space pair by its protocol's windows. -/

namespace Sys2Proof.Machine

/-! ## CLASSIFYC -/

/-- Four written slots inside the capture memory have their exact sum, never wrapped (R106). -/
theorem sumFour_of_some {c : Config} {m : Memory} {i : Nat} {d0 d1 d2 d3 : Dur} (hd : i + 4 ≤ c.capDepth)
    (h0 : capRead m i = some d0) (h1 : capRead m (i + 1) = some d1) (h2 : capRead m (i + 2) = some d2)
    (h3 : capRead m (i + 3) = some d3) : sumFour c m i = .ok (d0.toNat + d1.toNat + d2.toNat + d3.toNat) := by
  simp only [sumFour, memRead_of_some (by omega : i < c.capDepth) h0,
    memRead_of_some (by omega : i + 1 < c.capDepth) h1, memRead_of_some (by omega : i + 2 < c.capDepth) h2,
    memRead_of_some (by omega : i + 3 < c.capDepth) h3]

section
variable {c : Config} {m : Memory} {i stop : Nat} {sp : Dur} (hsp : memRead c m (i + 1) = .ok sp)
include hsp

/-- The zero form is tested first, so neither `stop` nor a later slot matters (R105). -/
theorem classifyC_of_zeroSpace (hz : c.cWindows.zeroLo ≤ sp.toNat ∧ sp.toNat ≤ c.cWindows.zeroHi) :
    classifyC c m i stop = .ok { outcome := .zero, consumed := 2 } := by
  simp only [classifyC, hsp, if_pos hz]

theorem classifyC_of_noRoom (hz : ¬ (c.cWindows.zeroLo ≤ sp.toNat ∧ sp.toNat ≤ c.cWindows.zeroHi))
    (h6 : stop < i + 6) : classifyC c m i stop = .ok rejected := by
  simp only [classifyC, hsp, if_neg hz, if_pos h6]

theorem classifyC_of_sum {n : Nat} (hz : ¬ (c.cWindows.zeroLo ≤ sp.toNat ∧ sp.toNat ≤ c.cWindows.zeroHi))
    (h6 : i + 6 ≤ stop) (hn : sumFour c m (i + c.cAggOffset) = .ok n) :
    classifyC c m i stop = .ok (judgeAggregate c.cWindows n) := by
  simp only [classifyC, hsp, if_neg hz, if_neg h6.not_gt, hn]

end

/-- Settles O37, by R104's tests in their order: the zero form, the room for six slots, the sum of four. -/
theorem classifyCJudgesTheForm : Obligations.ClassifyCJudgesTheForm := by
  intro c m i stop sp hi hread
  have hsp := memRead_of_some hi hread
  refine ⟨classifyC_of_zeroSpace hsp, fun hz => ⟨classifyC_of_noRoom hsp hz, ?_⟩⟩
  intro h6 hstop hoff d0 d1 d2 d3 h0 h1 h2 h3
  have hsum := sumFour_of_some (c := c) (by omega) h0 h1 h2 h3
  exact classifyC_of_sum hsp hz h6 hsum

/-- CLASSIFYC looks at slots above the mark only, whatever `stop` is: the space is the next slot, and the aggregate
starts at or after it. -/
theorem classifyC_congr_above {c : Config} {m m' : Memory} {i : Nat} (stop : Nat) (ha : 0 < c.cAggOffset)
    (h : ∀ a, i < a → capRead m' a = capRead m a) : classifyC c m' i stop = classifyC c m i stop := by
  have hspace : memRead c m' (i + 1) = memRead c m (i + 1) := memRead_congr (h (i + 1) (by omega))
  have hsum : sumFour c m' (i + c.cAggOffset) = sumFour c m (i + c.cAggOffset) :=
    sumFour_congr fun a _ _ => h a (by omega)
  simp only [classifyC, hspace, hsum]

/-- Settles O38: every slot CLASSIFYC looks at lies above the mark, because C_AGG_OFFSET is not 0. -/
theorem classifyCNeverReadsTheMark : Obligations.ClassifyCNeverReadsTheMark := by
  intro c m m' i stop hwf h
  have hoff := Config.wf_cAggOffset hwf
  exact classifyC_congr_above stop (by omega) fun a ha => h a ha.ne'

/-! ## The judgement of a space by the two-slot windows -/

theorem judgeSpace_of_one {win : FixedWindows} {sp : Dur} (h : win.oneTh < sp.toNat) :
    judgeSpace win sp = { outcome := .one, consumed := 2 } := if_pos h

theorem judgeSpace_of_zero {win : FixedWindows} {sp : Dur} (h1 : sp.toNat ≤ win.oneTh)
    (hz : win.zeroLo ≤ sp.toNat ∧ sp.toNat ≤ win.zeroHi) :
    judgeSpace win sp = { outcome := .zero, consumed := 2 } := by
  rw [judgeSpace, if_neg h1.not_gt, if_pos hz]

theorem judgeSpace_of_neither {win : FixedWindows} {sp : Dur} (h1 : sp.toNat ≤ win.oneTh)
    (hz : ¬ (win.zeroLo ≤ sp.toNat ∧ sp.toNat ≤ win.zeroHi)) : judgeSpace win sp = rejected := by
  rw [judgeSpace, if_neg h1.not_gt, if_neg hz]

/-- Settles O36: with ZERO_LO ≤ ZERO_HI < ONE_TH, each midpoint lies in its own window and each edge in neither. -/
theorem twoSlotWindowsMidpointsAndEdges : Obligations.TwoSlotWindowsMidpointsAndEdges := by
  intro win hwf
  obtain ⟨hlohi, hgap, -, -⟩ := win.wf_iff.1 hwf
  refine ⟨fun sp hsp => ?_, fun hth sp hsp => ?_, fun sp hsp => ?_⟩
  · exact judgeSpace_of_zero (by omega) (by omega)
  · exact judgeSpace_of_one (by omega)
  · exact judgeSpace_of_neither (by omega) (by omega)

/-! ## CLASSIFY2 -/

section
variable {c : Config} {m : Memory} {p : TwoSlot} {i : Nat} {mark : Dur} (hmark : memRead c m i = .ok mark)
include hmark

/-- A mark at or above the ceiling is a reject before the space is read (R100). -/
theorem classify2_of_longMark (hm : (windowsOf c p).markCeil ≤ mark.toNat) : classify2 c m p i = .ok rejected := by
  simp only [classify2, hmark, if_pos hm]

/-- After a mark below the ceiling the space decides (R100). -/
theorem classify2_of_shortMark {sp : Dur} (hsp : memRead c m (i + 1) = .ok sp)
    (hm : mark.toNat < (windowsOf c p).markCeil) : classify2 c m p i = .ok (judgeSpace (windowsOf c p) sp) := by
  simp only [classify2, hmark, if_neg hm.not_ge, hsp]

end

/-- Settles O35: a long mark is rejected at once; after a short one the answer is the judgement of the space. -/
theorem classifyTwoJudgesThePair : Obligations.ClassifyTwoJudgesThePair := by
  intro c m p i mark hi hread
  have hmark := memRead_of_some (by omega : i < c.capDepth) hread
  refine ⟨classify2_of_longMark hmark, fun sp hspace hm => ?_⟩
  rw [classify2_of_shortMark hmark (memRead_of_some hi hspace) hm]
  exact ⟨fun h1 => congrArg _ (judgeSpace_of_one h1),
    fun h1 hlo hhi => congrArg _ (judgeSpace_of_zero h1 ⟨hlo, hhi⟩),
    fun h1 hz => congrArg _ (judgeSpace_of_neither h1 hz)⟩

end Sys2Proof.Machine

/-! PROOF. The family 41_assembler.md: what the shift register and its cells hold (R120 to R122), that an assembly is
whole or an abort (R126), that both assemblers make the same of the same bits (R127), and the DECODEs that end in an
assembly's abort (R128). -/

namespace Sys2Proof.Machine

open Sys2Proof.Safety

/-! ## What the bits shifted in determine -/

/-- SR's bit `i` is the frame bit that many places before the last one (R121). -/
theorem sr_getLsbD_eq_frameBit {w : Work} {i : Nat} (hi : i < w.bitcnt.toNat) :
    w.sr.getLsbD i = frameBit w (w.bitcnt.toNat - 1 - i) := by
  have hk : w.bitcnt.toNat - 1 - i < w.bitcnt.toNat := by omega
  have hback : w.bitcnt.toNat - 1 - (w.bitcnt.toNat - 1 - i) = i := by omega
  rw [frameBit, decide_eq_true hk, hback, Bool.true_and]

/-- SR is `field(0, BITCNT)` (R121). -/
theorem Holds.sr_eq_field {bs : List Bool} {w : Work} (h : Holds bs w) :
    w.sr = (field w 0 bs.length).setWidth 40 := by
  apply BitVec.eq_of_getLsbD_eq
  intro i hi
  rw [BitVec.getLsbD_setWidth, decide_eq_true hi, Bool.true_and, field_getLsbD]
  by_cases hlt : i < bs.length
  · have hc := h.count
    rw [sr_getLsbD_eq_frameBit (by omega), decide_eq_true hlt, Bool.true_and, hc]
    congr 1
    omega
  · rw [h.high i (by omega), decide_eq_false hlt, Bool.false_and]

/-- Settles O39: each claim is a part of what holds after any list of bits has been shifted in. -/
theorem shiftRegisterHoldsTheBitsInOrder : Obligations.ShiftRegisterHoldsTheBitsInOrder := by
  intro bs hl
  have h := holds_shiftAll bs hl
  refine ⟨h.count, h.sr_eq_field, fun k hk => ⟨h.bits k hk, ?_⟩, fun j => h.full j j.isLt, fun j => h.empty j j.isLt⟩
  have hc := h.count
  have hback : bs.length - 1 - (bs.length - 1 - k) = k := by omega
  rw [sr_getLsbD_eq_frameBit (by omega), hc, hback, h.bits k hk]

/-- Two working states that hold the same bits read the same fields. -/
theorem Holds.field_eq {bs : List Bool} {w w' : Work} (h : Holds bs w) (h' : Holds bs w') {k n : Nat}
    (hk : k + n ≤ bs.length) : field w k n = field w' k n :=
  field_congr fun i _ hi => by rw [h.bits i (by omega), h'.bits i (by omega)]

/-- The bits shifted in determine SR, BITCNT and FB; CURSOR alone is left open. -/
theorem Holds.unique {bs : List Bool} {w w' : Work} (h : Holds bs w) (h' : Holds bs w') :
    w.sr = w'.sr ∧ w.bitcnt = w'.bitcnt ∧ w.fb = w'.fb := by
  refine ⟨?_, BitVec.eq_of_toNat_eq (h.count.trans h'.count.symm), Vector.ext fun j hj => ?_⟩
  · rw [h.sr_eq_field, h'.sr_eq_field, h.field_eq h' (by omega)]
  · by_cases hfull : j < bs.length / 8
    · rw [h.full j hj hfull, h'.full j hj hfull, h.field_eq h' (by omega)]
    · rw [h.empty j hj (by omega), h'.empty j hj (by omega)]

/-! ## Flushing -/

/-- With no partial cell there is nothing to flush (R122). -/
theorem asmFlush_of_aligned {w : Work} (h : w.bitcnt.toNat % 8 = 0) : asmFlush w = w := if_pos h

/-- A flush of a partial cell stores the last bits of SR there, and no other cell (R122). -/
theorem cell_asmFlush_of_partial {w : Work} (h : w.bitcnt.toNat % 8 ≠ 0) (j : Fin 5) :
    cell (asmFlush w) j =
      if w.bitcnt.toNat / 8 = j.val then (w.sr.extractLsb' 0 (w.bitcnt.toNat % 8)).setWidth 8 else cell w j := by
  simp only [asmFlush, if_neg h, cell]
  exact Vector.getElem_setIfInBounds j.isLt

/-- Settles O40: the flush is the write of one cell, whose value fits a byte. -/
theorem flushStoresThePartialCellRightAligned : Obligations.FlushStoresThePartialCellRightAligned := by
  intro w _
  refine ⟨asmFlush_of_aligned, fun hr => ⟨asmFlush_sr w, asmFlush_bitcnt w, asmFlush_cursor w, fun j => ⟨?_, ?_⟩⟩⟩
  · intro hj
    have hfits : w.sr.toNat % 2 ^ (w.bitcnt.toNat % 8) < 2 ^ 8 :=
      (Nat.mod_lt _ (Nat.two_pow_pos _)).trans (Nat.pow_lt_pow_right (by omega) (by omega))
    rw [cell_asmFlush_of_partial hr, if_pos hj.symm, BitVec.toNat_setWidth, BitVec.extractLsb'_toNat,
      Nat.shiftRight_zero, Nat.mod_eq_of_lt hfits]
  · intro hj
    rw [cell_asmFlush_of_partial hr, if_neg (Ne.symm hj)]

/-! ## An assembly is whole or an abort -/

/-- A bit taken is shifted in, and CURSOR moves on. -/
theorem takeBit_eq_pass {w w' : Work} {x : Except Fault Classified} (h : takeBit w x = .pass w') :
    ∃ b n, w' = advance n (shiftBit b w) := by
  obtain f | ⟨o, n⟩ := x
  · cases h
  · cases o with
    | zero => exact ⟨false, n, (Stage.pass.inj h).symm⟩
    | one => exact ⟨true, n, (Stage.pass.inj h).symm⟩
    | reject => cases h

/-- A bit taken is counted. -/
theorem bitcnt_of_takeBit_pass {w w' : Work} {x : Except Fault Classified} (h : takeBit w x = .pass w')
    (hw : w.bitcnt.toNat < 40) : w'.bitcnt.toNat = w.bitcnt.toNat + 1 := by
  obtain ⟨b, n, rfl⟩ := takeBit_eq_pass h
  exact shiftBit_bitcnt b (by omega)

/-- A bit not taken is TimingOutOfTolerance, and leaves the working state as it was. -/
theorem takeBit_eq_raise {w w' : Work} {x : Except Fault Classified} {e : ErrorCode} (h : takeBit w x = .raise e w') :
    e = .timingOutOfTolerance ∧ w' = w := by
  obtain f | ⟨o, n⟩ := x
  · cases h
  · cases o <;> cases h
    exact ⟨rfl, rfl⟩

theorem fixedLoop_eq_pass {c : Config} {m : Memory} {p : TwoSlot} {n : Nat} {w w' : Work}
    (h : fixedLoop c m p n w = .pass w') (hn : w.bitcnt.toNat + n ≤ 40) :
    w'.bitcnt.toNat = w.bitcnt.toNat + n := by
  induction n generalizing w with
  | zero => rw [Stage.pass.inj h, Nat.add_zero]
  | succ n ih =>
    obtain ⟨w₁, htake, hrest⟩ := Stage.andThen_eq_pass.1 h
    have hone := bitcnt_of_takeBit_pass htake (by omega)
    have := ih hrest (by omega)
    omega

theorem fixedLoop_eq_raise {c : Config} {m : Memory} {p : TwoSlot} {n : Nat} {w w' : Work} {e : ErrorCode}
    (h : fixedLoop c m p n w = .raise e w') (hn : w.bitcnt.toNat + n ≤ 40) :
    e = .timingOutOfTolerance ∧ w'.bitcnt.toNat < w.bitcnt.toNat + n := by
  induction n generalizing w with
  | zero => cases h
  | succ n ih =>
    rcases Stage.andThen_eq_raise.1 h with htake | ⟨w₁, htake, hrest⟩
    · obtain ⟨he, rfl⟩ := takeBit_eq_raise htake
      exact ⟨he, by omega⟩
    · have hone := bitcnt_of_takeBit_pass htake (by omega)
      obtain ⟨he, hlt⟩ := ih hrest (by omega)
      exact ⟨he, by omega⟩

theorem bitcnt_of_moreBits {stop : Nat} {w : Work} (h : moreBits stop w = true) : w.bitcnt.toNat < 32 := by
  simp only [moreBits, Bool.and_eq_true, decide_eq_true_eq] at h
  exact h.1

/-- The guard keeps the variable loop from passing C_BIT_CAP. -/
theorem varLoop_eq_pass {c : Config} {m : Memory} {stop fuel : Nat} {w w' : Work}
    (h : varLoop c m stop fuel w = .pass w') (hw : w.bitcnt.toNat ≤ 32) : w'.bitcnt.toNat ≤ 32 := by
  induction fuel generalizing w with
  | zero => rwa [← Stage.pass.inj h]
  | succ fuel ih =>
    rw [varLoop] at h
    split at h
    · rename_i hmore
      have hlt := bitcnt_of_moreBits hmore
      obtain ⟨w₁, htake, hrest⟩ := Stage.andThen_eq_pass.1 h
      have hone := bitcnt_of_takeBit_pass htake (by omega)
      exact ih hrest (by omega)
    · rwa [← Stage.pass.inj h]

theorem varLoop_eq_raise {c : Config} {m : Memory} {stop fuel : Nat} {w w' : Work} {e : ErrorCode}
    (h : varLoop c m stop fuel w = .raise e w') : e = .timingOutOfTolerance ∧ w'.bitcnt.toNat < 32 := by
  induction fuel generalizing w with
  | zero => cases h
  | succ fuel ih =>
    rw [varLoop] at h
    split at h
    · rename_i hmore
      rcases Stage.andThen_eq_raise.1 h with htake | ⟨w₁, -, hrest⟩
      · obtain ⟨he, rfl⟩ := takeBit_eq_raise htake
        exact ⟨he, bitcnt_of_moreBits hmore⟩
      · exact ih hrest
    · cases h

theorem countCheck_of_eq {w : Work} (h : w.bitcnt.toNat = 28) : countCheck w = .pass w := if_pos h

theorem countCheck_of_ne {w : Work} (h : w.bitcnt.toNat ≠ 28) : countCheck w = .raise .ambiguousOrShortFrame w :=
  if_neg h

/-- Settles O41: a loop that passes has taken every bit it was to take, one that raises has not, and the count check
lets 28 bits through alone. -/
theorem assemblyIsNeverPartial : Obligations.AssemblyIsNeverPartial := by
  intro c m
  refine ⟨fun p n first hn => ⟨fun w h => ?_, fun e w h => ?_⟩, fun capLen => ⟨fun w h => ?_, fun e w h => ?_⟩⟩
  · obtain ⟨w₁, hloop, hflush⟩ := Stage.andThen_eq_pass.1 h
    have hstart : (setCursor first Work.clear).bitcnt.toNat = 0 := rfl
    have hcount := fixedLoop_eq_pass hloop (by omega)
    rw [← Stage.pass.inj hflush, asmFlush_bitcnt, hcount, hstart, Nat.zero_add]
  · have hstart : (setCursor first Work.clear).bitcnt.toNat = 0 := rfl
    rcases Stage.andThen_eq_raise.1 h with hloop | ⟨w₁, -, hflush⟩
    · obtain ⟨he, hlt⟩ := fixedLoop_eq_raise hloop (by omega)
      exact ⟨he, by omega⟩
    · cases hflush
  · obtain ⟨w₁, -, hcheck⟩ := Stage.andThen_eq_pass.1 h
    by_cases h28 : (asmFlush w₁).bitcnt.toNat = 28
    · rw [countCheck_of_eq h28] at hcheck
      rwa [← Stage.pass.inj hcheck]
    · rw [countCheck_of_ne h28] at hcheck
      cases hcheck
  · rcases Stage.andThen_eq_raise.1 h with hloop | ⟨w₁, hloop, hcheck⟩
    · exact .inl (varLoop_eq_raise hloop)
    · have hcap := varLoop_eq_pass hloop (Nat.zero_le 32)
      by_cases h28 : (asmFlush w₁).bitcnt.toNat = 28
      · rw [countCheck_of_eq h28] at hcheck
        cases hcheck
      · rw [countCheck_of_ne h28] at hcheck
        obtain ⟨rfl, rfl⟩ := Stage.raise.inj hcheck
        exact .inr ⟨rfl, h28, by rwa [asmFlush_bitcnt]⟩

/-! ## Variable and fixed assembly of the same bits -/

/-- Both two-slot protocols of a well-formed configuration have their zero window below their one threshold (R10). -/
theorem windowsOf_disjoint {c : Config} (hwf : c.wf = true) (p : TwoSlot) :
    (windowsOf c p).zeroHi < (windowsOf c p).oneTh := by
  cases p with
  | a => exact Config.wf_aWindows hwf
  | b => exact Config.wf_bWindows hwf

/-- The list of a list's own bits, read by position. -/
theorem map_range_getD (bs : List Bool) : (List.range bs.length).map (fun k => bs.getD k false) = bs :=
  List.ext_getElem (by simp) fun k _ hk => by simp [hk]

/-- A flush does not look at CURSOR. -/
theorem asmFlush_fb_congr {w w' : Work} (hsr : w.sr = w'.sr) (hcount : w.bitcnt = w'.bitcnt) (hfb : w.fb = w'.fb) :
    (asmFlush w).fb = (asmFlush w').fb := by
  obtain ⟨i, sr, n, fb⟩ := w
  obtain ⟨i', sr', n', fb'⟩ := w'
  subst hsr hcount hfb
  simp only [asmFlush]
  split <;> rfl

/-- Settles O42: both loops end with the same bits held, which determine everything but CURSOR, and the flush does not
look at that. -/
theorem variableAndFixedAssemblyAgree : Obligations.VariableAndFixedAssemblyAgree := by
  intro c m m' capLen p first j bs hwf _ hlen h28 henc hend hdepth hfixed
  obtain ⟨w, hvar, hw, hcursor, hj⟩ := assembleVar_encodes hwf hlen (.inr ⟨by omega, hend⟩) henc
  obtain ⟨w', hfix, hw', -⟩ :=
    assembleFixed_encodes hdepth (Config.wf_capDepth hwf) (by omega) (windowsOf_disjoint hwf p) hfixed
  rw [← h28, map_range_getD] at hw'
  have hcount : (asmFlush w).bitcnt.toNat = 28 := by rw [asmFlush_bitcnt, hw.count, h28]
  obtain ⟨hsr, hbitcnt, hfb⟩ := hw.unique hw'
  refine ⟨asmFlush w, asmFlush w', by rw [hvar, countCheck_of_eq hcount], hfix, ?_, ?_,
    asmFlush_fb_congr hsr hbitcnt hfb, ?_⟩
  · rwa [asmFlush_sr, asmFlush_sr]
  · rwa [asmFlush_bitcnt, asmFlush_bitcnt]
  · rw [asmFlush_cursor, hcursor, hj]

/-! ## The DECODEs whose assembly aborts -/

/-- A DECODE whose pipeline raises `e` after `n` bits: STATUS as a number, and nothing else changed (R236). -/
theorem decodeCommand_raise_count {pipe : Capture → Stage Decoded} {s : State} {e : ErrorCode} {w : Work} {n : Nat}
    (hwf : s.cfg.wf = true) (hp : pipe s.capture = .raise e w) (hn : w.bitcnt.toNat = n) :
    ∃ w, decodeCommand pipe s =
      .next { s with work := w, status := BitVec.ofNat 32 (7 + 8 * (errorCode e).toNat + 256 * n) } :=
  ⟨w, by rw [decodeCommand_raise hwf hp, abortStatus_eq, hn]⟩

theorem pipelineA_of_badPair {x : Capture} {k : Nat} {b : Nat → Bool} (hwf : x.cfg.wf = true)
    (hl : x.capLen.toNat = x.cfg.aLen) (hk : k < 36) (henc : EncodesFixed x.cfg.aWindows x.mem (firstUsedA x.cfg) k b)
    (hbad : pairBad x.cfg.aWindows x.mem (firstUsedA x.cfg + 2 * k) = true) :
    ∃ w, pipelineA x = .raise .timingOutOfTolerance w ∧ w.bitcnt.toNat = k := by
  have hfit : firstUsedA x.cfg + 2 * 36 ≤ x.cfg.capDepth := by
    have := Config.wf_aFits hwf
    simp only [firstUsedA]
    omega
  obtain ⟨w, hw, hcount⟩ := assembleFixed_bad (p := .a) hfit (Config.wf_capDepth hwf) (by omega) hk
    (Config.wf_aWindows hwf) henc hbad
  exact ⟨w, by rw [pipelineA_eq, if_pos hl, hw, Stage.andThen_raise], hcount⟩

theorem pipelineB_of_badPair {x : Capture} {k : Nat} {b : Nat → Bool} (hwf : x.cfg.wf = true)
    (hl : x.capLen.toNat = x.cfg.bLen) (hk : k < 40) (henc : EncodesFixed x.cfg.bWindows x.mem x.cfg.bFirstSlot k b)
    (hbad : pairBad x.cfg.bWindows x.mem (x.cfg.bFirstSlot + 2 * k) = true) :
    ∃ w, pipelineB x = .raise .timingOutOfTolerance w ∧ w.bitcnt.toNat = k := by
  have hfit : x.cfg.bFirstSlot + 2 * 40 ≤ x.cfg.capDepth := by
    have := Config.wf_bFits hwf
    omega
  obtain ⟨w, hw, hcount⟩ := assembleFixed_bad (p := .b) hfit (Config.wf_capDepth hwf) (by omega) hk
    (Config.wf_bWindows hwf) henc hbad
  exact ⟨w, by rw [pipelineB_eq, if_pos hl, hw, Stage.andThen_raise], hcount⟩

/-- Settles O26: the fixed assembly takes the `k` bits in and aborts at the bad pair, before any check of the frame. -/
theorem firstBadPairAbortsFixedDecode : Obligations.FirstBadPairAbortsFixedDecode := by
  intro s k b hwf
  refine ⟨fun hl hk henc hbad => ?_, fun hl hk henc hbad => ?_⟩
  · obtain ⟨w, hp, hcount⟩ := pipelineA_of_badPair (x := s.capture) hwf hl hk henc hbad
    exact decodeCommand_raise_count hwf hp hcount
  · obtain ⟨w, hp, hcount⟩ := pipelineB_of_badPair (x := s.capture) hwf hl hk henc hbad
    exact decodeCommand_raise_count hwf hp hcount

/-- DECODE.C's pipeline on a length in range: an assembly that raises ends it (R124). -/
theorem pipelineC_of_assembleVar_raise {x : Capture} {e : ErrorCode} {w : Work} (hpos : 0 < x.capLen.toNat)
    (hlo : x.cfg.cLenMin ≤ x.capLen.toNat) (hhi : x.capLen.toNat ≤ x.cfg.cLenMax)
    (h : assembleVar x.cfg x.mem x.capLen Work.clear = .raise e w) : pipelineC x = .raise e w := by
  rw [pipelineC_eq, if_pos ⟨hpos, hlo, hhi⟩, h, Stage.andThen_raise]

/-- Settles O27: the variable assembly takes the bits in and aborts at the slots that fit no form; that there are such
slots below the data's end shows that CAP_LEN is not 0. -/
theorem firstBadFormAbortsVariableDecode : Obligations.FirstBadFormAbortsVariableDecode := by
  intro s bs j hwf hlo hhi hlt henc hbad
  obtain ⟨w, hw, hcount⟩ := assembleVar_bad hwf hhi hlt henc hbad
  have hp := pipelineC_of_assembleVar_raise (x := s.capture) (capLen_pos_of_formBad hbad) hlo hhi hw
  exact decodeCommand_raise_count hwf hp hcount

/-- Settles O28: the variable assembly takes the bits in and ends, and its count check finds other than 28. -/
theorem wrongBitCountIsAmbiguousOrShort : Obligations.WrongBitCountIsAmbiguousOrShort := by
  intro s bs j hwf h0 hlo hhi henc hne hend
  obtain ⟨w, hw, hh, -⟩ := assembleVar_encodes hwf hhi hend henc
  have hcount : (asmFlush w).bitcnt.toNat = bs.length := by rw [asmFlush_bitcnt, hh.count]
  have hpos : 0 < s.capLen.toNat := Nat.pos_of_ne_zero fun h => h0 (BitVec.eq_of_toNat_eq h)
  have hp := pipelineC_of_assembleVar_raise (x := s.capture) hpos hlo hhi
    (hw.trans (countCheck_of_ne (by rwa [hcount])))
  exact decodeCommand_raise_count hwf hp hcount

end Sys2Proof.Machine

/-! PROOF. The family 42_validator.md: the length check before anything is read, the checks of an assembled frame in
R148's order, and what CHECKSUM_C catches. -/

namespace Sys2Proof.Machine

open Sys2Proof.Safety

/-! ## The length check -/

/-- A DECODE whose pipeline fails LENGTH_CHECK has assembled nothing: STATUS is DONE, REJECTED and ERR 1 (R140). -/
theorem decodeCommand_lengthMismatch {pipe : Capture → Stage Decoded} {s : State} (hwf : s.cfg.wf = true)
    (hp : pipe s.capture = .raise .lengthMismatch Work.clear) :
    decodeCommand pipe s = .next { s with work := Work.clear, status := 0x0000000F } := by
  rw [decodeCommand_raise hwf hp, abortStatus_eq]
  rfl

/-- LENGTH_CHECK(C) fails outside the configured range, and on CAP_LEN = 0 even inside it (R140, R263). -/
theorem pipelineC_of_badLength {x : Capture}
    (h : ¬ (0 < x.capLen.toNat ∧ x.cfg.cLenMin ≤ x.capLen.toNat ∧ x.capLen.toNat ≤ x.cfg.cLenMax)) :
    pipelineC x = .raise .lengthMismatch Work.clear := by
  rw [pipelineC_eq, if_neg h]

/-- Settles O24: each pipeline starts with its length check. CAP_LEN = 0 is a wrong length for A and B, whose frames
need slots, and fails C's check by itself. -/
theorem wrongLengthIsLengthMismatch : Obligations.WrongLengthIsLengthMismatch := by
  intro s hwf
  have hA (h : s.capLen.toNat ≠ s.cfg.aLen) := decodeCommand_lengthMismatch (s := s) hwf
    ((pipelineA_eq s.capture).trans (if_neg h))
  have hB (h : s.capLen.toNat ≠ s.cfg.bLen) := decodeCommand_lengthMismatch (s := s) hwf
    ((pipelineB_eq s.capture).trans (if_neg h))
  refine ⟨hA, hB, fun h => decodeCommand_lengthMismatch hwf (pipelineC_of_badLength fun hc => h hc.2), ?_⟩
  intro h0 i hi
  have hzero : s.capLen.toNat = 0 := by rw [h0]; rfl
  cases i with
  | nop => cases hi
  | decodeA => exact hA (by have := Config.wf_aFits hwf; omega)
  | decodeB => exact hB (by have := Config.wf_bFits hwf; omega)
  | decodeC => exact decodeCommand_lengthMismatch hwf (pipelineC_of_badLength fun hc => hc.1.ne' hzero)
  | dupclr => cases hi

/-! ## A reading the gate holds back -/

/-- A DECODE whose reading the duplicate gate holds back after `n` bits: STATUS as a number, and nothing else changed
(R194). -/
theorem decodeCommand_gateClosed {pipe : Capture → Stage Decoded} {s : State} {d : Decoded} {sig : Sig} {n : Nat}
    (hwf : s.cfg.wf = true) (hp : pipe s.capture = .pass d) (hsig : signature s.cfg d.reading = sig)
    (hgate : ¬ GateOpen s sig) (hn : d.work.bitcnt.toNat = n) :
    ∃ w, decodeCommand pipe s = .next { s with work := w, status := BitVec.ofNat 32 (5 + 256 * n) } := by
  have hheld : emits s.dup s.capHash s.now (signature s.cfg d.reading) = false := by
    rw [hsig]
    exact Bool.eq_false_iff.2 (mt (emits_iff_gateOpen s sig).1 hgate)
  exact ⟨d.work, by rw [decodeCommand_suppress hwf hp hheld, suppressStatus_eq, hn]⟩

/-! ## A Protocol A frame -/

/-- DECODE.A's pipeline on a capture of its length that encodes the frame `f`: the frame is assembled whole, and its
checks and fields decide the rest (R76, R83). -/
theorem pipelineA_encodes {x : Capture} {f : BitVec 36} (hwf : x.cfg.wf = true) (hl : x.capLen.toNat = x.cfg.aLen)
    (henc : EncodesFixed x.cfg.aWindows x.mem (firstUsedA x.cfg) 36 fun k => f.getMsbD k) :
    ∃ w, pipelineA x = judgeA x.cfg w ∧ w.bitcnt.toNat = 36 ∧ ∀ k < 36, frameBit w k = f.getMsbD k := by
  have hfit : firstUsedA x.cfg + 2 * 36 ≤ x.cfg.capDepth := by
    have := Config.wf_aFits hwf
    simp only [firstUsedA]
    omega
  obtain ⟨w, hw, hh, -⟩ := assembleFixed_encodes (p := .a) hfit (Config.wf_capDepth hwf) (by omega)
    (Config.wf_aWindows hwf) henc
  refine ⟨asmFlush w, ?_, ?_, fun k hk => ?_⟩
  · rw [pipelineA_eq, if_pos hl, hw, Stage.andThen_pass]
  · rw [asmFlush_bitcnt, hh.count, List.length_map, List.length_range]
  · rw [frameBit_asmFlush, hh.frameBit_of_range hk]

/-- What the checks and the field decoder make of the Protocol A frame `f`, in R148's order. -/
theorem judgeA_of_frame {w : Work} {f : BitVec 36} (c : Config) (hb : ∀ k < 36, frameBit w k = f.getMsbD k) :
    judgeA c w =
      if aMain f = 0 then .raise .zeroFrameArtifact w
      else if 600 < twosMag (aTemp f) ∨ 99 < (aHum f).toNat then .raise .rangeViolation w
      else .pass { work := w, reading := recordA w (sign12 (aTemp f)) } := by
  have hmain : field w 0 28 = aMain f := field_of_frame hb rfl
  have htemp : field w 16 12 = aTemp f := field_of_frame hb rfl
  have hhum : field w 28 8 = aHum f := field_of_frame hb rfl
  have hcases := judgeA_cases c w
  simp only [hmain, htemp, hhum, sign12_eq (aTemp f)] at hcases
  rw [sign12_eq]
  rcases hcases with ⟨h0, e⟩ | ⟨h0, hr, e⟩ | ⟨h0, ht, hh, e⟩
  · rw [e, if_pos h0]
  · rw [e, if_neg h0, if_pos hr]
  · rw [e, if_neg h0, if_neg (by omega)]

/-- Settles O30: the capture is assembled to the frame, and the first check it fails, or else the closed gate, ends the
command. -/
theorem decodeATurnsAwayOtherFrames : Obligations.DecodeATurnsAwayOtherFrames := by
  intro s f hwf hl henc
  obtain ⟨w, hpipe, hcount, hb⟩ := pipelineA_encodes (x := s.capture) hwf hl henc
  have hjudge := hpipe.trans (judgeA_of_frame s.cfg hb)
  refine ⟨fun h0 => ?_, fun h0 hr => ?_, fun h0 ht hh hgate => ?_⟩
  · rw [if_pos h0] at hjudge
    exact decodeCommand_raise_count hwf hjudge hcount
  · rw [if_neg h0, if_pos hr] at hjudge
    exact decodeCommand_raise_count hwf hjudge hcount
  · rw [if_neg h0, if_neg (by omega)] at hjudge
    exact decodeCommand_gateClosed hwf hjudge ((recordA_of_frame hb).2 s.cfg) hgate hcount

/-! ## A Protocol C frame -/

/-- The bits of a frame are as many as its width. -/
@[simp] theorem length_frameBits {n : Nat} (f : BitVec n) : (frameBits f).length = n := by simp [frameBits]

/-- A flushed working state that holds the 28 bits of the frame `f` passes CHECKSUM_C exactly if the frame's own
checksum is right: three cells are full, and the flush stores the check nibble in the fourth (R122, R142). -/
theorem checksum_asmFlush_of_holds {f : BitVec 28} {w : Work} (h : Holds (frameBits f) w)
    (hb : ∀ k < 28, frameBit (asmFlush w) k = f.getMsbD k) :
    (foldNibbles (cell (asmFlush w) 0 ^^^ cell (asmFlush w) 1 ^^^ cell (asmFlush w) 2) = cell (asmFlush w) 3)
      ↔ cChecksum f = f.extractLsb' 0 4 := by
  have hcount : w.bitcnt.toNat = 28 := h.count.trans (length_frameBits f)
  have hpartial : w.bitcnt.toNat % 8 ≠ 0 := by omega
  have hfull (j : Fin 5) (hj : j.val < 3) : cell (asmFlush w) j = field (asmFlush w) (8 * j.val) 8 := by
    rw [cell_asmFlush_of_partial hpartial, if_neg (by omega), field_asmFlush]
    exact h.full j j.isLt (by rw [length_frameBits]; omega)
  refine checksum_of_frame hb (hfull 0 (by decide)) (hfull 1 (by decide)) (hfull 2 (by decide)) ?_
  have hsr : w.sr = f.setWidth 40 := by
    rw [h.sr_eq_field, length_frameBits, ← field_asmFlush, field_of_frame hb (lo := 0) rfl,
      BitVec.extractLsb'_eq_self]
  rw [cell_asmFlush_of_partial hpartial, if_pos (by omega), field_of_frame hb (lo := 0) rfl, hsr, hcount]
  have hf := f.isLt
  simp only [BitVec.toNat_setWidth, BitVec.extractLsb'_toNat, Nat.shiftRight_zero, Nat.reduceMod, Nat.reducePow]
  omega

/-- DECODE.C's pipeline on a capture that encodes the frame `f` and ends: the frame is assembled whole, its cells carry
its checksum, and its checks and fields decide the rest (R78, R85). -/
theorem pipelineC_encodes {x : Capture} {f : BitVec 28} {j : Nat} (hwf : x.cfg.wf = true)
    (hlo : x.cfg.cLenMin ≤ x.capLen.toNat) (hhi : x.capLen.toNat ≤ x.cfg.cLenMax)
    (henc : encodesC x.cfg x.mem (dataEndC x.cfg x.capLen) x.cfg.cFirstSlot (frameBits f) j = true)
    (hend : dataEndC x.cfg x.capLen < j + 2) :
    ∃ w, pipelineC x = judgeC x.cfg w ∧ w.bitcnt.toNat = 28 ∧ (∀ k < 28, frameBit w k = f.getMsbD k)
      ∧ ((foldNibbles (cell w 0 ^^^ cell w 1 ^^^ cell w 2) = cell w 3) ↔ cChecksum f = f.extractLsb' 0 4) := by
  have hlen := length_frameBits f
  have hpos : 0 < x.capLen.toNat := capLen_pos_of_encodesC (List.ne_nil_of_length_pos (by omega)) henc
  obtain ⟨w, hw, hh, -⟩ := assembleVar_encodes hwf hhi (.inr ⟨by omega, hend⟩) henc
  have hcount : (asmFlush w).bitcnt.toNat = 28 := by rw [asmFlush_bitcnt, hh.count, hlen]
  have hb : ∀ k < 28, frameBit (asmFlush w) k = f.getMsbD k := fun k hk => by
    rw [frameBit_asmFlush, hh.frameBit_of_range hk]
  refine ⟨asmFlush w, ?_, hcount, hb, checksum_asmFlush_of_holds hh hb⟩
  rw [pipelineC_eq, if_pos ⟨hpos, hlo, hhi⟩, hw, countCheck_of_eq hcount, Stage.andThen_pass]

/-- What the checks and the field decoder make of the Protocol C frame `f`, in R148's order. -/
theorem judgeC_of_frame {w : Work} {f : BitVec 28} (c : Config) (hb : ∀ k < 28, frameBit w k = f.getMsbD k)
    (hcheck : (foldNibbles (cell w 0 ^^^ cell w 1 ^^^ cell w 2) = cell w 3) ↔ cChecksum f = f.extractLsb' 0 4) :
    judgeC c w =
      if cChecksum f ≠ f.extractLsb' 0 4 then .raise .checksumMismatch w
      else if f = 0 then .raise .zeroFrameArtifact w
      else if c.cTempMax < cMag f then .raise .rangeViolation w
      else .pass { work := w, reading := recordC w (tempC w) } := by
  have hframe : field w 0 28 = f := (field_of_frame hb rfl).trans BitVec.extractLsb'_eq_self
  have hcases := judgeC_cases c w
  simp only [ne_eq, hcheck, hframe, (recordC_of_frame hb).1] at hcases
  rcases hcases with ⟨hc, e⟩ | ⟨hc, ⟨h0, e⟩ | ⟨h0, hr, e⟩ | ⟨h0, ht, e⟩⟩
  · rw [e, if_pos hc]
  · rw [e, if_neg (not_not.2 hc), if_pos h0]
  · rw [e, if_neg (not_not.2 hc), if_neg h0, if_pos hr]
  · rw [e, if_neg (not_not.2 hc), if_neg h0, if_neg (by omega)]

/-- Settles O34: the capture is assembled to the frame, and the first check it fails, or else the closed gate, ends the
command. The zero frame's checksum is right, so it gets as far as ZERO_CHECK. -/
theorem decodeCTurnsAwayOtherFrames : Obligations.DecodeCTurnsAwayOtherFrames := by
  intro s f j hwf hlo hhi henc hend
  obtain ⟨w, hpipe, hcount, hb, hcheck⟩ := pipelineC_encodes (x := s.capture) hwf hlo hhi henc hend
  have hjudge := hpipe.trans (judgeC_of_frame s.cfg hb hcheck)
  refine ⟨fun hc => ?_, fun h0 => ?_, fun hc h0 hr => ?_, fun hc h0 ht hgate => ?_⟩
  · rw [if_pos hc] at hjudge
    exact decodeCommand_raise_count hwf hjudge hcount
  · have hc : cChecksum f = f.extractLsb' 0 4 := by rw [h0]; decide
    rw [if_neg (not_not.2 hc), if_pos h0] at hjudge
    exact decodeCommand_raise_count hwf hjudge hcount
  · rw [if_neg (not_not.2 hc), if_neg h0, if_pos hr] at hjudge
    exact decodeCommand_raise_count hwf hjudge hcount
  · rw [if_neg (not_not.2 hc), if_neg h0, if_neg (by omega)] at hjudge
    exact decodeCommand_gateClosed hwf hjudge ((recordC_of_frame hb).2.2 s.cfg) hgate hcount

/-! ## A flipped bit -/

/-- The fold of R142 is linear: a byte's shift and its low nibble both are. -/
theorem foldNibbles_xor (x y : Byte) : foldNibbles (x ^^^ y) = foldNibbles x ^^^ foldNibbles y := by
  have hlow : (x ^^^ y) &&& 0x0F = (x &&& 0x0F) ^^^ (y &&& 0x0F) := by
    ext i
    simp only [BitVec.getElem_and, BitVec.getElem_xor, Bool.and_xor_distrib_right]
  simp only [foldNibbles, BitVec.ushiftRight_xor_distrib, hlow]
  ac_rfl

/-- A single bit shows in the fold. -/
theorem foldNibbles_oneBit_ne_zero (k : Fin 8) : foldNibbles (1#8 <<< k.val) ≠ 0 := by
  revert k
  decide

theorem checksumC_eq_ok_iff {w : Work} :
    checksumC w = .ok () ↔ foldNibbles (cell w 0 ^^^ cell w 1 ^^^ cell w 2) = cell w 3 :=
  require_eq_ok.trans decide_eq_true_iff

theorem checksumC_of_ne {w : Work} (h : foldNibbles (cell w 0 ^^^ cell w 1 ^^^ cell w 2) ≠ cell w 3) :
    checksumC w = .error .checksumMismatch :=
  require_eq_error.2 ⟨decide_eq_false h, rfl⟩

/-- `w` with the mask `e` flipped in the cell FB[j]. -/
def flipCell (w : Work) (j : Fin 4) (e : Byte) : Work := { w with fb := w.fb.set j.val (w.fb[j.val] ^^^ e) }

theorem cell_flipCell (w : Work) (j : Fin 4) (e : Byte) (i : Fin 5) :
    cell (flipCell w j e) i = if j.val = i.val then cell w i ^^^ e else cell w i := by
  rw [cell, flipCell, Fin.getElem_fin, Vector.getElem_set]
  split
  · rename_i hji
    simp only [hji]
    rfl
  · rfl

/-- A mask flipped in one of FB[0..2] is flipped in the sum of the three. -/
theorem sum_flipCell (w : Work) {j : Fin 4} (e : Byte) (hj : j.val < 3) :
    cell (flipCell w j e) 0 ^^^ cell (flipCell w j e) 1 ^^^ cell (flipCell w j e) 2
      = (cell w 0 ^^^ cell w 1 ^^^ cell w 2) ^^^ e := by
  simp only [cell_flipCell, Fin.val_zero, Fin.val_one, Fin.val_two]
  obtain h | h | h : j.val = 0 ∨ j.val = 1 ∨ j.val = 2 := by omega
  · rw [if_pos h, if_neg (by omega), if_neg (by omega)]
    ac_rfl
  · rw [if_neg (by omega), if_pos h, if_neg (by omega)]
    ac_rfl
  · rw [if_neg (by omega), if_neg (by omega), if_pos h]
    ac_rfl

/-- A mask that is not 0 changes the byte it is flipped in. -/
theorem xor_ne_self {e : Byte} (he : e ≠ 0) (x : Byte) : x ^^^ e ≠ x := fun h =>
  he ((BitVec.xor_right_inj x).1 (h.trans BitVec.xor_zero.symm))

/-- Settles O43: the flip changes one side of the comparison alone. In a summed cell it changes the fold of the sum by
the fold of one bit, which is not 0; in FB[3] it changes the stored checksum by that bit. -/
theorem checksumCatchesASingleFlippedBit : Obligations.ChecksumCatchesASingleFlippedBit := by
  intro w j k h
  have hsum := checksumC_eq_ok_iff.1 h
  have hfold := foldNibbles_oneBit_ne_zero k
  refine checksumC_of_ne (w := flipCell w j (1#8 <<< k.val)) ?_
  by_cases hj : j.val < 3
  · have hstored : cell (flipCell w j (1#8 <<< k.val)) 3 = cell w 3 :=
      (cell_flipCell ..).trans (if_neg hj.ne)
    rw [sum_flipCell w _ hj, hstored, foldNibbles_xor, hsum]
    exact xor_ne_self hfold _
  · have hkept (i : Fin 5) (hi : i.val < 3) : cell (flipCell w j (1#8 <<< k.val)) i = cell w i :=
      (cell_flipCell ..).trans (if_neg (by omega))
    have hstored : cell (flipCell w j (1#8 <<< k.val)) 3 = cell w 3 ^^^ (1#8 <<< k.val) :=
      (cell_flipCell ..).trans (if_pos (show j.val = 3 by omega))
    have hbit : 1#8 <<< k.val ≠ 0 := fun h0 => hfold (by rw [h0]; rfl)
    rw [hkept 0 (by decide), hkept 1 (by decide), hkept 2 (by decide), hstored, hsum]
    exact (xor_ne_self hbit _).symm

end Sys2Proof.Machine

/-! PROOF. The family 43_field_decoder.md: the ranges of what the field decoder computes, the two codes a temperature
comes back from, and Protocol C's negative zero. -/

namespace Sys2Proof.Machine

open Sys2Proof.Safety

/-- A magnitude below 2^15 fits TEMP_MAG whole. -/
theorem toNat_ofNat_tempMag {m : Nat} (h : m < 2 ^ 15) : (BitVec.ofNat 15 m).toNat = m := by
  rw [BitVec.toNat_ofNat, Nat.mod_eq_of_lt h]

/-! ## SIGN12 -/

/-- A two's-complement code that reads as negative has a magnitude from 1 to 2048. -/
theorem twosMag_of_neg {t : BitVec 12} (h : 2048 ≤ t.toNat) : 1 ≤ twosMag t ∧ twosMag t ≤ 2048 := by
  have := t.isLt
  rw [twosMag, if_pos h]
  omega

/-- Any other code is its own magnitude. -/
theorem twosMag_of_nonneg {t : BitVec 12} (h : t.toNat < 2048) : twosMag t = t.toNat := if_neg (by omega)

/-- SIGN12's ranges (R179). -/
theorem sign12_range (t : BitVec 12) :
    ((sign12 t).neg = true → 1 ≤ (sign12 t).mag ∧ (sign12 t).mag ≤ 2048)
      ∧ ((sign12 t).neg = false → (sign12 t).mag ≤ 2047) := by
  rw [sign12_eq]
  refine ⟨fun h => twosMag_of_neg (of_decide_eq_true h), fun h => ?_⟩
  have hlt : t.toNat < 2048 := Nat.lt_of_not_le (of_decide_eq_false h)
  exact (twosMag_of_nonneg hlt).le.trans (by omega)

/-- SIGN12 inverts the 12-bit two's-complement code, on all its range. -/
theorem sign12_ofInt {t : Int} (hlo : -2048 ≤ t) (hhi : t < 2048) :
    sign12 (BitVec.ofInt 12 t) = { neg := decide (t < 0), mag := t.natAbs } := by
  have hcode : (BitVec.ofInt 12 t).toNat = (t % 4096).toNat := BitVec.toNat_ofInt t
  rw [sign12_eq, twosMag, hcode]
  by_cases h : t < 0
  · rw [if_pos (by omega), decide_eq_true h, decide_eq_true (by omega)]
    congr 1
    omega
  · rw [if_neg (by omega), decide_eq_false h, decide_eq_false (by omega)]
    congr 1
    omega

/-- RANGE_TEMP as one equation (R146). -/
theorem inRange_eq_ite (c : Config) (p : Protocol) (t : Temp) :
    inRange c p t = if t.mag ≤ tempMax c p then .ok t else .error .rangeViolation := by
  split
  · exact inRange_of_le ‹_›
  · exact inRange_of_lt (by omega)

/-- Settles O44: the top bit is the comparison with 2048, and RANGE_TEMP's limit for Protocol A is 600. -/
theorem signTwelveRecoversSignAndMagnitude : Obligations.SignTwelveRecoversSignAndMagnitude := by
  intro c traw
  refine ⟨?_, fun h => ((sign12_range traw).1 h).1, inRange_eq_ite c .a (sign12 traw)⟩
  rw [sign12_eq, twosMag]
  split <;> simp [*]

/-! ## The decimal digits of Protocol C -/

/-- Three nibbles expand to at most 15 · 111. -/
theorem bcd3_le (h t u : BitVec 4) : bcd3 h t u ≤ 1665 := by
  simp only [bcd3]
  omega

/-- The BCD expansion of a number's decimal digits is the number. -/
theorem bcd3_digits {n : Nat} (hn : n ≤ 999) :
    bcd3 (BitVec.ofNat 4 (n / 100)) (BitVec.ofNat 4 (n / 10 % 10)) (BitVec.ofNat 4 (n % 10)) = n := by
  simp only [bcd3, BitVec.toNat_ofNat]
  omega

/-- The magnitude of a Protocol C frame whose digit nibbles are the decimal digits of `n`. -/
theorem tempC_mag_of_digits {w : Work} {n : Nat} (hn : n ≤ 999) (hh : field w 12 4 = BitVec.ofNat 4 (n / 100))
    (ht : field w 16 4 = BitVec.ofNat 4 (n / 10 % 10)) (hu : field w 20 4 = BitVec.ofNat 4 (n % 10)) :
    (tempC w).mag = n := by
  rw [tempC, hh, ht, hu]
  exact bcd3_digits hn

/-- FIELD_C passes a magnitude within the limit. -/
theorem fieldC_of_le {c : Config} {w : Work} (h : (tempC w).mag ≤ c.cTempMax) :
    fieldC c w = .ok (recordC w (tempC w)) := by
  obtain ⟨-, e⟩ | ⟨hgt, -⟩ := fieldC_cases c w
  · exact e
  · omega

/-- TEMP_MAG holds the whole of a Protocol C magnitude. -/
theorem recordC_tempMag_toNat (w : Work) : (recordC w (tempC w)).tempMag.toNat = (tempC w).mag :=
  toNat_ofNat_tempMag ((bcd3_le ..).trans_lt (by decide))

/-! ## RESCALE_B -/

/-- The bounds of what RESCALE_B divides (R170). -/
theorem rescaleDividend_range (t : BitVec 12) : -6100 ≤ rescaleDividend t ∧ rescaleDividend t ≤ 14375 := by
  have := t.isLt
  rw [rescaleDividend_eq]
  omega

/-- The exact bounds of RESCALE_B's quotient: truncation is monotone, so they are the quotients of the dividend's. -/
theorem celsiusTenths_range (t : BitVec 12) : -677 ≤ celsiusTenths t ∧ celsiusTenths t ≤ 1597 := by
  obtain ⟨hlo, hhi⟩ := rescaleDividend_range t
  exact ⟨Int.tdiv_le_tdiv (by decide) hlo, Int.tdiv_le_tdiv (by decide) hhi⟩

/-- RESCALE_B's ranges (R179): no negative zero, and the bounds of its quotient. -/
theorem rescaleB_range (t : BitVec 12) :
    ((rescaleB t).neg = true → 1 ≤ (rescaleB t).mag ∧ (rescaleB t).mag ≤ 677) ∧ (rescaleB t).mag ≤ 1597 := by
  obtain ⟨hlo, hhi⟩ := celsiusTenths_range t
  simp only [rescaleB_eq, decide_eq_true_eq]
  omega

/-- The codes 1220 and 1221 both convert to 0: their dividends, 0 and 5, are below the divisor 9. -/
theorem rescaleB_eq_zero {t : BitVec 12} (hlo : 1220 ≤ t.toNat) (hhi : t.toNat ≤ 1221) :
    rescaleB t = { neg := false, mag := 0 } := by
  have hc : celsiusTenths t = 0 := by
    rw [celsiusTenths, rescaleDividend_eq]
    exact Int.tdiv_eq_zero_of_lt (by omega) (by simp only [Param.bRescaleDen]; omega)
  rw [rescaleB_eq, hc]
  rfl

/-! ## The temperature laws -/

/-- Settles O46: SIGN12 inverts the two's-complement code and FIELD_C the decimal digits. RESCALE_B
converts the codes 1220 and 1221 alike. -/
theorem temperatureRoundTrips : Obligations.TemperatureRoundTrips := by
  refine ⟨fun c t ht => ?_, fun c w t hmax hn hh htens hu hs => ?_, 1220, 1221, by decide, ?_⟩
  · obtain ⟨hlo, hhi⟩ := abs_le.1 ht
    rw [sign12_ofInt (by omega) (by omega)]
    exact inRange_of_le (p := .a) (show t.natAbs ≤ 600 by omega)
  · have hmag : (tempC w).mag = t.natAbs := tempC_mag_of_digits hn hh htens hu
    exact ⟨_, fieldC_of_le (hmag.le.trans hmax), hs, (recordC_tempMag_toNat w).trans hmag⟩
  · rw [rescaleB_eq_zero (by decide) (by decide), rescaleB_eq_zero (by decide) (by decide)]

/-- Settles O48: the three zero digits expand to 0, which every limit admits, and the sign bit is kept. -/
theorem negativeZeroIsReportedAsSuch : Obligations.NegativeZeroIsReportedAsSuch := by
  intro c w hs hh ht hu
  have hmag : (tempC w).mag = 0 := tempC_mag_of_digits (Nat.zero_le _) hh ht hu
  have hneg : (recordC w (tempC w)).tempNeg = true := hs
  have hzero : (recordC w (tempC w)).tempMag = 0 := BitVec.eq_of_toNat_eq ((recordC_tempMag_toNat w).trans hmag)
  refine ⟨_, fieldC_of_le (hmag.le.trans (Nat.zero_le _)), hneg, hzero, ?_⟩
  rw [tempWord_eq, hneg, hzero]
  rfl

/-! ## The ranges -/

/-- FIELD_A's channel is a two-bit field plus 1 (R165). -/
theorem recordA_channel_range (w : Work) (t : Temp) :
    1 ≤ (recordA w t).channel.toNat ∧ (recordA w t).channel.toNat ≤ 4 := by
  have hsum : ∀ x : BitVec 2, 1 ≤ (x.setWidth 3 + 1).toNat ∧ (x.setWidth 3 + 1).toNat ≤ 4 := by decide
  exact hsum (field w 14 2)

/-- SIGN12's magnitude fits TEMP_MAG. -/
theorem sign12_mag_lt (t : BitVec 12) : (sign12 t).mag < 2 ^ 15 := by
  obtain ⟨hneg, hpos⟩ := sign12_range t
  cases h : (sign12 t).neg with
  | true => have := hneg h; omega
  | false => have := hpos h; omega

/-- Settles O47, each range by the lemma of its operation. -/
theorem fieldDecoderStaysInRange : Obligations.FieldDecoderStaysInRange := by
  refine ⟨sign12_range, fun t => ?_, bcd3_le, fun w => bcd3_le .., recordA_channel_range, fun w t => ?_⟩
  · have hf : -900 ≤ fahrenheitTenths t ∧ fahrenheitTenths t ≤ 3195 := by
      have := t.isLt
      simp only [fahrenheitTenths, Param.bBias]
      omega
    obtain ⟨hdlo, hdhi⟩ := rescaleDividend_range t
    obtain ⟨hclo, hchi⟩ := celsiusTenths_range t
    exact ⟨hf.1, hf.2, hdlo, hdhi, hclo, hchi, rescaleB_range t⟩
  · exact ⟨toNat_ofNat_tempMag (sign12_mag_lt t), toNat_ofNat_tempMag (rescaleB_mag_lt t),
      recordC_tempMag_toNat w⟩

end Sys2Proof.Machine

/-! PROOF. The family 44_dedup.md: the rule of DUP_CHECK, what an acceptance leaves of the reading in DUP_SIG, and what
becomes of the same reading when it is fed again. -/

namespace Sys2Proof.Machine

/-! ## The gate -/

theorem dupCheck_of_emits {n : BitVec 32} {r : Reading} {s : State}
    (h : emits s.dup s.capHash n (signature s.cfg r) = true) : dupCheck n r s = accept n r (signature s.cfg r) s :=
  if_pos h

theorem dupCheck_of_not_emits {n : BitVec 32} {r : Reading} {s : State}
    (h : ¬ emits s.dup s.capHash n (signature s.cfg r) = true) : dupCheck n r s = suppress s :=
  if_neg h

/-- Settles O49: DUP_CHECK branches on `emits`, which is R192's four disjuncts. -/
theorem gateEmitsExactlyWhenTheRuleSays : Obligations.GateEmitsExactlyWhenTheRuleSays :=
  ⟨age_toNat, fun _ _ s =>
    ⟨fun h => dupCheck_of_emits ((emits_iff s.dup ..).2 h),
      fun h => dupCheck_of_not_emits (mt (emits_iff s.dup ..).1 h)⟩⟩

/-- To the record accepted last, on the same capture hash, the gate opens by age alone (R192, R193). -/
theorem emits_dupOf_iff (sig : Sig) (capHash time n : BitVec 32) :
    emits (dupOf sig capHash time) capHash n sig = true ↔ 500 < (age n time).toNat := by
  simp [emits_iff, dupOf]

/-! ## An accepted DECODE -/

/-- A DECODE whose RESULT is ACCEPTED had a reading, and left its signature and its record (R193). -/
theorem decodeCommand_accepted {pipe : Capture → Stage Decoded} {s t : State} (h : decodeCommand pipe s = .next t)
    (hacc : statusResult t.status = resultCode .accepted) :
    s.cfg.wf = true ∧ ∃ d, pipe s.capture = .pass d ∧
      t = { s with
        work := d.work
        status := acceptStatus d.work.bitcnt
        rd := packReading d.reading
        dup := dupOf (signature s.cfg d.reading) s.capHash s.now } := by
  obtain ⟨hwf, ⟨e, w, -, rfl⟩ | ⟨d, hp, ⟨-, ht⟩ | ⟨-, rfl⟩⟩⟩ := decodeCommand_next h
  · exact absurd (resultCode_inj.1 ((finished_abortStatus e w.bitcnt).result.symm.trans hacc)) (by simp)
  · exact ⟨hwf, d, hp, ht⟩
  · exact absurd (resultCode_inj.1 ((finished_suppressStatus d.work.bitcnt).result.symm.trans hacc)) (by simp)

/-! ## The signature and the record -/

/-- The default SIG_FN is PROTO above FRAME (R190). -/
theorem signature_of_standard {c : Config} (h : c.sigFn = .standard) (r : Reading) :
    signature c r = protoCode r.proto ++ r.frame := by
  simp only [signature, h]

/-- PROTO stands in bits 17:16 of RD_PROTO_ID (R36). -/
theorem packProtoId_proto (r : Reading) : (packProtoId r).extractLsb' 16 2 = protoCode r.proto := by
  apply BitVec.eq_of_toNat_eq
  have hproto := (protoCode r.proto).isLt
  have hid := r.id.isLt
  rw [packProtoId_eq, BitVec.extractLsb'_toNat, BitVec.toNat_ofNat, Nat.shiftRight_eq_div_pow]
  omega

/-- FRAME[39:32] stands in bits 7:0 of RD_FRAME_HI (R40). -/
theorem packFrameHi_frame (r : Reading) : (packFrameHi r).extractLsb' 0 8 = r.frame.extractLsb' 32 8 :=
  BitVec.extractLsb'_append_eq_right

/-- FRAME is RD_FRAME_HI's bits 7:0 above RD_FRAME_LO, so PROTO above FRAME can be read off the RD_* registers
(R36, R40). -/
theorem packReading_proto_frame (r : Reading) :
    (packReading r).protoId.extractLsb' 16 2 ++ (packReading r).frameHi.extractLsb' 0 8 ++ (packReading r).frameLo
      = protoCode r.proto ++ r.frame := by
  have hproto : (packReading r).protoId.extractLsb' 16 2 = protoCode r.proto := packProtoId_proto r
  have hhi : (packReading r).frameHi.extractLsb' 0 8 = r.frame.extractLsb' 32 8 := packFrameHi_frame r
  have hlo : (packReading r).frameLo = r.frame.extractLsb' 0 32 := rfl
  have hframe := r.frame.isLt
  apply BitVec.eq_of_toNat_eq
  rw [hproto, hhi, hlo]
  simp only [toNat_append, BitVec.extractLsb'_toNat, Nat.shiftRight_eq_div_pow]
  omega

/-- Settles O17: an acceptance stores the record's signature and packs the same record into the RD_* registers. -/
theorem acceptedSignatureIsTheReportedFrame : Obligations.AcceptedSignatureIsTheReportedFrame := by
  intro i s t hi h hacc hsig
  obtain ⟨pipe, hexec, -⟩ := exec_of_isDecode hi
  rw [hexec] at h
  obtain ⟨-, d, -, rfl⟩ := decodeCommand_accepted h hacc
  exact (signature_of_standard hsig d.reading).trans (packReading_proto_frame d.reading).symm

/-! ## The same reading fed again -/

/-- `s` holds a capture that `pipe` decodes to `d`, and the DuplicateState of `d`'s acceptance at NOW = `time` with the
same capture hash. -/
structure AcceptedAt (pipe : Capture → Stage Decoded) (d : Decoded) (time : BitVec 32) (s : State) : Prop where
  wf      : s.cfg.wf = true
  decodes : pipe s.capture = .pass d
  dup     : s.dup = dupOf (signature s.cfg d.reading) s.capHash time

/-- The acceptance itself leaves such a state. -/
theorem acceptedAt_of_accepted {pipe : Capture → Stage Decoded} {s t : State} (h : decodeCommand pipe s = .next t)
    (hacc : statusResult t.status = resultCode .accepted) : ∃ d, AcceptedAt pipe d s.now t := by
  obtain ⟨hwf, d, hp, rfl⟩ := decodeCommand_accepted h hacc
  exact ⟨d, hwf, hp, rfl⟩

section
variable {pipe : Capture → Stage Decoded} {d : Decoded} {time : BitVec 32} {s : State} (h : AcceptedAt pipe d time s)
include h

/-- Only the age decides whether the reading is emitted again. -/
theorem AcceptedAt.emits_iff (n : BitVec 32) :
    emits s.dup s.capHash n (signature s.cfg d.reading) = true ↔ 500 < (n - time).toNat := by
  rw [h.dup]
  exact emits_dupOf_iff ..

/-- Within the window the reading is suppressed, and the suppression leaves the state as one of the same acceptance
(R194, R195). -/
theorem AcceptedAt.suppressed {n : BitVec 32} (hn : (n - time).toNat ≤ 500) :
    ∃ u, decodeCommand pipe (s.setNow n) = .next u ∧ statusResult u.status = resultCode .suppressed
      ∧ u.dup = s.dup ∧ u.rd = s.rd ∧ AcceptedAt pipe d time u := by
  have hheld : emits s.dup s.capHash n (signature s.cfg d.reading) = false :=
    Bool.eq_false_iff.2 (mt (h.emits_iff n).1 hn.not_gt)
  exact ⟨_, decodeCommand_suppress (s := s.setNow n) h.wf h.decodes hheld, (finished_suppressStatus _).result, rfl, rfl,
    h.wf, h.decodes, h.dup⟩

/-- After the window the reading is accepted again, and the window starts anew (R193, R195). -/
theorem AcceptedAt.accepted {n : BitVec 32} (hn : 500 < (n - time).toNat) :
    ∃ u, decodeCommand pipe (s.setNow n) = .next u ∧ statusResult u.status = resultCode .accepted ∧ u.dup.time = n :=
  ⟨_, decodeCommand_accept (s := s.setNow n) h.wf h.decodes ((h.emits_iff n).2 hn), (finished_acceptStatus _).result, rfl⟩

end

/-- Settles O23: the acceptance leaves an `AcceptedAt` state, which a suppression keeps; so the third feeding, like the
second, is judged from the acceptance. -/
theorem repeatedReadingIsSuppressedThenAccepted : Obligations.RepeatedReadingIsSuppressedThenAccepted := by
  intro i s t hi h hacc n
  obtain ⟨pipe, hexec, -⟩ := exec_of_isDecode hi
  simp only [hexec] at h ⊢
  obtain ⟨d, hat⟩ := acceptedAt_of_accepted h hacc
  refine ⟨fun hn => ?_, hat.accepted⟩
  obtain ⟨u, hu, hres, hdup, hrd, hau⟩ := hat.suppressed hn
  exact ⟨u, hu, hres, hdup, hrd, fun _ => hau.accepted⟩

end Sys2Proof.Machine

/-! PROOF. The family 45_commands.md: the two commands that decode nothing as whole state updates, and the frames that
DECODE.A and DECODE.C accept. -/

namespace Sys2Proof.Machine

open Sys2Proof.Safety

/-! ## NOP and DUPCLR -/

/-- A command that decodes nothing, with an effect that leaves the prologue's STATUS alone, answers that effect with
STATUS = 1 (R216). -/
theorem plainCommand_eq_setStatus_one {effect : State → State} {s : State} (hwf : s.cfg.wf = true)
    (hst : (effect (prologue s)).status = 0) :
    plainCommand effect s = .next ((effect (prologue s)).setStatus 0x00000001) := by
  rw [plainCommand_of_wf hwf, hst, epilogue, State.setStatus_status, plainStatus_eq, State.setStatus_setStatus]

/-- An empty DuplicateState lets every reading through (R192). -/
theorem emits_empty (h n : BitVec 32) (sig : Sig) : emits Dup.empty h n sig = true :=
  (emits_iff ..).2 (.inl rfl)

/-- Settles O13: NOP is the plain command with no effect. -/
theorem nopOnlyCompletes : Obligations.NopOnlyCompletes := fun _ hwf =>
  plainCommand_eq_setStatus_one (effect := id) hwf rfl

/-- Settles O14: DUPCLR is the plain command whose effect is the empty DuplicateState. -/
theorem dupclrClearsTheDuplicateState : Obligations.DupclrClearsTheDuplicateState := fun _ hwf =>
  ⟨plainCommand_eq_setStatus_one (effect := fun u => u.setDup Dup.empty) hwf rfl, emits_empty⟩

/-! ## A reading the gate lets through -/

/-- A DECODE whose reading the duplicate gate lets through after `n` bits: STATUS as a number, the reading's registers,
the new DuplicateState, and nothing else changed but the working state (R193). -/
theorem decodeCommand_gateOpen {pipe : Capture → Stage Decoded} {s : State} {d : Decoded} {regs : ReadRegs}
    {sig : Sig} {n : Nat} (hwf : s.cfg.wf = true) (hp : pipe s.capture = .pass d) (hregs : packReading d.reading = regs)
    (hsig : signature s.cfg d.reading = sig) (hgate : GateOpen s sig) (hn : d.work.bitcnt.toNat = n) :
    ∃ w, decodeCommand pipe s = .next { s with
      work := w
      status := BitVec.ofNat 32 (0xC3 + 256 * n)
      rd := regs
      dup := acceptedDup s sig } := by
  have hemit : emits s.dup s.capHash s.now (signature s.cfg d.reading) = true := by
    rw [hsig]
    exact (emits_iff_gateOpen s sig).2 hgate
  have hdup : dupOf sig s.capHash s.now = acceptedDup s sig := rfl
  exact ⟨d.work, by rw [decodeCommand_accept hwf hp hemit, acceptStatus_eq, hn, hregs, hsig, hdup]⟩

/-! ## The frames DECODE.A and DECODE.C accept -/

/-- Settles O29: the capture is assembled to the frame, the frame passes its checks, and the open gate lets its reading
through. -/
theorem decodeAAcceptsAValidFrame : Obligations.DecodeAAcceptsAValidFrame := by
  intro s f hwf hl henc h0 ht hh hgate
  obtain ⟨w, hpipe, hcount, hb⟩ := pipelineA_encodes (x := s.capture) hwf hl henc
  obtain ⟨hregs, hsig⟩ := recordA_of_frame hb
  have hjudge := hpipe.trans (judgeA_of_frame s.cfg hb)
  rw [if_neg h0, if_neg (by omega)] at hjudge
  exact decodeCommand_gateOpen hwf hjudge hregs (hsig s.cfg) hgate hcount

/-- Settles O33: the capture is assembled to the frame, whose cells carry its right checksum; the frame passes the other
checks, and the open gate lets its reading through. -/
theorem decodeCAcceptsAValidFrame : Obligations.DecodeCAcceptsAValidFrame := by
  intro s f j hwf hlo hhi henc hend hc h0 ht hgate
  obtain ⟨w, hpipe, hcount, hb, hcheck⟩ := pipelineC_encodes (x := s.capture) hwf hlo hhi henc hend
  obtain ⟨-, hregs, hsig⟩ := recordC_of_frame hb
  have hjudge := hpipe.trans (judgeC_of_frame s.cfg hb hcheck)
  rw [if_neg (not_not.2 hc), if_neg h0, if_neg (by omega)] at hjudge
  exact decodeCommand_gateOpen hwf hjudge hregs (hsig s.cfg) hgate hcount

end Sys2Proof.Machine

/-! PROOF. The family 60_exceptions.md: how every command ends, that a rejected decode leaves nothing the next DECODE
can see, and the idle step. -/

namespace Sys2Proof.Machine

open Sys2Proof.Safety

/-! ## How every command ends -/

/-- The answer goes on, to a state whose STATUS says DONE (R234). -/
def Completes (x : Answer State) : Prop := ∃ t, x = .next t ∧ statusDone t.status = true

/-- The answer is the model fault that names a slot of the capture below CAP_LEN which the host has not written
(R23). -/
def FaultsUnwritten (s : State) (x : Answer State) : Prop :=
  ∃ k, k < s.capLen.toNat ∧ capWritten s.capMem k = false ∧ x = .fault (.unwrittenCapture k)

/-- A capture written below CAP_LEN has no slot to fault at. -/
theorem not_faultsUnwritten {s : State} (hcap : CaptureWritten s) (x : Answer State) : ¬ FaultsUnwritten s x := by
  rintro ⟨k, hk, hunwritten, -⟩
  rw [hcap k hk] at hunwritten
  cases hunwritten

/-- A DECODE ends with its pipeline: it aborts, passes the duplicate gate or is held back there, each with DONE set, or
it faults with the pipeline. -/
theorem decodeCommand_completes_or_faults {pipe : Capture → Stage Decoded} (hp : Pipes pipe) {s : State}
    (hwf : s.cfg.wf = true) : Completes (decodeCommand pipe s) ∨ FaultsUnwritten s (decodeCommand pipe s) := by
  cases hx : pipe s.capture with
  | fault f =>
    obtain ⟨k, hk, hunwritten, rfl⟩ := hp.fault s.capture f hwf hx
    exact .inr ⟨k, hk, hunwritten, decodeCommand_fault hwf hx⟩
  | raise e w => exact .inl ⟨_, decodeCommand_raise hwf hx, (finished_abortStatus e w.bitcnt).done⟩
  | pass d =>
    cases hgate : emits s.dup s.capHash s.now (signature s.cfg d.reading) with
    | true => exact .inl ⟨_, decodeCommand_accept hwf hx hgate, (finished_acceptStatus d.work.bitcnt).done⟩
    | false => exact .inl ⟨_, decodeCommand_suppress hwf hx hgate, (finished_suppressStatus d.work.bitcnt).done⟩

/-- The STATUS that NOP and DUPCLR leave says DONE (R216). -/
theorem statusDone_one : statusDone 0x00000001 = true := by decide

/-- NOP and DUPCLR always complete; a DECODE may fault instead. -/
theorem exec_completes_or_faults (i : Instr) {s : State} (hwf : s.cfg.wf = true) :
    Completes (exec i s) ∨ FaultsUnwritten s (exec i s) := by
  cases i with
  | nop => exact .inl ⟨_, nopOnlyCompletes s hwf, statusDone_one⟩
  | decodeA => exact decodeCommand_completes_or_faults pipes_pipelineA hwf
  | decodeB => exact decodeCommand_completes_or_faults pipes_pipelineB hwf
  | decodeC => exact decodeCommand_completes_or_faults pipes_pipelineC hwf
  | dupclr => exact .inl ⟨_, (dupclrClearsTheDuplicateState s hwf).1, statusDone_one⟩

/-- Settles O18: a command completes or faults at an unwritten slot below CAP_LEN, and a written capture rules out the
fault. -/
theorem everyCommandCompletesOnAWrittenCapture : Obligations.EveryCommandCompletesOnAWrittenCapture := by
  intro i s hwf
  have hends := exec_completes_or_faults i hwf
  exact ⟨hends, fun hcap => hends.resolve_right (not_faultsUnwritten hcap _)⟩

/-! ## A rejected decode and the idle step -/

/-- Settles O22: the rejected decode changed the working state and STATUS alone, and a DECODE sees neither. -/
theorem rejectedDecodeIsInvisibleToTheNextDecode : Obligations.RejectedDecodeIsInvisibleToTheNextDecode := by
  intro i j s t hi hj h hrej
  obtain ⟨w, st, rfl⟩ := eq_of_rejected hi h hrej
  calc exec j ((s.setWork w).setStatus st)
      = exec j (s.setWork w) := (noCommandSeesEarlierStatusOrWorkingState j (s.setWork w) w st).1
    _ = exec j s := (noCommandSeesEarlierStatusOrWorkingState j s w st).2 hj

/-- Settles O6: an idle step is the branch of `stepEvent` that answers its state. -/
theorem idleStepHoldsTheState : Obligations.IdleStepHoldsTheState := by
  intro s hwf hidle
  simp only [step, stepEvent, hwf, hidle, if_true]

end Sys2Proof.Machine

/-! PROOF. The family 70_reset_and_hazards.md and what is left: the reset event, the frame of the two plain commands,
the frames DECODE.B turns away, and the rounding of RESCALE_B. -/

namespace Sys2Proof.Machine

open Sys2Proof.Safety

/-! ## Reset -/

/-- A step whose oldest pending event is a reset. -/
theorem step_reset {s : State} {rest : List HostEvent} (h : s.cfg.wf = true) (hp : s.pending = .reset :: rest) :
    step s = .next (resetCore (popEvent rest s)) := by
  simp only [step, stepEvent, h, hp, if_true, perform]

/-- Settles O2: this build's configuration is well-formed, and the reset state of any such is legal. -/
theorem invariantHoldsAtReset : Obligations.InvariantHoldsAtReset :=
  ⟨stateLegal_resetOf reset_cfg_wf, fun _ hwf => stateLegal_resetOf hwf⟩

/-- Settles O4: the reset event leaves the reset state of the configuration, with the host's later events pending. -/
theorem resetEventClearsTheState : Obligations.ResetEventClearsTheState := fun _ _ hwf hp =>
  ⟨_, step_reset hwf hp, capWritten_nil, rfl, rfl, rfl, rfl, rfl, rfl, rfl, rfl, rfl⟩

/-- Settles O5: DUPCLR and the reset event both leave the empty DuplicateState. -/
theorem resetAndDupclrClearTheDuplicateStateAlike : Obligations.ResetAndDupclrClearTheDuplicateStateAlike := by
  intro s hwf
  obtain ⟨hclr, hemits⟩ := dupclrClearsTheDuplicateState s hwf
  obtain ⟨u, hreset, hcap, hlen, hnow, hhash, -, hdup, hstatus, hrd, -, -⟩ :=
    resetEventClearsTheState (s.setPending (.reset :: s.pending)) s.pending hwf rfl
  exact ⟨_, u, hclr, hreset, hdup.symm, rfl, hemits, hdup ▸ hemits, rfl, rfl, rfl, rfl, rfl, hcap, hlen, hnow, hhash,
    hstatus, hrd⟩

/-! ## The frame of NOP and DUPCLR -/

/-- A command that goes on ran under a well-formed configuration (R10). -/
theorem exec_next_wf {i : Instr} {s t : State} (h : exec i s = .next t) : s.cfg.wf = true := by
  by_contra hwf
  rw [exec_of_not_wf (Bool.eq_false_iff.2 hwf)] at h
  cases h

/-- Settles O16: the next state is the one NOP or DUPCLR answers on a well-formed configuration. -/
theorem plainCommandsFrame : Obligations.PlainCommandsFrame := by
  intro s t
  constructor
  · intro h
    rw [nopOnlyCompletes s (exec_next_wf h)] at h
    cases h
    exact ⟨rfl, fun _ => rfl⟩
  · intro h
    rw [(dupclrClearsTheDuplicateState s (exec_next_wf h)).1] at h
    cases h
    exact ⟨rfl, fun _ => rfl⟩

/-! ## The frames DECODE.B turns away -/

/-- What the checks and the field decoder make of the Protocol B frame `f`, in R148's order. -/
theorem judgeB_of_frame {w : Work} {f : BitVec 40} (c : Config) (hb : ∀ k < 40, frameBit w k = f.getMsbD k) :
    judgeB c w =
      if bHum f = 0 then .raise .zeroFrameArtifact w
      else if c.bTempMax < (rescaleB (bTemp f)).mag ∨ 0x99 < (bHum f).toNat then .raise .rangeViolation w
      else .pass { work := w, reading := recordB w (rescaleB (bTemp f)) } := by
  have htemp : field w 8 12 = bTemp f := field_of_frame hb rfl
  have hhum : field w 20 8 = bHum f := field_of_frame hb rfl
  have hcases := judgeB_cases c w
  rw [htemp, hhum] at hcases
  rcases hcases with ⟨h0, e⟩ | ⟨h0, hr, e⟩ | ⟨h0, ht, hh, e⟩
  · rw [e, if_pos h0]
  · rw [e, if_neg h0, if_pos hr]
  · rw [e, if_neg h0, if_neg (by omega)]

/-- Settles O32: the capture is assembled to the frame, and the first check it fails, or else the closed gate, ends the
command. -/
theorem decodeBTurnsAwayOtherFrames : Obligations.DecodeBTurnsAwayOtherFrames := by
  intro s f hwf hl henc
  obtain ⟨w, hpipe, hbits, hb⟩ := pipelineB_encodes (x := s.capture) hwf hl henc
  have hcount : w.bitcnt.toNat = 40 := congrArg BitVec.toNat hbits
  have hjudge := hpipe.trans (judgeB_of_frame s.cfg hb)
  refine ⟨fun h0 => ?_, fun h0 hr => ?_, fun h0 ht hh hgate => ?_⟩
  · rw [if_pos h0] at hjudge
    exact decodeCommand_raise_count hwf hjudge hcount
  · rw [if_neg h0, if_pos hr] at hjudge
    exact decodeCommand_raise_count hwf hjudge hcount
  · rw [if_neg h0, if_neg (by omega)] at hjudge
    exact decodeCommand_gateClosed hwf hjudge ((recordB_of_frame hb).2 s.cfg) hgate hcount

/-! ## The rounding of RESCALE_B -/

/-- RESCALE_B's magnitude is the floor quotient of the dividend's magnitude (R170, R171). -/
theorem rescaleB_mag_eq_div (t : BitVec 12) : (rescaleB t).mag = (((t.toNat : Int) - 1220) * 5).natAbs / 9 := by
  rw [rescaleB_eq, celsiusTenths, rescaleDividend_eq]
  exact Int.natAbs_tdiv _ _

/-- Below the bias RESCALE_B's quotient is not positive, from it on not negative. -/
theorem celsiusTenths_sign (t : BitVec 12) :
    (t.toNat < 1220 → celsiusTenths t ≤ 0) ∧ (1220 ≤ t.toNat → 0 ≤ celsiusTenths t) := by
  rw [celsiusTenths, rescaleDividend_eq]
  exact ⟨fun _ => Int.tdiv_le_tdiv (b := 0) (by decide) (by omega), fun _ => Int.tdiv_nonneg (by omega) (by decide)⟩

/-- Settles O45: the magnitude is a floor quotient by 9, and the sign is that of the quotient, which is 0 if the
magnitude is. -/
theorem rescaleTruncatesTowardZero : Obligations.RescaleTruncatesTowardZero := by
  intro t
  have hmag := rescaleB_mag_eq_div t
  have hneg : (rescaleB t).neg = true ↔ t.toNat < 1220 ∧ (rescaleB t).mag ≠ 0 := by
    obtain ⟨hbelow, hfrom⟩ := celsiusTenths_sign t
    simp only [rescaleB_eq, decide_eq_true_eq]
    omega
  rw [Int.abs_eq_natAbs]
  exact ⟨by omega, by omega, hneg⟩

end Sys2Proof.Machine
